-- ==== Sys2Proof/Word.lean ====
section
/-!
DEFINITION. The word types of heceta-rtu-core: what the spec gives a width in bits.
-/

namespace Sys2Proof

/-- A received byte, a byte of `BUF`, an address byte (R13, R32). -/
abbrev Byte := BitVec 8

/-- One queue element of `ELEM_W` = 10 bits, packed as R90 says. -/
abbrev Slot := BitVec 10

/-- The 24-bit operation word of R100. -/
abbrev OpWord := BitVec 24

/-- The CRC accumulator, u16 (R180). -/
abbrev CrcWord := BitVec 16

/-- A storage space (R60): (index, element) pairs. Canonical form and access are in Machine/Ops.lean. An index that is
not listed holds no value (R21). -/
abbrev Memory (w : Nat) := List (Nat × BitVec w)

/-- `op` above `arg`, as R100 lays out the operation word. -/
abbrev packWord (op : BitVec 8) (arg : BitVec 16) : OpWord := op ++ arg

end Sys2Proof
end

