-- ==== Sys2Proof/Config.lean ====
section
/-!
DEFINITION. The configuration record of R9 and R10: what an integrator fixes. Every claim quantifies over it, because
State carries one and no claim fixes its value. What makes a record legal is in Machine/Flags.lean.
-/

namespace Sys2Proof

/-- Where the two thresholds come from (R9, R141): the serial and timer parameters, or the tick counts given directly. -/
inductive Timing where
  /-- `BAUD`, `DATA_BITS`, `PARITY_EN`, `STOP_BITS`, `F_TICK`. -/
  | serial (baud dataBits : Nat) (parityEn : Bool) (stopBits fTick : Nat)
  /-- `T15` and `T35` given directly (R9, R141 corner case a). -/
  | direct (t15 t35 : Nat)
  deriving DecidableEq, Repr

/-- The configuration record of R9: its open parameters. `ELEM_W`, `IDX_W` and `POS_W` follow below. -/
structure Config where
  /-- `N`, the queue capacity in slots. -/
  n : Nat
  /-- `ADU_MAX`, the capacity of the candidate buffer. -/
  aduMax : Nat
  /-- `W_T`, the width of the timer counter in bits. -/
  wT : Nat
  /-- The source of `T15` and `T35`. -/
  timing : Timing
  /-- `SLAVE_ADDR`, 0 to 255. -/
  slaveAddr : Byte
  deriving DecidableEq, Repr

/-- The least `k` with `n <= 2^k`, that is `ceil(log2(n))`, searched from `k` on in at most `fuel` tries. -/
def ceilLog2From (n : Nat) : Nat → Nat → Nat
  | 0, k => k
  | fuel + 1, k => if n ≤ 2 ^ k then k else ceilLog2From n fuel (k + 1)

/-- `ELEM_W` of R9: 10 for the core's one queue, a queue of TaggedBytes; the width of `Slot`. -/
def Config.elemW (_ : Config) : Nat := 10

/-- `IDX_W` of R9, the width of `HEAD` and `TAIL`: `ceil(log2(N))`, at least 1. -/
def Config.idxW (c : Config) : Nat := ceilLog2From c.n c.n 1

/-- `POS_W` of R9, the width of `POS`: `ceil(log2(ADU_MAX+1))`. -/
def Config.posW (c : Config) : Nat := ceilLog2From (c.aduMax + 1) (c.aduMax + 1) 0

/-- The configuration `State.reset` carries. `ADU_MAX` and `W_T` are the defaults of R9; the rest are the conventions of
95_test_vectors.md. DESIGN CHOICE, log 3: the spec leaves `N`, the timing and `SLAVE_ADDR` open. -/
def Config.vectors : Config where
  n := 16
  aduMax := 256
  wT := 16
  timing := .direct 15 35
  slaveAddr := 0x01

end Sys2Proof
end

