-- ==== Sys2Proof/Syntax.lean ====
section
/-!
DEFINITION. The operations of the core: one constructor per row of spec/opcode_table.json, and the columns "agent" and
"kind" of the operation map R102.
-/

namespace Sys2Proof

/-- The 29 operations of R102. Operands are those of R101. -/
inductive Instr where
  /-- `SYS.RESET`, R270. -/
  | sysReset
  /-- `Q.INIT`, R120. -/
  | qInit
  /-- `Q.ENQ item`, R121; `item` is a slot value. -/
  | qEnq (item : Slot)
  /-- `Q.DEQ`, R122. -/
  | qDeq
  /-- `Q.PEEK`, R123. -/
  | qPeek
  /-- `Q.FREE`, R124. -/
  | qFree
  /-- `Q.COUNT`, R125. -/
  | qCount
  /-- `Q.ITER`, R127. -/
  | qIter
  /-- `CTC.INIT`, R141. -/
  | ctcInit
  /-- `CTC.TICK k`, R142; `k` single ticks. -/
  | ctcTick (k : BitVec 16)
  /-- `CTC.RX v`, R144; `v` is the received byte. -/
  | ctcRx (v : Byte)
  /-- `CTC.SILNOW`, R146. -/
  | ctcSilnow
  /-- `CTC.RESTART`, R145. -/
  | ctcRestart
  /-- `FA.BEGIN`, R160. -/
  | faBegin
  /-- `FA.SCAN`, R161. -/
  | faScan
  /-- `FA.DECIDE`, R162. -/
  | faDecide
  /-- `FA.CHECK`, R163. -/
  | faCheck
  /-- `FA.CLEAR`, R165. -/
  | faClear
  /-- `FA.POLL`, R166. -/
  | faPoll
  /-- `CRC.RESET`, R180. -/
  | crcReset
  /-- `CRC.BYTE b`, R181; the accumulator is the result of the previous `CRC.RESET` or `CRC.BYTE`. -/
  | crcByte (b : Byte)
  /-- `CRC.BLOCK`, R182, on the candidate in `BUF`. -/
  | crcBlock
  /-- `CRC.VERIFY`, R183, on the candidate in `BUF`. -/
  | crcVerify
  /-- `SSM.POLL`, R222. -/
  | ssmPoll
  /-- `SSM.INIT`, R221. -/
  | ssmInit
  /-- `SSM.MATCH`, R224. -/
  | ssmMatch
  /-- `SSM.RESPOND started`, R225; the responder's answer. -/
  | ssmRespond (started : Bool)
  /-- `SSM.TXDONE`, R228. -/
  | ssmTxdone
  /-- `SSM.RUN`, R229. -/
  | ssmRun
  deriving DecidableEq, Repr

/-- The agents of R11. -/
inductive Agent where
  /-- The timer. -/
  | tmr
  /-- The byte-received interrupt. -/
  | rxi
  /-- The transmit-complete interrupt. -/
  | txi
  /-- The poll loop. -/
  | poll
  /-- Reset and the debug console. -/
  | host
  deriving DecidableEq, Repr

/-- The column "kind" of R102. -/
inductive OpKind where
  /-- Issued by the environment. -/
  | external
  /-- A read-only query, issued by the environment. -/
  | query
  /-- Invoked only from inside other operations. -/
  | internal
  /-- A micro-step of the poll agent. -/
  | microStep
  /-- A fixed sequence of other operations. -/
  | composite
  /-- A pure function. -/
  | pure
  deriving DecidableEq, Repr

/-- The column "kind" of R102. `CTC.SILNOW` and `Q.PEEK` are internal there although they write nothing. -/
def Instr.kind : Instr → OpKind
  | .sysReset => .external
  | .qInit => .internal
  | .qEnq _ => .internal
  | .qDeq => .internal
  | .qPeek => .internal
  | .qFree => .query
  | .qCount => .query
  | .qIter => .query
  | .ctcInit => .internal
  | .ctcTick _ => .external
  | .ctcRx _ => .external
  | .ctcSilnow => .internal
  | .ctcRestart => .internal
  | .faBegin => .internal
  | .faScan => .microStep
  | .faDecide => .microStep
  | .faCheck => .microStep
  | .faClear => .internal
  | .faPoll => .composite
  | .crcReset => .pure
  | .crcByte _ => .pure
  | .crcBlock => .pure
  | .crcVerify => .pure
  | .ssmPoll => .microStep
  | .ssmInit => .internal
  | .ssmMatch => .microStep
  | .ssmRespond _ => .microStep
  | .ssmTxdone => .external
  | .ssmRun => .composite

/-- The column "agent" of R102; a row that says "any" lists all five. -/
def Instr.agents : Instr → List Agent
  | .sysReset => [.host]
  | .qInit => [.poll]
  | .qEnq _ => [.rxi]
  | .qDeq => [.poll]
  | .qPeek => [.poll]
  | .qFree => [.tmr, .rxi, .txi, .poll, .host]
  | .qCount => [.tmr, .rxi, .txi, .poll, .host]
  | .qIter => [.host]
  | .ctcInit => [.poll]
  | .ctcTick _ => [.tmr]
  | .ctcRx _ => [.rxi]
  | .ctcSilnow => [.poll]
  | .ctcRestart => [.rxi, .poll]
  | .faBegin => [.poll]
  | .faScan => [.poll]
  | .faDecide => [.poll]
  | .faCheck => [.poll]
  | .faClear => [.poll]
  | .faPoll => [.poll]
  | .crcReset => [.tmr, .rxi, .txi, .poll, .host]
  | .crcByte _ => [.tmr, .rxi, .txi, .poll, .host]
  | .crcBlock => [.tmr, .rxi, .txi, .poll, .host]
  | .crcVerify => [.poll]
  | .ssmPoll => [.poll]
  | .ssmInit => [.poll]
  | .ssmMatch => [.poll]
  | .ssmRespond _ => [.poll]
  | .ssmTxdone => [.txi]
  | .ssmRun => [.poll]

end Sys2Proof
end

