-- ==== Sys2Proof/WellFormed.lean ====
section
/-!
DEFINITION. Which operations are well formed. The types of the operands already bound their widths (R101); the one check
left is that `CTC.TICK` carries at least one tick.
-/

namespace Sys2Proof

/-- R101, R104: `CTC.TICK` with `k = 0` is reserved; everything else the operand types admit is legal. -/
def Instr.wellFormed : Instr → Bool
  | .ctcTick k => k != 0
  | .sysReset | .qInit | .qEnq _ | .qDeq | .qPeek | .qFree | .qCount | .qIter => true
  | .ctcInit | .ctcRx _ | .ctcSilnow | .ctcRestart => true
  | .faBegin | .faScan | .faDecide | .faCheck | .faClear | .faPoll => true
  | .crcReset | .crcByte _ | .crcBlock | .crcVerify => true
  | .ssmPoll | .ssmInit | .ssmMatch | .ssmRespond _ | .ssmTxdone | .ssmRun => true

end Sys2Proof
end

