-- ==== Sys2Proof/Decode.lean ====
section
/-!
DEFINITION. The decoder of the 24-bit operation word (R100 to R104), total on every word and refusing by name, and after
it the encoder, written from the operation map R102 and the operand table R101.
-/

namespace Sys2Proof

/-- Why a word is no operation (R104). -/
inductive DecodeError where
  /-- The `op` field is not in the table of R102. -/
  | reservedOp (op : BitVec 8)
  /-- A bit of `arg` that R101 says must be 0 is 1. -/
  | unusedArgBits (arg : BitVec 16)
  /-- `CTC.TICK` with `k = 0`. -/
  | zeroTicks
  deriving DecidableEq, Repr

/-- Bits 23:16 of the operation word (R100). -/
def opField (w : OpWord) : BitVec 8 := w.extractLsb' 16 8

/-- Bits 15:0 of the operation word (R100). -/
def argField (w : OpWord) : BitVec 16 := w.extractLsb' 0 16

/-- An operation that takes no operand: `arg = 0` (R101). -/
def noOperand (i : Instr) (arg : BitVec 16) : Except DecodeError Instr :=
  if arg = 0 then .ok i else .error (.unusedArgBits arg)

/-- An operand in `arg[7:0]`, `arg[15:8] = 0` (R101: `CTC.RX`, `CRC.BYTE`). -/
def byteOperand (f : Byte → Instr) (arg : BitVec 16) : Except DecodeError Instr :=
  if arg.extractLsb' 8 8 = 0 then .ok (f (arg.extractLsb' 0 8)) else .error (.unusedArgBits arg)

/-- An operand in `arg[9:0]`, `arg[15:10] = 0` (R101: `Q.ENQ`). -/
def slotOperand (f : Slot → Instr) (arg : BitVec 16) : Except DecodeError Instr :=
  if arg.extractLsb' 10 6 = 0 then .ok (f (arg.extractLsb' 0 10)) else .error (.unusedArgBits arg)

/-- An operand in `arg[0]`, `arg[15:1] = 0` (R101: `SSM.RESPOND`). -/
def bitOperand (f : Bool → Instr) (arg : BitVec 16) : Except DecodeError Instr :=
  if arg.extractLsb' 1 15 = 0 then .ok (f (arg.getLsbD 0)) else .error (.unusedArgBits arg)

/-- An operand of all of `arg`, which may not be 0 (R101: `CTC.TICK`). -/
def tickOperand (f : BitVec 16 → Instr) (arg : BitVec 16) : Except DecodeError Instr :=
  if arg = 0 then .error .zeroTicks else .ok (f arg)

/-- The operation map R102 applied to an `op` and its `arg`. -/
def decodeFields (op : BitVec 8) (arg : BitVec 16) : Except DecodeError Instr :=
  match op.toNat with
  | 0x00 => noOperand .sysReset arg
  | 0x10 => noOperand .qInit arg
  | 0x11 => slotOperand .qEnq arg
  | 0x12 => noOperand .qDeq arg
  | 0x13 => noOperand .qPeek arg
  | 0x14 => noOperand .qFree arg
  | 0x15 => noOperand .qCount arg
  | 0x16 => noOperand .qIter arg
  | 0x20 => noOperand .ctcInit arg
  | 0x21 => tickOperand .ctcTick arg
  | 0x22 => byteOperand .ctcRx arg
  | 0x23 => noOperand .ctcSilnow arg
  | 0x24 => noOperand .ctcRestart arg
  | 0x30 => noOperand .faBegin arg
  | 0x31 => noOperand .faScan arg
  | 0x32 => noOperand .faDecide arg
  | 0x33 => noOperand .faCheck arg
  | 0x34 => noOperand .faClear arg
  | 0x35 => noOperand .faPoll arg
  | 0x40 => noOperand .crcReset arg
  | 0x41 => byteOperand .crcByte arg
  | 0x42 => noOperand .crcBlock arg
  | 0x43 => noOperand .crcVerify arg
  | 0x50 => noOperand .ssmPoll arg
  | 0x51 => noOperand .ssmInit arg
  | 0x52 => noOperand .ssmMatch arg
  | 0x53 => bitOperand .ssmRespond arg
  | 0x54 => noOperand .ssmTxdone arg
  | 0x55 => noOperand .ssmRun arg
  | _ => .error (.reservedOp op)

/-- The decoder: every 24-bit word is an operation or is refused by name (R104). -/
def decode (w : OpWord) : Except DecodeError Instr := decodeFields (opField w) (argField w)

/-- The column "op" of R102. -/
def opNumber : Instr → BitVec 8
  | .sysReset => 0x00
  | .qInit => 0x10
  | .qEnq _ => 0x11
  | .qDeq => 0x12
  | .qPeek => 0x13
  | .qFree => 0x14
  | .qCount => 0x15
  | .qIter => 0x16
  | .ctcInit => 0x20
  | .ctcTick _ => 0x21
  | .ctcRx _ => 0x22
  | .ctcSilnow => 0x23
  | .ctcRestart => 0x24
  | .faBegin => 0x30
  | .faScan => 0x31
  | .faDecide => 0x32
  | .faCheck => 0x33
  | .faClear => 0x34
  | .faPoll => 0x35
  | .crcReset => 0x40
  | .crcByte _ => 0x41
  | .crcBlock => 0x42
  | .crcVerify => 0x43
  | .ssmPoll => 0x50
  | .ssmInit => 0x51
  | .ssmMatch => 0x52
  | .ssmRespond _ => 0x53
  | .ssmTxdone => 0x54
  | .ssmRun => 0x55

/-- The `arg` field of an operation, R101; 0 where it takes none. -/
def argOf : Instr → BitVec 16
  | .qEnq item => item.setWidth 16
  | .ctcTick k => k
  | .ctcRx v => v.setWidth 16
  | .crcByte b => b.setWidth 16
  | .ssmRespond started => (BitVec.ofBool started).setWidth 16
  | .sysReset | .qInit | .qDeq | .qPeek | .qFree | .qCount | .qIter => 0
  | .ctcInit | .ctcSilnow | .ctcRestart => 0
  | .faBegin | .faScan | .faDecide | .faCheck | .faClear | .faPoll => 0
  | .crcReset | .crcBlock | .crcVerify => 0
  | .ssmPoll | .ssmInit | .ssmMatch | .ssmTxdone | .ssmRun => 0

/-- The encoder: the word of an operation (R100 to R102). -/
def encode (i : Instr) : OpWord := packWord (opNumber i) (argOf i)

/-- The host's probe: the operation read from a table word. The operation word has no bytes and no byte order (R100), so
its number is the table's number; the format has the one length of 24 bits. -/
def decodeTableWord (nbits w : Nat) : Option Instr :=
  if nbits ≤ 24 ∧ w < 2 ^ nbits then
    match decode (BitVec.ofNat 24 w) with
    | .ok i => some i
    | .error _ => none
  else none

end Sys2Proof
end

