-- ==== Sys2Proof/Machine/State.lean ====
section
/-!
DEFINITION. The state of the core (R20), the model's own fields beside it, the reasons a step can stop, and the state
right after reset (R270, R271).
-/

namespace Sys2Proof.Machine

/-- `PHASE`, the sequencer of the poll agent (R34). The reserved codes 6 and 7 have no constructor (R95). -/
inductive Phase where
  /-- 0 IDLE: the next micro-step is `SSM.POLL`. -/
  | idle
  /-- 1 SCAN: `FA.SCAN`. -/
  | scan
  /-- 2 DECIDE: `FA.DECIDE`. -/
  | decision
  /-- 3 CHECK: `FA.CHECK`. -/
  | check
  /-- 4 MATCH: `SSM.MATCH`. -/
  | addrMatch
  /-- 5 DISPATCH: `SSM.RESPOND`. -/
  | dispatch
  deriving DecidableEq, Repr

/-- `STATE`, the session state (R36). The reserved code 3 has no constructor (R95). -/
inductive Session where
  /-- 0 `INIT`. -/
  | init
  /-- 1 `RECEIVE`. -/
  | receive
  /-- 2 `SEND_WAIT`. -/
  | sendWait
  deriving DecidableEq, Repr

/-- The drop events of R240 with their recorded values: ghost observations that no rule reads (R15). -/
inductive DropEvent where
  /-- 1 `DROP_QFULL`: the tagged byte lost. -/
  | qFull (item : Slot)
  /-- 2 `DROP_BUFOVF`: the byte value lost. -/
  | bufOvf (value : Byte)
  /-- 3 `DROP_SHORT`: `POS`. -/
  | short (pos : Nat)
  /-- 4 `DROP_CRC`: `POS`. -/
  | crc (pos : Nat)
  /-- 5 `DROP_ADDR`: `BUF[0]`. -/
  | addr (first : Byte)
  /-- 6 `TX_REFUSED`. -/
  | txRefused
  deriving DecidableEq, Repr

/-- The outputs of R41 that are events. `RXEN` is the level output, `result` carries the diagnostic reads. -/
inductive Output where
  /-- The dispatch request with the frame `BUF[0 .. POS-1]` (R224, R190). -/
  | dispatchRequest (frame : List Byte)
  /-- The command `clear_output_buffer` (R227). -/
  | clearOutputBuffer
  deriving DecidableEq, Repr

/-- The result an operation returns to its caller (R14). -/
inductive OpResult where
  /-- No operation has returned a result yet. -/
  | none
  /-- One bit: `Q.ENQ`, `CTC.SILNOW`, `CRC.VERIFY`. -/
  | bit (b : Bool)
  /-- An integer: `Q.FREE`, `Q.COUNT`. -/
  | count (k : Nat)
  /-- An optional element: `Q.DEQ`, `Q.PEEK`. -/
  | item (v : Option Slot)
  /-- A list of elements: `Q.ITER`. -/
  | items (vs : List Slot)
  /-- A u16: `CRC.RESET`, `CRC.BYTE`, `CRC.BLOCK`. -/
  | crc (c : CrcWord)
  /-- The result of a pass, `frame` or `no_frame`: `FA.POLL` (R164). -/
  | pass (frame : Bool)
  deriving DecidableEq, Repr

/-- One event the environment delivers (R41). -/
inductive Input where
  /-- An operation word (R100), legal or not. -/
  | word (w : OpWord)
  /-- A change of the configuration inputs (R75). `N`, `ADU_MAX` and `W_T` are sizes of the hardware and cannot change. -/
  | configure (timing : Timing) (slaveAddr : Byte)
  deriving DecidableEq, Repr

/-- The tuple of R20, in its order, and after it the model's own fields, which R20 counts as inputs or observations. -/
structure State where
  /-- `SLOT[0..N-1]` (R22). -/
  slot : Memory 10
  /-- `HEAD` (R23). -/
  head : Nat
  /-- `TAIL` (R24). -/
  tail : Nat
  /-- `T15` (R26). -/
  t15 : Nat
  /-- `T35` (R26). -/
  t35 : Nat
  /-- `CNT` (R27). -/
  cnt : Nat
  /-- `GAP` (R28). -/
  gap : Bool
  /-- `SIL` (R29). -/
  sil : Bool
  /-- `RUN` (R30). -/
  run : Bool
  /-- `RXEN` (R31). -/
  rxen : Bool
  /-- `BUF[0..ADU_MAX-1]` (R32). -/
  buf : Memory 8
  /-- `POS` (R33). -/
  pos : Nat
  /-- `PHASE` (R34). -/
  phase : Phase
  /-- `STOP_SIL` (R35). -/
  stopSil : Bool
  /-- `EMPTIED` (R35). -/
  emptied : Bool
  /-- `STATE` (R36). -/
  session : Session
  /-- `TX_BUSY` (R37). -/
  txBusy : Bool
  /-- Model's own: the configuration inputs (R9, R10; log 3). -/
  cfg : Config
  /-- Model's own: the events still to be delivered, oldest first (R11, R12; log 1). -/
  inputs : List Input
  /-- Model's own: the accumulator a `CRC.BYTE` word continues from (R181; log 7). -/
  crcAcc : CrcWord
  /-- Model's own: the result of the latest operation that returned one (R14; log 8). -/
  result : OpResult
  /-- Model's own, of the environment: the transmit-complete interrupts the transport still owes, one for each transmission
  started, whatever resets came between (R191 A3; log 25). -/
  owed : Nat
  /-- Model's own, of the environment: an `SSM.RESPOND` has answered, so (A3) of R191 has begun to bind (log 25). -/
  answered : Bool
  /-- Model's own, ghost: the drop events, oldest first (R15; log 9). -/
  drops : List DropEvent
  /-- Model's own: the outputs, oldest first (R41; log 9). -/
  outputs : List Output
  deriving DecidableEq, Repr

/-- Why the model stops with a fault (R246). No state a run from reset reaches raises one; each is safe. -/
inductive Fault where
  /-- Raised by a read of a slot that holds no value (R21, U1). Safe: the machine would go on with some value. -/
  | slotUnwritten
  /-- Raised by an access to `SLOT` at an index not below `N` (R65). Safe: no such element exists. -/
  | slotIndexOutOfRange
  /-- Raised by a read of a buffer byte that holds no value (R21, U1). Safe: the machine would go on with some value. -/
  | bufUnwritten
  /-- Raised by an access to `BUF` at an index not below `ADU_MAX` (R65). Safe: no such element exists. -/
  | bufIndexOutOfRange
  /-- Raised by `Q.ITER`, `FA.POLL`, `SSM.RUN` where their loop does not end: `HEAD` outside `0..N-1`, which no run
  reaches (R126). A stuck state. Safe. -/
  | divergent
  deriving DecidableEq, Repr

/-- What the model gives no meaning to (R246). Each is safe: no behaviour of the core is lost. -/
inductive Refusal where
  /-- Raised by an arm of `exec` whose operation has no meaning yet. Safe. -/
  | notModelled (mnemonic : String)
  /-- Raised by `step`, `CTC.INIT`, `SSM.INIT` and a `configure` event: the configuration breaks R9. Safe. -/
  | illegalConfiguration
  /-- Raised by `step`: the next word is no operation (R104). Safe. -/
  | illegalWord (why : DecodeError)
  /-- Raised by a micro-step that `PHASE` does not select (R103). Safe. -/
  | phaseMismatch
  /-- Raised by `SSM.RUN` at `PHASE = DISPATCH`: the micro-step there needs the responder's answer (R103, R229). Safe. -/
  | answerMissing
  /-- Raised by `CRC.VERIFY` on fewer than two bytes, "not a legal operand" (R183). Safe. -/
  | shortOperand
  /-- Raised by `CTC.TICK` with `k = 0`, which is reserved (R101). Safe. -/
  | zeroTicks
  /-- Raised by a `configure` event that changes `SLAVE_ADDR` inside a transaction (R75). Safe. -/
  | configChangedInTransaction
  /-- Raised where the environment breaks R191: by `step` for (A2), by `admittedStep` for (A3) too (R246; log 18, 25). Safe. -/
  | environmentBroken
  deriving DecidableEq, Repr

/-- What a computation over the state answers: a value, a fault or a refusal. -/
abbrev Answer (α : Type) := Host.Outcome α Fault Refusal

/-- The state right after reset, R270. `T15` and `T35` hold no value there; 0 is DESIGN CHOICE, log 4. The model's own
fields: log 1, 3, 7, 8, 9, 25. -/
def State.reset : State where
  slot := []
  head := 0
  tail := 0
  t15 := 0
  t35 := 0
  cnt := 0
  gap := false
  sil := false
  run := false
  rxen := false
  buf := []
  pos := 0
  phase := .idle
  stopSil := false
  emptied := false
  session := .init
  txBusy := false
  cfg := Config.vectors
  inputs := []
  crcAcc := 0xFFFF
  result := .none
  owed := 0
  answered := false
  drops := []
  outputs := []

end Sys2Proof.Machine
end

