-- ==== Sys2Proof/Machine/Ops.lean ====
section
/-!
DEFINITION. The named operations over the two storage spaces, the registers and the observations (R14, R16, R60), and the
one operation that stands in the place of taking an exception: recording a drop event (R15, R240). The core has no trap,
saves nothing on an interrupt and restores nothing after one (R240, R249, R250), so there is nothing else to take or to
return from: a handler is one whole operation.
-/

namespace Sys2Proof.Machine

/-- Sequencing: go on with the value, keep a fault or a refusal. -/
def andThen {α β : Type} (o : Answer α) (k : α → Answer β) : Answer β :=
  match o with
  | .next a => k a
  | .fault r => .fault r
  | .refused r => .refused r

/-! ## Storage -/

/-- The canonical form: indices strictly rising. No listed element equals an unlisted one, which holds no value. -/
abbrev Memory.wf {w : Nat} (m : Memory w) : Prop := m.Pairwise (fun a b => a.1 < b.1)

/-- The element at index `a`, or no value. -/
def memRead {w : Nat} : Memory w → Nat → Option (BitVec w)
  | [], _ => none
  | (b, v) :: m, a => if a = b then some v else memRead m a

/-- `x[a] <- v`, keeping the canonical form. -/
def memWrite {w : Nat} : Memory w → Nat → BitVec w → Memory w
  | [], a, v => [(a, v)]
  | (b, u) :: m, a, v =>
    if a < b then (a, v) :: (b, u) :: m
    else if a = b then (a, v) :: m
    else (b, u) :: memWrite m a v

/-- `SLOT[i]`, that is `MemRead(Q, i, 1)` (R14). -/
def slotRead (s : State) (i : Nat) : Answer Slot :=
  if i < s.cfg.n then
    match memRead s.slot i with
    | some v => .next v
    | none => .fault .slotUnwritten
  else .fault .slotIndexOutOfRange

/-- `SLOT[i] <- v`, that is `MemWrite(Q, i, 1, v)` (R14). -/
def slotWrite (s : State) (i : Nat) (v : Slot) : Answer State :=
  if i < s.cfg.n then .next { s with slot := memWrite s.slot i v } else .fault .slotIndexOutOfRange

/-- `BUF[i]`, that is `MemRead(B, i, 1)` (R14). -/
def bufRead (s : State) (i : Nat) : Answer Byte :=
  if i < s.cfg.aduMax then
    match memRead s.buf i with
    | some v => .next v
    | none => .fault .bufUnwritten
  else .fault .bufIndexOutOfRange

/-- `BUF[i] <- v`, that is `MemWrite(B, i, 1, v)` (R14). -/
def bufWrite (s : State) (i : Nat) (v : Byte) : Answer State :=
  if i < s.cfg.aduMax then .next { s with buf := memWrite s.buf i v } else .fault .bufIndexOutOfRange

/-- `MemRead(B, i, k)`: `k` consecutive bytes from index `i` (R14). -/
def bufRange (s : State) : Nat → Nat → Answer (List Byte)
  | _, 0 => .next []
  | i, k + 1 => andThen (bufRead s i) fun b => andThen (bufRange s (i + 1) k) fun bs => .next (b :: bs)

/-- The candidate `BUF[0 .. POS-1]` (R33). -/
def candidate (s : State) : Answer (List Byte) := bufRange s 0 s.pos

/-! ## Ring indices -/

/-- `next(i)` of R16: wrap by comparison with `N`, never by masking. -/
def ringNext (n i : Nat) : Nat := if i + 1 = n then 0 else i + 1

/-- `dist(a, b) = (a - b) mod N` of R16, computed as R126 says. -/
def ringDist (n a b : Nat) : Nat := if b ≤ a then a - b else a + n - b

/-- The `k` indices from `i` on, by `next`. -/
def ringIndices (n : Nat) : Nat → Nat → List Nat
  | _, 0 => []
  | i, k + 1 => i :: ringIndices n (ringNext n i) k

/-! ## Observations -/

/-- `raise <Event>(info)`: recorded, and nothing else (R15). -/
def raiseDrop (e : DropEvent) (s : State) : State := { s with drops := s.drops ++ [e] }

/-- An output event of R41. -/
def emitOutput (o : Output) (s : State) : State := { s with outputs := s.outputs ++ [o] }

/-- The result of an operation, handed to its caller (R14). -/
def returnResult (r : OpResult) (s : State) : State := { s with result := r }

/-! ## The queue (R120 to R127) -/

/-- The number of stored elements, `dist(HEAD, TAIL)` (R125). -/
def queueCount (s : State) : Nat := ringDist s.cfg.n s.head s.tail

/-- The number of elements that still fit (R124). -/
def queueFree (s : State) : Nat := (s.cfg.n - 1) - queueCount s

/-- The indices of the stored elements, oldest first (R25 I3). -/
def storedIndices (s : State) : List Nat := ringIndices s.cfg.n s.tail (queueCount s)

/-- The body of `Q.INIT` (R120). -/
def resetQueue (s : State) : State := { s with head := 0, tail := 0 }

/-- The body of `Q.ENQ` (R121): the slot is written before `HEAD` moves (R72). -/
def enqueue (item : Slot) (s : State) : Answer (State × Bool) :=
  if ringNext s.cfg.n s.head = s.tail then .next (raiseDrop (.qFull item) s, false)
  else andThen (slotWrite s s.head item) fun s1 => .next ({ s1 with head := ringNext s1.cfg.n s1.head }, true)

/-- The body of `Q.DEQ` (R122): the slot is read before `TAIL` moves (R72). -/
def dequeue (s : State) : Answer (State × Option Slot) :=
  if s.head = s.tail then .next (s, none)
  else andThen (slotRead s s.tail) fun item => .next ({ s with tail := ringNext s.cfg.n s.tail }, some item)

/-- The body of `Q.PEEK` (R123). -/
def peek (s : State) : Answer (Option Slot) :=
  if s.head = s.tail then .next none
  else andThen (slotRead s s.tail) fun item => .next (some item)

/-- The loop of `Q.ITER` (R127) from index `i`, at most `fuel` elements. -/
def walkQueue (s : State) : Nat → Nat → Answer (List Slot)
  | 0, i => if i = s.head then .next [] else .fault .divergent
  | fuel + 1, i =>
    if i = s.head then .next []
    else andThen (slotRead s i) fun v => andThen (walkQueue s fuel (ringNext s.cfg.n i)) fun vs => .next (v :: vs)

/-! ## The poll agent -/

/-- R103: a micro-step word whose operation `PHASE` does not select is refused. -/
def requirePhase (p : Phase) (s : State) (next : Answer State) : Answer State :=
  if s.phase = p then next else .refused .phaseMismatch

end Sys2Proof.Machine
end

