-- ==== Sys2Proof/Machine/Operands.lean ====
section
/-!
DEFINITION. The operand forms: the fields of a TaggedByte (R90), the CRC trailer (R94) and the codes of the sequencing
registers (R95) and of the drop events (R240).
-/

namespace Sys2Proof.Machine

/-- `value`, bits 7:0 of a slot value (R90). -/
def slotValue (v : Slot) : Byte := v.extractLsb' 0 8

/-- `gap_elapsed`, bit 8 (R90). -/
def slotGap (v : Slot) : Bool := v.getLsbD 8

/-- `silence_elapsed`, bit 9 (R90). -/
def slotSil (v : Slot) : Bool := v.getLsbD 9

/-- The 10-bit slot value `{s, g, v}` (R90, R144). -/
def packSlot (sil gap : Bool) (value : Byte) : Slot := BitVec.ofBool sil ++ (BitVec.ofBool gap ++ value)

/-- `{hi, lo}`: a u16 from two bytes (R94). -/
def packBytes (hi lo : Byte) : CrcWord := hi ++ lo

/-- The trailer of a CRC, low byte first (R62, R91). -/
def trailerBytes (c : CrcWord) : List Byte := [c.extractLsb' 0 8, c.extractLsb' 8 8]

/-- The code of `PHASE` (R95). -/
def phaseCode : Phase → BitVec 3
  | .idle => 0
  | .scan => 1
  | .decision => 2
  | .check => 3
  | .addrMatch => 4
  | .dispatch => 5

/-- The code of `STATE` (R95). -/
def sessionCode : Session → BitVec 2
  | .init => 0
  | .receive => 1
  | .sendWait => 2

/-- The code of a drop event (R240). -/
def dropCode : DropEvent → Nat
  | .qFull _ => 1
  | .bufOvf _ => 2
  | .short _ => 3
  | .crc _ => 4
  | .addr _ => 5
  | .txRefused => 6

end Sys2Proof.Machine
end

