-- ==== Sys2Proof/Machine/Flags.lean ====
section
/-!
DEFINITION. The flag computations: the thresholds (R141), the timer's two sticky flags (R142, R145), the two flags of the
scan loop and the completion condition (R160, R162), and what makes a configuration legal (R9).
-/

namespace Sys2Proof.Machine

/-! ## Thresholds and configuration -/

/-- `ceil(a / b)` on exact rationals. -/
def ceilDiv (a b : Nat) : Nat := (a + b - 1) / b

/-- `frame_bits` of R141; the 1 is the start bit. -/
def frameBits (dataBits : Nat) (parityEn : Bool) (stopBits : Nat) : Nat := 1 + dataBits + parityEn.toNat + stopBits

/-- `T15` and `T35` of R141, one rounding up each; none where a serial or timer parameter that R9 says is a positive
integer is 0 (R141 corner case b; log 16). -/
def thresholds : Timing → Option (Nat × Nat)
  | .direct t15 t35 => some (t15, t35)
  | .serial baud dataBits parityEn stopBits fTick =>
    if baud = 0 ∨ dataBits = 0 ∨ stopBits = 0 ∨ fTick = 0 then none
    else
      some (ceilDiv (3 * frameBits dataBits parityEn stopBits * fTick) (2 * baud),
        ceilDiv (7 * frameBits dataBits parityEn stopBits * fTick) (2 * baud))

/-- `0 < T15 < T35 <= 2^W_T - 1` (R9, R141). -/
def thresholdsFit (wT t15 t35 : Nat) : Bool := decide (0 < t15 ∧ t15 < t35 ∧ t35 ≤ 2 ^ wT - 1)

/-- The constraint of R9 on every configuration. -/
def configLegal (c : Config) : Bool :=
  decide (2 ≤ c.n) && decide (2 ≤ c.aduMax) &&
    match thresholds c.timing with
    | some (t15, t35) => thresholdsFit c.wT t15 t35
    | none => false

/-- A transaction is under way: `SLAVE_ADDR` must be stable (R75). -/
def inTransaction (s : State) : Bool := decide (s.phase ≠ .idle ∨ s.session = .sendWait)

/-- A change of the configuration inputs (R75; log 15): inside a transaction a change of `SLAVE_ADDR` is refused. The serial
and timer parameters are not seen after `CTC.INIT`: the registers `T15` and `T35` keep their values. -/
def reconfigure (timing : Timing) (slaveAddr : Byte) (s : State) : Answer State :=
  let c := { s.cfg with timing := timing, slaveAddr := slaveAddr }
  if slaveAddr ≠ s.cfg.slaveAddr ∧ inTransaction s = true then .refused .configChangedInTransaction
  else if configLegal c then .next { s with cfg := c }
  else .refused .illegalConfiguration

/-! ## The timer -/

/-- The body of `CTC.RESTART` (R145): the only place either flag is cleared. -/
def restartTimer (s : State) : State := { s with cnt := 0, gap := false, sil := false }

/-- One tick (R142). `CNT` is a `W_T`-bit register, so its increment wraps (log 6). -/
def timerTick (s : State) : State :=
  if s.run then
    let c := (s.cnt + 1) % 2 ^ s.cfg.wT
    { s with
      cnt := if c = s.t35 then 0 else c
      gap := s.gap || decide (c = s.t15)
      sil := s.sil || decide (c = s.t35) }
  else s

/-- `k` successive single ticks (R142). -/
def timerTicks : Nat → State → State
  | 0, s => s
  | k + 1, s => timerTicks k (timerTick s)

/-- The body of `CTC.INIT` (R141). -/
def startTimer (s : State) : Answer State :=
  match thresholds s.cfg.timing with
  | some (t15, t35) =>
    if thresholdsFit s.cfg.wT t15 t35 then .next (restartTimer { s with t15 := t15, t35 := t35, run := true })
    else .refused .illegalConfiguration
  | none => .refused .illegalConfiguration

/-! ## The scan loop -/

/-- The body of `FA.BEGIN` (R160). -/
def beginPass (s : State) : State := { s with stopSil := false, emptied := false, phase := .scan }

/-- The body of `FA.CLEAR` (R165): `BUF` keeps its contents. -/
def clearCandidate (s : State) : State := { s with pos := 0 }

/-- `complete` of R162, with the live `SIL` read by `CTC.SILNOW`. -/
def frameComplete (s : State) : Bool := (s.stopSil || (s.emptied && s.sil)) && decide (s.pos ≠ 0)

end Sys2Proof.Machine
end

