-- ==== Sys2Proof/Machine/Queue.lean ====
section
/-!
DEFINITION. The typed ring queue (41_ring_queue.md R120 to R127).
-/

namespace Sys2Proof.Machine

/-- `Q.INIT`, R120. -/
def execQInit (s : State) : Answer State := .next (resetQueue s)

/-- `Q.ENQ item`, R121; the result is `ok`. -/
def execQEnq (item : Slot) (s : State) : Answer State :=
  andThen (enqueue item s) fun r => .next (returnResult (.bit r.2) r.1)

/-- `Q.DEQ`, R122. -/
def execQDeq (s : State) : Answer State :=
  andThen (dequeue s) fun r => .next (returnResult (.item r.2) r.1)

/-- `Q.PEEK`, R123. -/
def execQPeek (s : State) : Answer State :=
  andThen (peek s) fun v => .next (returnResult (.item v) s)

/-- `Q.FREE`, R124. -/
def execQFree (s : State) : Answer State := .next (returnResult (.count (queueFree s)) s)

/-- `Q.COUNT`, R125. -/
def execQCount (s : State) : Answer State := .next (returnResult (.count (queueCount s)) s)

/-- `Q.ITER`, R127: the whole walk is one step; it visits at most `N` slots. -/
def execQIter (s : State) : Answer State :=
  andThen (walkQueue s s.cfg.n s.tail) fun vs => .next (returnResult (.items vs) s)

end Sys2Proof.Machine
end

