-- ==== Sys2Proof/Machine/Crc.lean ====
section
/-!
DEFINITION. The CRC16 Modbus validator (44_crc16.md R180 to R183).
-/

namespace Sys2Proof.Machine

/-- The initial accumulator (R180). -/
def crcInitial : CrcWord := 0xFFFF

/-- One of the eight shifts of R181. -/
def crcShift (c : CrcWord) : CrcWord := if c.getLsbD 0 then (c >>> 1) ^^^ 0xA001 else c >>> 1

/-- `k` shifts. -/
def crcShifts : Nat → CrcWord → CrcWord
  | 0, c => c
  | k + 1, c => crcShifts k (crcShift c)

/-- `CRC.BYTE(c, b)` (R181). -/
def crcUpdate (c : CrcWord) (b : Byte) : CrcWord := crcShifts 8 (c ^^^ b.setWidth 16)

/-- The loop of `CRC.BLOCK` from an accumulator. -/
def crcOver : CrcWord → List Byte → CrcWord
  | c, [] => c
  | c, b :: bs => crcOver (crcUpdate c b) bs

/-- `CRC.BLOCK(d)` (R182). -/
def crcOf (d : List Byte) : CrcWord := crcOver crcInitial d

/-- `crc_rx` of R94: the last two bytes of a frame, `f[L-2]` the low one; none for fewer than two bytes. -/
def crcReceived : List Byte → Option CrcWord
  | [] => none
  | [_] => none
  | [lo, hi] => some (packBytes hi lo)
  | _ :: b :: c :: f => crcReceived (b :: c :: f)

/-- `CRC.VERIFY(f)` (R183); a frame of fewer than two bytes is no legal operand and is never good. -/
def crcGood (f : List Byte) : Bool := decide (crcReceived f = some (crcOf (f.take (f.length - 2))))

/-- `CRC.RESET`, R180. -/
def execCrcReset (s : State) : Answer State :=
  .next (returnResult (.crc crcInitial) { s with crcAcc := crcInitial })

/-- `CRC.BYTE b`, R181; the accumulator is the result of the previous `CRC.RESET` or `CRC.BYTE` (log 7). -/
def execCrcByte (b : Byte) (s : State) : Answer State :=
  .next (returnResult (.crc (crcUpdate s.crcAcc b)) { s with crcAcc := crcUpdate s.crcAcc b })

/-- `CRC.BLOCK`, R182, over the candidate (log 14). -/
def execCrcBlock (s : State) : Answer State :=
  andThen (candidate s) fun d => .next (returnResult (.crc (crcOf d)) s)

/-- `CRC.VERIFY`, R183, over the candidate; fewer than two bytes are not a legal operand (log 14). -/
def execCrcVerify (s : State) : Answer State :=
  if s.pos < 2 then .refused .shortOperand
  else andThen (candidate s) fun f => .next (returnResult (.bit (crcGood f)) s)

end Sys2Proof.Machine
end

