-- ==== Sys2Proof/Machine/Assembler.lean ====
section
/-!
DEFINITION. The frame-assembler (43_frame_assembler.md R160 to R166).
-/

namespace Sys2Proof.Machine

/-- Step 2's append (R161): a byte that finds the buffer full is discarded. -/
def appendByte (b : Byte) (s : State) : Answer State :=
  if s.pos < s.cfg.aduMax then andThen (bufWrite s s.pos b) fun s1 => .next { s1 with pos := s1.pos + 1 }
  else .next (raiseDrop (.bufOvf b) s)

/-- The body of `FA.SCAN` (R161). -/
def scanStep (s : State) : Answer State :=
  andThen (peek s) fun front =>
    match front with
    | none => .next { s with emptied := true, phase := .decision }
    | some f =>
      if slotSil f = true ∧ s.pos ≠ 0 then .next { s with stopSil := true, phase := .decision }
      else andThen (dequeue s) fun r => appendByte (slotValue f) r.1

/-- The body of `FA.DECIDE` (R162). -/
def decideStep (s : State) : State := { s with phase := if frameComplete s then .check else .idle }

/-- The body of `FA.CHECK` (R163). -/
def checkStep (s : State) : Answer State :=
  if s.pos < 2 then .next { clearCandidate (raiseDrop (.short s.pos) s) with phase := .idle }
  else
    andThen (candidate s) fun f =>
      if crcGood f then .next { s with phase := .addrMatch }
      else .next { clearCandidate (raiseDrop (.crc s.pos) s) with phase := .idle }

/-- `FA.SCAN` repeated while `PHASE = SCAN` (R166), at most `fuel` times. -/
def scanLoop : Nat → State → Answer State
  | 0, s => if s.phase = .scan then .fault .divergent else .next s
  | fuel + 1, s => if s.phase = .scan then andThen (scanStep s) (scanLoop fuel) else .next s

/-- `FA.BEGIN`, R160. -/
def execFaBegin (s : State) : Answer State := .next (beginPass s)

/-- `FA.SCAN`, R161. -/
def execFaScan (s : State) : Answer State := requirePhase .scan s (scanStep s)

/-- `FA.DECIDE`, R162. -/
def execFaDecide (s : State) : Answer State := requirePhase .decision s (.next (decideStep s))

/-- `FA.CHECK`, R163. -/
def execFaCheck (s : State) : Answer State := requirePhase .check s (checkStep s)

/-- `FA.CLEAR`, R165. -/
def execFaClear (s : State) : Answer State := .next (clearCandidate s)

/-- `FA.POLL`, R166: `FA.BEGIN`, `FA.SCAN` while `PHASE = SCAN`, `FA.DECIDE`, `FA.CHECK` if `PHASE = CHECK`; the result is
`frame` if it ends with `PHASE = MATCH`. At most `N - 1` elements are stored, so `N` scans suffice. -/
def execFaPoll (s : State) : Answer State :=
  andThen (scanLoop s.cfg.n (beginPass s)) fun s1 =>
    let s2 := decideStep s1
    andThen (if s2.phase = .check then checkStep s2 else .next s2) fun s3 =>
      .next (returnResult (.pass (decide (s3.phase = .addrMatch))) s3)

end Sys2Proof.Machine
end

