-- ==== Sys2Proof/Machine/Session.lean ====
section
/-!
DEFINITION. The session state machine (46_session_state_machine.md R220 to R229).
-/

namespace Sys2Proof.Machine

/-- The body of `SSM.INIT` (R221), in its order. -/
def initSession (s : State) : Answer State :=
  andThen (startTimer { clearCandidate (resetQueue s) with txBusy := false }) fun s1 =>
    .next { s1 with rxen := true, session := .receive }

/-- The body of `SSM.POLL` (R222). -/
def pollStep (s : State) : Answer State :=
  match s.session with
  | .init => initSession s
  | .receive => .next (beginPass s)
  | .sendWait =>
    if s.txBusy then .next s
    else .next { emitOutput .clearOutputBuffer (clearCandidate s) with session := .receive }

/-- The body of `SSM.MATCH` (R224). -/
def matchStep (s : State) : Answer State :=
  andThen (bufRead s 0) fun first =>
    if first ≠ s.cfg.slaveAddr then .next { clearCandidate (raiseDrop (.addr first) s) with phase := .idle }
    else andThen (candidate s) fun frame => .next { emitOutput (.dispatchRequest frame) s with phase := .dispatch }

/-- The body of `SSM.RESPOND started` (R225). -/
def respondStep (started : Bool) (s : State) : State :=
  if started then { s with txBusy := true, session := .sendWait, phase := .idle }
  else { raiseDrop .txRefused s with phase := .idle }

/-- The micro-step `PHASE` selects (R103); at DISPATCH it needs the responder's answer. -/
def microStep (s : State) : Answer State :=
  match s.phase with
  | .idle => pollStep s
  | .scan => scanStep s
  | .decision => .next (decideStep s)
  | .check => checkStep s
  | .addrMatch => matchStep s
  | .dispatch => .refused .answerMissing

/-- Micro-steps until after one `PHASE` is IDLE or DISPATCH (R229), at most `fuel`. -/
def runPass : Nat → State → Answer State
  | 0, _ => .fault .divergent
  | fuel + 1, s =>
    andThen (microStep s) fun s1 => if s1.phase = .idle ∨ s1.phase = .dispatch then .next s1 else runPass fuel s1

/-- `SSM.POLL`, R222. -/
def execSsmPoll (s : State) : Answer State := requirePhase .idle s (pollStep s)

/-- `SSM.INIT`, R221. -/
def execSsmInit (s : State) : Answer State := initSession s

/-- `SSM.MATCH`, R224. -/
def execSsmMatch (s : State) : Answer State := requirePhase .addrMatch s (matchStep s)

/-- `SSM.RESPOND started`, R225. -/
def execSsmRespond (started : Bool) (s : State) : Answer State :=
  requirePhase .dispatch s (.next (respondStep started s))

/-- `SSM.TXDONE`, R228. -/
def execSsmTxdone (s : State) : Answer State := .next { s with txBusy := false }

/-- `SSM.RUN`, R229. A pass is `SSM.POLL`, at most `N` scans, `FA.DECIDE`, `FA.CHECK` and `SSM.MATCH`. -/
def execSsmRun (s : State) : Answer State := runPass (s.cfg.n + 4) s

end Sys2Proof.Machine
end

