-- ==== Sys2Proof/Machine/System.lean ====
section
/-!
DEFINITION. `SYS.RESET` (70_reset_and_hazards.md R270).
-/

namespace Sys2Proof.Machine

/-- `SYS.RESET`, R270: every register of R20 at its reset value, both arrays without values; `T15` and `T35` take the value
log 4 names. The inputs and the observations are no state of the core and stay (log 9), and so does what the transport owes:
its own state is not the core's concern (R270 corner case a; log 25). -/
def execSysReset (s : State) : Answer State :=
  .next
    { s with
      session := .init, phase := .idle, txBusy := false
      head := 0, tail := 0, pos := 0
      cnt := 0, gap := false, sil := false
      run := false, rxen := false, stopSil := false, emptied := false
      slot := [], buf := [], t15 := 0, t35 := 0 }

end Sys2Proof.Machine
end

