-- ==== Sys2Proof/Machine/Timer.lean ====
section
/-!
DEFINITION. The character-timing-classifier (42_timing_classifier.md R141 to R146).
-/

namespace Sys2Proof.Machine

/-- `CTC.INIT`, R141. -/
def execCtcInit (s : State) : Answer State := startTimer s

/-- `CTC.TICK k`, R142; `k = 0` is reserved (R101). -/
def execCtcTick (k : BitVec 16) (s : State) : Answer State :=
  if k = 0 then .refused .zeroTicks else .next (timerTicks k.toNat s)

/-- `CTC.RX v`, R144: one indivisible step (R73). The flags are read first, the restart is unconditional, and the enqueue's
result is not reported. -/
def execCtcRx (v : Byte) (s : State) : Answer State :=
  if s.rxen then
    let item := packSlot s.sil s.gap v
    andThen (enqueue item (restartTimer s)) fun r => .next r.1
  else .next s

/-- `CTC.SILNOW`, R146: the live `SIL`. -/
def execCtcSilnow (s : State) : Answer State := .next (returnResult (.bit s.sil) s)

/-- `CTC.RESTART`, R145. -/
def execCtcRestart (s : State) : Answer State := .next (restartTimer s)

end Sys2Proof.Machine
end

