-- ==== Sys2Proof/Machine/Dispatch.lean ====
section
/-! DEFINITION. The dispatch of an operation to its meaning: one arm per constructor of Instr. -/

namespace Sys2Proof.Machine

def exec (i : Instr) (s : State) : Host.Outcome State Fault Refusal :=
  match i with
  | .sysReset => Sys2Proof.Machine.execSysReset s
  | .qInit => Sys2Proof.Machine.execQInit s
  | .qEnq item => Sys2Proof.Machine.execQEnq item s
  | .qDeq => Sys2Proof.Machine.execQDeq s
  | .qPeek => Sys2Proof.Machine.execQPeek s
  | .qFree => Sys2Proof.Machine.execQFree s
  | .qCount => Sys2Proof.Machine.execQCount s
  | .qIter => Sys2Proof.Machine.execQIter s
  | .ctcInit => Sys2Proof.Machine.execCtcInit s
  | .ctcTick k => Sys2Proof.Machine.execCtcTick k s
  | .ctcRx v => Sys2Proof.Machine.execCtcRx v s
  | .ctcSilnow => Sys2Proof.Machine.execCtcSilnow s
  | .ctcRestart => Sys2Proof.Machine.execCtcRestart s
  | .faBegin => Sys2Proof.Machine.execFaBegin s
  | .faScan => Sys2Proof.Machine.execFaScan s
  | .faDecide => Sys2Proof.Machine.execFaDecide s
  | .faCheck => Sys2Proof.Machine.execFaCheck s
  | .faClear => Sys2Proof.Machine.execFaClear s
  | .faPoll => Sys2Proof.Machine.execFaPoll s
  | .crcReset => Sys2Proof.Machine.execCrcReset s
  | .crcByte b => Sys2Proof.Machine.execCrcByte b s
  | .crcBlock => Sys2Proof.Machine.execCrcBlock s
  | .crcVerify => Sys2Proof.Machine.execCrcVerify s
  | .ssmPoll => Sys2Proof.Machine.execSsmPoll s
  | .ssmInit => Sys2Proof.Machine.execSsmInit s
  | .ssmMatch => Sys2Proof.Machine.execSsmMatch s
  | .ssmRespond started => Sys2Proof.Machine.execSsmRespond started s
  | .ssmTxdone => Sys2Proof.Machine.execSsmTxdone s
  | .ssmRun => Sys2Proof.Machine.execSsmRun s

end Sys2Proof.Machine
end

