-- ==== Sys2Proof/Machine/Environment.lean ====
section
/-!
DEFINITION. What the core assumes of its environment (R191), and performing an operation under it. R246 refuses an environment
that breaks R191. (A1) and (A4) hold by construction, since no event writes a register or raises an exception. An operation
against (A2) has no effect of its own and is refused here. An interrupt against (A3) has the effect R228 corner case b and R271
state, so the operation is performed; the execution it belongs to is refused in Machine/Admitted.lean.
-/

namespace Sys2Proof.Machine

/-- The operations of the poll agent's own, by the column "agent" of R102, but for its micro-steps and `SSM.RUN`, which `PHASE`
already governs (R103). -/
def pollAgentOnly (i : Instr) : Bool := decide (i.agents = [.poll] ∧ i.kind ≠ .microStep ∧ i ≠ .ssmRun)

/-- (A2) of R191: the poll agent takes a step between the dispatch request and the answer. -/
def breaksA2 (i : Instr) (s : State) : Bool := decide (s.phase = .dispatch) && pollAgentOnly i

/-- (A3) of R191: after an answer, a transmit-complete interrupt that no transmission awaits. Whenever the environment owes
nothing `TX_BUSY` is 0 (log 18). -/
def breaksA3 (i : Instr) (s : State) : Bool := decide (i = .ssmTxdone ∧ s.answered = true ∧ s.owed = 0)

/-- What the transport owes after an operation (R191 A3): one interrupt more for each transmission started, one fewer for each
interrupt. The count is of transmissions, so a reset or a later answer forgives none (DESIGN CHOICE, log 25). -/
def owedAfter (i : Instr) (owed : Nat) : Nat :=
  if i = .ssmRespond true then owed + 1 else if i = .ssmTxdone then owed - 1 else owed

/-- Whether an answer has been given, after an operation. -/
def answeredAfter (i : Instr) (answered : Bool) : Bool :=
  answered || decide (i = .ssmRespond true ∨ i = .ssmRespond false)

/-- The operation the environment delivers: refused where that breaks (A2) of R191 (R246, log 25), else performed, and the
record of the environment kept. -/
def perform (i : Instr) (s : State) : Answer State :=
  if breaksA2 i s then .refused .environmentBroken
  else andThen (exec i s) fun t =>
    .next { t with owed := owedAfter i t.owed, answered := answeredAfter i t.answered }

end Sys2Proof.Machine
end

