-- ==== Sys2Proof/Machine/Fetch.lean ====
section
/-!
DEFINITION. Placing an operation word as the machine's next event.
-/

namespace Sys2Proof.Machine

/-- R103: the value of `PHASE` at which a micro-step word is enabled; none for the other operations. -/
def selectedBy : Instr → Option Phase
  | .ssmPoll => some .idle
  | .faScan => some .scan
  | .faDecide => some .decision
  | .faCheck => some .check
  | .ssmMatch => some .addrMatch
  | .ssmRespond _ => some .dispatch
  | .sysReset | .qInit | .qEnq _ | .qDeq | .qPeek | .qFree | .qCount | .qIter => none
  | .ctcInit | .ctcTick _ | .ctcRx _ | .ctcSilnow | .ctcRestart => none
  | .faBegin | .faClear | .faPoll | .crcReset | .crcByte _ | .crcBlock | .crcVerify => none
  | .ssmInit | .ssmTxdone | .ssmRun => none

/-- `s` with the word numbered `w` as its next event, and `PHASE` as R103 asks for that word (log 2). -/
def fetchWord (s : State) (nbits w : Nat) : State :=
  let word : OpWord := BitVec.ofNat 24 (w % 2 ^ nbits)
  let s1 := { s with inputs := .word word :: s.inputs }
  match decode word with
  | .ok i =>
    match selectedBy i with
    | some p => { s1 with phase := p }
    | none => s1
  | .error _ => s1

end Sys2Proof.Machine
end

