-- ==== Sys2Proof/Machine/Step.lean ====
section
/-!
DEFINITION. One step of the machine: the next event of the environment is taken and performed as one indivisible step
(R70). Everything it calls is in the files it imports.
-/

namespace Sys2Proof.Machine

/-- One step. A configuration that breaks R9 has no meaning; with no event left nothing happens (R275; log 1); a
`configure` event is R75; a word is decoded and its operation performed, unless the environment breaks (A2) of R191 with it. -/
def step (s : State) : Host.Outcome State Fault Refusal :=
  if configLegal s.cfg = false then .refused .illegalConfiguration
  else
    match s.inputs with
    | [] => .next s
    | .configure timing slaveAddr :: rest => reconfigure timing slaveAddr { s with inputs := rest }
    | .word w :: rest =>
      match decode w with
      | .ok i => perform i { s with inputs := rest }
      | .error why => .refused (.illegalWord why)

/-- The host's probe: the word of the table's number `w` as the next event (log 2). A micro-step word runs only where
`PHASE` selects it (R103), so `PHASE`, the poll agent's program counter (R34), is set to select it. -/
def State.withFetchWord (s : State) (nbits w : Nat) : State := fetchWord s nbits w

end Sys2Proof.Machine
end

