-- ==== Sys2Proof/Machine/Admitted.lean ====
section
/-!
DEFINITION. The executions R246 gives a meaning to: steps of an environment that keeps (A3) of R191 too. An interrupt against
(A3) has an effect as an operation (R228 corner case b, R271; `step`), while the environment that delivers it is refused (R246;
`admittedStep`): log 18.
-/

namespace Sys2Proof.Machine

/-- The operation the next event delivers, if it delivers one. -/
def nextOperation (s : State) : Option Instr :=
  match s.inputs with
  | [] => none
  | .configure _ _ :: _ => none
  | .word w :: _ =>
    match decode w with
    | .ok i => some i
    | .error _ => none

/-- A step of an environment that keeps R191; any other is refused (R246). -/
def admittedStep (s : State) : Answer State :=
  match nextOperation s with
  | some i => if breaksA3 i s then .refused .environmentBroken else step s
  | none => step s

/-- An execution of `n` steps; one whose environment breaks R191 is refused (R246). -/
def admittedRun : Nat → State → Answer State
  | 0, s => .next s
  | n + 1, s => andThen (admittedStep s) (admittedRun n)

end Sys2Proof.Machine
end

