-- ==== Sys2Proof/Machine/Frame.lean ====
section
/-!
DEFINITION. The wire format: the views of a complete ADU (R91, R92), and what crosses the responder's interface: the
exception codes (R192), an exception response (R93) and a built response (R93, R205). The core decodes none of it; the
responder's inside is outside the model (R6).
-/

namespace Sys2Proof.Machine

/-- Index 0 of an ADU: the slave address (R91). -/
def aduAddress (f : List Byte) : Option Byte := f[0]?

/-- `f[0 .. L-3]`: the bytes the CRC covers (R91, R183). -/
def aduCovered (f : List Byte) : List Byte := f.take (f.length - 2)

/-- `f[1 .. L-3]`: the request PDU (R92, R190). -/
def aduPdu (f : List Byte) : List Byte := (aduCovered f).drop 1

/-- The function code: index 1 of an ADU (R91), the first byte of its PDU (R92). R91's table does not say what it is where the PDU
is empty, in the candidates of 2 and 3 bytes that U6 and R291 admit: none, since index 1 is a trailer byte there. DESIGN CHOICE,
log 24. -/
def aduFunctionCode (f : List Byte) : Option Byte := (aduPdu f).head?

/-- `f[2 .. L-3]`: the payload (R91). -/
def aduPayload (f : List Byte) : List Byte := (aduPdu f).drop 1

/-- The closed enumeration of R192. -/
inductive ExceptionCode where
  /-- 0x00. -/
  | ok
  /-- 0x01. -/
  | illegalFunction
  /-- 0x02. -/
  | illegalDataAddress
  /-- 0x03. -/
  | illegalDataValue
  /-- 0x04. -/
  | slaveDeviceFailure
  /-- 0x05. -/
  | acknowledge
  /-- 0x06. -/
  | slaveDeviceBusy
  /-- 0x08. -/
  | memoryParityError
  /-- 0x0A. -/
  | gatewayPathUnavailable
  /-- 0x0B. -/
  | gatewayTargetFailedResp
  /-- 0xFF, never transmitted. -/
  | unknown
  deriving DecidableEq, Repr

/-- The value of an exception code (R192). -/
def exceptionByte : ExceptionCode → Byte
  | .ok => 0x00
  | .illegalFunction => 0x01
  | .illegalDataAddress => 0x02
  | .illegalDataValue => 0x03
  | .slaveDeviceFailure => 0x04
  | .acknowledge => 0x05
  | .slaveDeviceBusy => 0x06
  | .memoryParityError => 0x08
  | .gatewayPathUnavailable => 0x0A
  | .gatewayTargetFailedResp => 0x0B
  | .unknown => 0xFF

/-- An exception response PDU (R93, R203). -/
def exceptionPdu (functionCode : Byte) (e : ExceptionCode) : List Byte := [functionCode ||| 0x80, exceptionByte e]

/-- A response ADU in a destination of `capacity` bytes; none where it does not fit (R93, R205). -/
def buildFrame (capacity : Nat) (slaveAddr : Byte) (pdu : List Byte) : Option (List Byte) :=
  if 1 + pdu.length + 2 ≤ capacity then some (slaveAddr :: pdu ++ trailerBytes (crcOf (slaveAddr :: pdu))) else none

end Sys2Proof.Machine
end

