-- ==== Sys2Proof/Safety.lean ====
section
/-!
DEFINITION. What a good state is: the queue and buffer invariants (R25, R33) and the global invariants (R40), with what
the pass carries from one micro-step to the next, in the words statements use.
-/

namespace Sys2Proof.Machine

/-- The queue holds exactly the elements `l`, oldest first (R25 I3). -/
def Represents (s : State) (l : List Slot) : Prop := (storedIndices s).map (memRead s.slot) = l.map some

/-- The buffer holds the bytes `f` at indices 0, 1, ... (R33). -/
def Buffered (s : State) (f : List Byte) : Prop := ∀ i, i < f.length → memRead s.buf i = f[i]?

/-- The timer flags of `e` elapsed ticks since the last restart (R143). -/
def Elapsed (s : State) (e : Nat) : Prop :=
  s.cnt = e % s.t35 ∧ s.gap = decide (s.t15 ≤ e) ∧ s.sil = decide (s.t35 ≤ e)

/-- The shape of the storage and the registers, which every operation keeps: R25, R33, the widths of R20, and a legal
configuration (R9). -/
structure Wf (s : State) : Prop where
  /-- R9. -/
  legal : configLegal s.cfg = true
  /-- `SLOT` is in canonical form. -/
  slotCanonical : Memory.wf s.slot
  /-- `SLOT` has the indices `0..N-1`. -/
  slotIndices : ∀ e ∈ s.slot, e.1 < s.cfg.n
  /-- `BUF` is in canonical form. -/
  bufCanonical : Memory.wf s.buf
  /-- `BUF` has the indices `0..ADU_MAX-1`. -/
  bufIndices : ∀ e ∈ s.buf, e.1 < s.cfg.aduMax
  /-- R23. -/
  headRange : s.head < s.cfg.n
  /-- R24. -/
  tailRange : s.tail < s.cfg.n
  /-- R25 I4: every stored slot has been written. -/
  storedWritten : ∀ i ∈ storedIndices s, memRead s.slot i ≠ none
  /-- R33, R40 G2. -/
  posRange : s.pos ≤ s.cfg.aduMax
  /-- R33: the valid bytes have been written. -/
  candidateWritten : ∀ i, i < s.pos → memRead s.buf i ≠ none
  /-- `T15`, `T35` and `CNT` are `W_T` bits wide (R20). -/
  timerWidths : s.t15 < 2 ^ s.cfg.wT ∧ s.t35 < 2 ^ s.cfg.wT ∧ s.cnt < 2 ^ s.cfg.wT

/-- The global invariants G1 to G9 of R40, and what a pass carries: which exit of the scan loop was taken (R162 corner
case e), that a candidate under check is not empty, and that a frame at MATCH or DISPATCH is good and, at DISPATCH, this
slave's (R230 S2, S3). -/
structure Inv (s : State) : Prop where
  /-- G1, G2. -/
  wf : Wf s
  /-- G3. -/
  silImpliesGap : s.sil = true → s.gap = true
  /-- G4. -/
  passInReceive : s.phase ≠ .idle → s.session = .receive
  /-- G5. -/
  waitIsIdle : s.session = .sendWait → s.phase = .idle
  /-- G6. -/
  busyInWait : s.txBusy = true → s.session = .sendWait
  /-- G7. -/
  initial : s.session = .init →
    s.run = false ∧ s.rxen = false ∧ s.head = s.tail ∧ s.pos = 0 ∧ s.phase = .idle ∧ s.txBusy = false
  /-- G8. -/
  started : s.session ≠ .init → s.run = true ∧ s.rxen = true ∧ 0 < s.t15 ∧ s.t15 < s.t35
  /-- G9. -/
  storedTags : ∀ i ∈ storedIndices s, ∀ v, memRead s.slot i = some v → slotSil v = true → slotGap v = true
  /-- R142 corner case b. -/
  cntRange : s.run = true → s.cnt < s.t35
  /-- R142, R143: a running count has passed `T15` only with `GAP` set, which G3 rests on. -/
  gapPastT15 : s.run = true → s.t15 ≤ s.cnt → s.gap = true
  /-- R160, R161: no exit of the loop has been taken yet. -/
  scanning : s.phase = .scan → s.stopSil = false ∧ s.emptied = false
  /-- R162 corner cases a and e. -/
  oneExit : s.phase = .decision → s.stopSil = !s.emptied ∧ (s.stopSil = true → s.pos ≠ 0)
  /-- R162: a complete candidate is not empty. -/
  checkNonEmpty : s.phase = .check → s.pos ≠ 0
  /-- R230 S3: a frame at MATCH or DISPATCH passed its CRC. -/
  frameGood : s.phase = .addrMatch ∨ s.phase = .dispatch → 2 ≤ s.pos ∧ ∃ f, candidate s = .next f ∧ crcGood f = true
  /-- R230 S2: a frame at DISPATCH is addressed to this slave. -/
  frameMine : s.phase = .dispatch → memRead s.buf 0 = some s.cfg.slaveAddr

/-- Executing operations one after another. -/
def execSeq : List Instr → State → Answer State
  | [], s => .next s
  | i :: is, s => andThen (exec i s) (execSeq is)

/-- A step of the core itself: its next event is no word, or the word of an operation the environment may issue (R102),
the composite `FA.POLL` only where a pass may be opened (R160). The internal operations are excluded: issued alone they
are no behaviour of the core. -/
def OfTheCore (s : State) : Prop :=
  ∀ w rest i, s.inputs = .word w :: rest → decode w = .ok i →
    i.kind ≠ .internal ∧ (i = .faPoll → s.session = .receive ∧ s.phase = .idle)

/-- `SLOT` with every `gap_elapsed` bit cleared, to say that no operation of a pass reads one (R148). -/
def eraseGaps (s : State) : State := { s with slot := s.slot.map (fun e => (e.1, e.2 &&& 0x2FF)) }

/-- A function of the next state, carried through an answer. -/
def onNext (f : State → State) (o : Answer State) : Answer State := andThen o (fun t => .next (f t))

end Sys2Proof.Machine
end

