-- ==== Sys2Proof/Certificates/Slice0/Obligations.lean ====
section
/-!
DEFINITION. The statements for the provers, from the numbered rules of spec/. Each docstring names the rule it formalises.
A statement about a next state writes it out: the fields the rule gives, and for every field it does not name, the field
of the state before.
-/

open Sys2Proof Sys2Proof.Machine

/-! ## Encoding -/

/-- R100 to R102: no operand bit is dropped between the encoder and the decoder. -/
def Obligations.DecodeOfEncode : Prop :=
  ∀ i : Instr, i.wellFormed = true → decode (encode i) = .ok i

/-- R100 to R102: each word has one meaning, so the decoder reads no word the encoder does not write. -/
def Obligations.EncodeOfDecode : Prop :=
  ∀ (w : OpWord) (i : Instr), decode w = .ok i → encode i = w ∧ i.wellFormed = true

/-- R104: a word with a reserved `op`, with a nonzero bit R101 says must be 0, or `CTC.TICK` with `k = 0`, is refused. -/
def Obligations.ReservedWordsAreRefused : Prop :=
  ∀ (s : State) (w : OpWord) (rest : List Input), configLegal s.cfg = true → s.inputs = .word w :: rest →
    let op := w.toNat / 65536
    let arg := w.toNat % 65536
    (op ∉ [0x00, 0x10, 0x11, 0x12, 0x13, 0x14, 0x15, 0x16, 0x20, 0x21, 0x22, 0x23, 0x24, 0x30, 0x31, 0x32, 0x33, 0x34,
        0x35, 0x40, 0x41, 0x42, 0x43, 0x50, 0x51, 0x52, 0x53, 0x54, 0x55] ∨
      (op = 0x11 ∧ 2 ^ 10 ≤ arg) ∨ (op = 0x21 ∧ arg = 0) ∨ ((op = 0x22 ∨ op = 0x41) ∧ 2 ^ 8 ≤ arg) ∨
      (op = 0x53 ∧ 2 ≤ arg) ∨ (op ∉ [0x11, 0x21, 0x22, 0x41, 0x53] ∧ arg ≠ 0)) →
    ∃ why, step s = .refused (.illegalWord why)

/-- One word or more of each family. Seven are words of the programs of 95_test_vectors.md; `0x1103CC` (the operation of V-Q-4)
and `0x4100FF` are written as words nowhere there and are composed here from the columns of R101 and R102. -/
def Obligations.WordsOfTheSpecDecode : Prop :=
  decode 0x000000 = .ok .sysReset ∧ decode 0x1103CC = .ok (.qEnq 0x3CC) ∧ decode 0x210023 = .ok (.ctcTick 35) ∧
    decode 0x220084 = .ok (.ctcRx 0x84) ∧ decode 0x310000 = .ok .faScan ∧ decode 0x330000 = .ok .faCheck ∧
    decode 0x4100FF = .ok (.crcByte 0xFF) ∧ decode 0x530001 = .ok (.ssmRespond true) ∧ decode 0x540000 = .ok .ssmTxdone

/-! ## The step -/

/-- A step takes the first event; a word that decodes is its operation, performed on the state without that event, and around it
the model keeps its own record of the environment (log 25). The last premise is R191 (A2), as log 25 reads it;
`EnvironmentBreach` says what a step does without it. -/
def Obligations.StepRunsTheDecodedOperation : Prop :=
  ∀ (s : State) (w : OpWord) (rest : List Input) (i : Instr), configLegal s.cfg = true →
    s.inputs = .word w :: rest → decode w = .ok i →
    (s.phase = .dispatch →
      i ∉ [Instr.qInit, .qDeq, .qPeek, .ctcInit, .ctcSilnow, .faBegin, .faClear, .faPoll, .crcVerify, .ssmInit]) →
    step s = andThen (exec i { s with inputs := rest }) fun t => .next { t with
      owed := if i = .ssmRespond true then t.owed + 1 else if i = .ssmTxdone then t.owed - 1 else t.owed
      answered := t.answered || decide (i = .ssmRespond true ∨ i = .ssmRespond false) }

/-- R9, with R141 corner case b: a configuration that breaks the constraint is refused, whatever the next event (log 16). The
clauses are all the ways to break it: `N`, `ADU_MAX`, thresholds given directly, thresholds derived as least tick counts from
serial parameters, and a parameter of 0; that a `DATA_BITS` or `STOP_BITS` of 0 is refused is log 16 too. -/
def Obligations.IllegalConfigurationIsRefused : Prop :=
  ∀ s : State,
    (s.cfg.n < 2 ∨ s.cfg.aduMax < 2 ∨
      (∃ t15 t35, s.cfg.timing = .direct t15 t35 ∧ ¬(0 < t15 ∧ t15 < t35 ∧ t35 ≤ 2 ^ s.cfg.wT - 1)) ∨
      (∃ baud d p b f bits t15 t35, s.cfg.timing = .serial baud d p b f ∧ 0 < baud ∧ 0 < d ∧ 0 < b ∧ 0 < f ∧
        bits = 1 + d + (if p then 1 else 0) + b ∧
        IsLeast { k | 3 * bits * f ≤ 2 * baud * k } t15 ∧ IsLeast { k | 7 * bits * f ≤ 2 * baud * k } t35 ∧
        ¬(0 < t15 ∧ t15 < t35 ∧ t35 ≤ 2 ^ s.cfg.wT - 1)) ∨
      (∃ baud d p b f, s.cfg.timing = .serial baud d p b f ∧ (baud = 0 ∨ d = 0 ∨ b = 0 ∨ f = 0))) →
    step s = .refused .illegalConfiguration

/-- With no event left nothing happens: the model's choice, log 1 (R275 says a finite test ends where its trace ends). -/
def Obligations.NoEventKeepsTheState : Prop :=
  ∀ s : State, configLegal s.cfg = true → s.inputs = [] → step s = .next s

/-- R75: inside a transaction a change of `SLAVE_ADDR` is refused. Any other change is taken where R9 allows it, inside a
transaction too, and `T15` and `T35` keep their values; where R9 does not, R246 refuses it. That a change is an event of its own
is log 15. -/
def Obligations.ConfigurationChange : Prop :=
  ∀ (s : State) (timing : Timing) (slaveAddr : Byte) (rest : List Input), configLegal s.cfg = true →
    s.inputs = .configure timing slaveAddr :: rest →
    let c : Config := { s.cfg with timing := timing, slaveAddr := slaveAddr }
    let inside := s.phase ≠ .idle ∨ s.session = .sendWait
    (inside → slaveAddr ≠ s.cfg.slaveAddr → step s = .refused .configChangedInTransaction) ∧
      ((inside → slaveAddr = s.cfg.slaveAddr) → configLegal c = true →
        step s = .next { s with inputs := rest, cfg := c }) ∧
      ((inside → slaveAddr = s.cfg.slaveAddr) → configLegal c = false → step s = .refused .illegalConfiguration) ∧
      (c = s.cfg → step s = .next { s with inputs := rest })

/-! ## The queue -/

/-- R120. -/
def Obligations.QInitEmptiesTheQueue : Prop :=
  (encode .qInit).toNat = 0x100000 ∧ ∀ s : State, exec .qInit s = .next { s with head := 0, tail := 0 }

/-- R121: full, the item is dropped and no state changes; not full, `SLOT[HEAD]` and `HEAD` change and nothing else. -/
def Obligations.QEnqStoresOrDrops : Prop :=
  ∀ (s : State) (item : Slot), s.head < s.cfg.n →
    (encode (.qEnq item)).toNat = 0x110000 + item.toNat ∧
      (ringNext s.cfg.n s.head = s.tail →
        exec (.qEnq item) s = .next { s with result := .bit false, drops := s.drops ++ [.qFull item] }) ∧
      (ringNext s.cfg.n s.head ≠ s.tail →
        ∃ t, exec (.qEnq item) s = .next t ∧
          t = { s with slot := t.slot, head := ringNext s.cfg.n s.head, result := .bit true } ∧
          memRead t.slot s.head = some item ∧ ∀ a, a ≠ s.head → memRead t.slot a = memRead s.slot a)

/-- R122: empty, `none` and nothing changes; else the oldest element, and `TAIL` moves. -/
def Obligations.QDeqTakesTheOldest : Prop :=
  (encode .qDeq).toNat = 0x120000 ∧ ∀ s : State,
    (s.head = s.tail → exec .qDeq s = .next { s with result := .item none }) ∧
      (∀ v, s.head ≠ s.tail → s.tail < s.cfg.n → memRead s.slot s.tail = some v →
        exec .qDeq s = .next { s with tail := ringNext s.cfg.n s.tail, result := .item (some v) })

/-- R123: a peek gives the front element and writes no state. -/
def Obligations.QPeekIsNonDestructive : Prop :=
  (encode .qPeek).toNat = 0x130000 ∧ ∀ s : State,
    (s.head = s.tail → exec .qPeek s = .next { s with result := .item none }) ∧
      (∀ v, s.head ≠ s.tail → s.tail < s.cfg.n → memRead s.slot s.tail = some v →
        exec .qPeek s = .next { s with result := .item (some v) })

/-- R124, R125: the two counts, and their sum `N - 1`; no state changes. -/
def Obligations.QCountAndQFree : Prop :=
  (encode .qFree).toNat = 0x140000 ∧ (encode .qCount).toNat = 0x150000 ∧
    ∀ s : State, s.head < s.cfg.n → s.tail < s.cfg.n →
      let stored := (s.head + s.cfg.n - s.tail) % s.cfg.n
      exec .qCount s = .next { s with result := .count stored } ∧
        exec .qFree s = .next { s with result := .count (s.cfg.n - 1 - stored) } ∧
        stored + (s.cfg.n - 1 - stored) = s.cfg.n - 1

/-- R127: the list of stored elements, oldest first, `Q.COUNT` of them; nothing changes. -/
def Obligations.QIterListsTheStored : Prop :=
  (encode .qIter).toNat = 0x160000 ∧ ∀ s : State, Wf s →
    ∃ vs, exec .qIter s = .next { s with result := .items vs } ∧
      vs.length = (s.head + s.cfg.n - s.tail) % s.cfg.n ∧
      ∀ k, k < vs.length → memRead s.slot ((s.tail + k) % s.cfg.n) = vs[k]?

/-- R128 L6 (with L1 to L4): enqueues and dequeues are those of the bounded FIFO of capacity `N - 1`. -/
def Obligations.QueueRefinesBoundedFifo : Prop :=
  ∀ (s : State) (l : List Slot), Wf s → Represents s l →
    l.length ≤ s.cfg.n - 1 ∧
      (∀ item, l.length < s.cfg.n - 1 →
        ∃ t, exec (.qEnq item) s = .next t ∧ t.result = .bit true ∧ Represents t (l ++ [item])) ∧
      (∀ item, l.length = s.cfg.n - 1 →
        ∃ t, exec (.qEnq item) s = .next t ∧ t.result = .bit false ∧ Represents t l) ∧
      (∃ t, exec .qDeq s = .next t ∧ t.result = .item l.head? ∧ Represents t l.tail) ∧
      (∃ t, exec .qPeek s = .next t ∧ t.result = .item l.head? ∧ Represents t l) ∧
      (∃ t, exec .qIter s = .next t ∧ t.result = .items l ∧ Represents t l)

/-- R126: `next` applied `N` times is the identity. -/
def Obligations.RingNextReturns : Prop :=
  ∀ n i : Nat, i < n → (ringNext n)^[n] i = i

/-- R123: a dequeue after a peek returns the peeked element, whatever the producer did in between. -/
def Obligations.PeekedElementIsDequeued : Prop :=
  ∀ (s : State) (items : List Slot) (v : Slot), Wf s → s.head ≠ s.tail → memRead s.slot s.tail = some v →
    ∃ t u, execSeq (items.map .qEnq) s = .next t ∧ exec .qDeq t = .next u ∧ u.result = .item (some v)

/-! ## The timer -/

/-- R141: the thresholds are the least tick counts not below 1.5 and 3.5 character times, or are given directly; the timer
is started with both flags clear; a configuration that breaks the `require` line is refused. -/
def Obligations.CtcInitDerivesThresholds : Prop :=
  (encode .ctcInit).toNat = 0x200000 ∧
    (∀ (s : State) (baud d : Nat) (p : Bool) (b f t15 t35 : Nat), s.cfg.timing = .serial baud d p b f →
      0 < baud → 0 < d → 0 < b → 0 < f →
      let bits := 1 + d + (if p then 1 else 0) + b
      IsLeast { k | 3 * bits * f ≤ 2 * baud * k } t15 → IsLeast { k | 7 * bits * f ≤ 2 * baud * k } t35 →
      (0 < t15 ∧ t15 < t35 ∧ t35 ≤ 2 ^ s.cfg.wT - 1 →
        exec .ctcInit s =
          .next { s with t15 := t15, t35 := t35, run := true, cnt := 0, gap := false, sil := false }) ∧
        (¬(0 < t15 ∧ t15 < t35 ∧ t35 ≤ 2 ^ s.cfg.wT - 1) → exec .ctcInit s = .refused .illegalConfiguration)) ∧
    (∀ (s : State) (t15 t35 : Nat), s.cfg.timing = .direct t15 t35 →
      (0 < t15 ∧ t15 < t35 ∧ t35 ≤ 2 ^ s.cfg.wT - 1 →
        exec .ctcInit s =
          .next { s with t15 := t15, t35 := t35, run := true, cnt := 0, gap := false, sil := false }) ∧
        (¬(0 < t15 ∧ t15 < t35 ∧ t35 ≤ 2 ^ s.cfg.wT - 1) → exec .ctcInit s = .refused .illegalConfiguration)) ∧
    (∀ (s : State) (baud d : Nat) (p : Bool) (b f : Nat), s.cfg.timing = .serial baud d p b f → baud = 0 ∨ f = 0 →
      exec .ctcInit s = .refused .illegalConfiguration)

/-- R142: one tick, and `CTC.TICK (a + b)` is `CTC.TICK a` and then `CTC.TICK b`. The premise of the first clause keeps
`CNT` inside its width. -/
def Obligations.CtcTickCountsAndFlags : Prop :=
  (∀ k : BitVec 16, (encode (.ctcTick k)).toNat = 0x210000 + k.toNat) ∧
    (∀ s : State, s.run = true → s.cnt + 1 < 2 ^ s.cfg.wT →
      exec (.ctcTick 1) s =
        .next { s with
          cnt := if s.cnt + 1 = s.t35 then 0 else s.cnt + 1
          gap := if s.cnt + 1 = s.t15 then true else s.gap
          sil := if s.cnt + 1 = s.t35 then true else s.sil }) ∧
    (∀ (s : State) (k : BitVec 16), k ≠ 0 → s.run = false → exec (.ctcTick k) s = .next s) ∧
    (∀ (s : State) (a b : BitVec 16), a ≠ 0 → b ≠ 0 → a.toNat + b.toNat < 2 ^ 16 →
      exec (.ctcTick (a + b)) s = andThen (exec (.ctcTick a) s) (exec (.ctcTick b)))

/-- R143: after `e` ticks since the last restart `GAP` says `e >= T15`, `SIL` says `e >= T35` and `CNT = e mod T35`. -/
def Obligations.ElapsedTimeLaw : Prop :=
  (∀ s : State, 0 < s.t15 → s.t15 < s.t35 → ∃ t, exec .ctcRestart s = .next t ∧ Elapsed t 0) ∧
    ∀ (s : State) (e : Nat) (k : BitVec 16), s.run = true → 0 < s.t15 → s.t15 < s.t35 → s.t35 < 2 ^ s.cfg.wT →
      Elapsed s e → k ≠ 0 →
      ∃ t, exec (.ctcTick k) s = .next t ∧ Elapsed t (e + k.toNat) ∧
        t = { s with cnt := t.cnt, gap := t.gap, sil := t.sil }

/-- R144: with `RXEN = 0` nothing changes; else the byte is tagged with the flags before the restart, the timer is
restarted whether or not the byte is dropped, and `SLOT[HEAD]` and `HEAD` change only when there is room. -/
def Obligations.CtcRxTagsAndRestarts : Prop :=
  ∀ (s : State) (v : Byte),
    (encode (.ctcRx v)).toNat = 0x220000 + v.toNat ∧
      (s.rxen = false → exec (.ctcRx v) s = .next s) ∧
      ∀ item : Slot, item.toNat = s.sil.toNat * 512 + s.gap.toNat * 256 + v.toNat → s.rxen = true → s.head < s.cfg.n →
        (ringNext s.cfg.n s.head = s.tail →
          exec (.ctcRx v) s =
            .next { s with cnt := 0, gap := false, sil := false, drops := s.drops ++ [.qFull item] }) ∧
          (ringNext s.cfg.n s.head ≠ s.tail →
            ∃ t, exec (.ctcRx v) s = .next t ∧
              t = { s with cnt := 0, gap := false, sil := false, slot := t.slot, head := ringNext s.cfg.n s.head } ∧
              memRead t.slot s.head = some item ∧ ∀ a, a ≠ s.head → memRead t.slot a = memRead s.slot a)

/-- R147: of two bytes `d` ticks apart the second is stored, or dropped where the queue is full, with `gap = (d >= T15)` and
`sil = (d >= T35)`. -/
def Obligations.ClassificationLaw : Prop :=
  ∀ (s : State) (v1 v2 : Byte) (ticks : List (BitVec 16)), Wf s → s.rxen = true → s.run = true →
    0 < s.t15 → s.t15 < s.t35 → (∀ k ∈ ticks, k ≠ 0) →
    let d := (ticks.map BitVec.toNat).sum
    ∃ t u item, execSeq (.ctcRx v1 :: ticks.map .ctcTick) s = .next t ∧ exec (.ctcRx v2) t = .next u ∧
      slotGap item = decide (s.t15 ≤ d) ∧ slotSil item = decide (s.t35 ≤ d) ∧ slotValue item = v2 ∧
      (ringNext s.cfg.n t.head ≠ t.tail → memRead u.slot t.head = some item) ∧
      (ringNext s.cfg.n t.head = t.tail → u.drops = t.drops ++ [.qFull item])

/-- R145 and R146. -/
def Obligations.CtcRestartAndSilnow : Prop :=
  (encode .ctcRestart).toNat = 0x240000 ∧ (encode .ctcSilnow).toNat = 0x230000 ∧
    ∀ s : State, exec .ctcRestart s = .next { s with cnt := 0, gap := false, sil := false } ∧
      exec .ctcSilnow s = .next { s with result := .bit s.sil }

/-- R145 corner case a, with R270 for reset: only a timer restart clears a timer flag. -/
def Obligations.FlagsClearedOnlyByRestart : Prop :=
  ∀ (i : Instr) (s t : State), exec i s = .next t →
    (s.gap = true ∧ t.gap = false ∨ s.sil = true ∧ t.sil = false) →
    i = .ctcRestart ∨ i = .ctcInit ∨ (∃ v, i = .ctcRx v) ∨ i = .ssmInit ∨ i = .sysReset ∨
      ((i = .ssmPoll ∨ i = .ssmRun) ∧ s.session = .init)

/-- R26, R30, R31: after initialisation only reset clears `RUN` and `RXEN`, and only `CTC.INIT` (alone or inside
`SSM.INIT`) and reset write the thresholds. -/
def Obligations.SetupWrittenOnlyByInitialisation : Prop :=
  ∀ (i : Instr) (s t : State), exec i s = .next t → i ≠ .sysReset →
    (s.run = true → t.run = true) ∧ (s.rxen = true → t.rxen = true) ∧
      (i ≠ .ctcInit → i ≠ .ssmInit → s.session ≠ .init → t.t15 = s.t15 ∧ t.t35 = s.t35)

/-! ## The frame-assembler -/

/-- R160 and R165. -/
def Obligations.FaBeginAndFaClear : Prop :=
  (encode .faBegin).toNat = 0x300000 ∧ (encode .faClear).toNat = 0x340000 ∧
    ∀ s : State, exec .faBegin s = .next { s with stopSil := false, emptied := false, phase := .scan } ∧
      exec .faClear s = .next { s with pos := 0 }

/-- R161: the four ways one iteration of the scan loop goes. -/
def Obligations.FaScanIteration : Prop :=
  (encode .faScan).toNat = 0x310000 ∧ ∀ s : State, s.phase = .scan →
    (s.head = s.tail → exec .faScan s = .next { s with emptied := true, phase := .decision }) ∧
      ∀ v, s.head ≠ s.tail → s.tail < s.cfg.n → memRead s.slot s.tail = some v →
        (slotSil v = true → s.pos ≠ 0 → exec .faScan s = .next { s with stopSil := true, phase := .decision }) ∧
          (slotSil v = false ∨ s.pos = 0 → s.pos < s.cfg.aduMax →
            ∃ t, exec .faScan s = .next t ∧
              t = { s with tail := ringNext s.cfg.n s.tail, buf := t.buf, pos := s.pos + 1 } ∧
              memRead t.buf s.pos = some (slotValue v) ∧ ∀ a, a ≠ s.pos → memRead t.buf a = memRead s.buf a) ∧
          (slotSil v = false ∨ s.pos = 0 → ¬s.pos < s.cfg.aduMax →
            exec .faScan s =
              .next { s with tail := ringNext s.cfg.n s.tail, drops := s.drops ++ [.bufOvf (slotValue v)] })

/-- R162. -/
def Obligations.FaDecideCompletion : Prop :=
  (encode .faDecide).toNat = 0x320000 ∧ ∀ s : State, s.phase = .decision →
    ((s.stopSil = true ∨ (s.emptied = true ∧ s.sil = true)) ∧ s.pos ≠ 0 →
      exec .faDecide s = .next { s with phase := .check }) ∧
      (¬((s.stopSil = true ∨ (s.emptied = true ∧ s.sil = true)) ∧ s.pos ≠ 0) →
        exec .faDecide s = .next { s with phase := .idle })

/-- R163, with the check of R183 written out: `f` are the `POS` buffered bytes. -/
def Obligations.FaCheckOutcome : Prop :=
  (encode .faCheck).toNat = 0x330000 ∧ ∀ (s : State) (f : List Byte), s.phase = .check → s.pos ≤ s.cfg.aduMax →
    f.length = s.pos → Buffered s f →
    (s.pos < 2 →
      exec .faCheck s = .next { s with pos := 0, phase := .idle, drops := s.drops ++ [.short s.pos] }) ∧
      ∀ (m : List Byte) (lo hi : Byte), f = m ++ [lo, hi] →
        (m.foldl crcUpdate 0xFFFF = hi ++ lo → exec .faCheck s = .next { s with phase := .addrMatch }) ∧
          (m.foldl crcUpdate 0xFFFF ≠ hi ++ lo →
            exec .faCheck s = .next { s with pos := 0, phase := .idle, drops := s.drops ++ [.crc s.pos] })

/-- R166: the composite is `FA.BEGIN` and then the micro-steps, and its result is `frame` exactly if it ends at MATCH. -/
def Obligations.FaPollIsItsParts : Prop :=
  (encode .faPoll).toNat = 0x350000 ∧ ∀ s : State, Wf s →
    ∃ is t, execSeq (.faBegin :: is) s = .next t ∧ (∀ i ∈ is, i = .faScan ∨ i = .faDecide ∨ i = .faCheck) ∧
      exec .faPoll s = .next { t with result := .pass (decide (t.phase = .addrMatch)) } ∧
      (t.phase = .addrMatch ∨ t.phase = .idle)

/-- R168 and R169 over the queue: a pass from an empty buffer takes one frame, `first :: body`, ended by live silence or by
the next queued byte that carries it, which stays queued; it reports the frame exactly if its CRC is good, and is left
with an empty buffer if not. -/
def Obligations.PassReportsExactlyTheFrame : Prop :=
  ∀ (s : State) (first : Slot) (body rest : List Slot), Wf s → s.pos = 0 →
    Represents s (first :: body ++ rest) → (∀ v ∈ body, slotSil v = false) →
    ((rest = [] ∧ s.sil = true) ∨ ∃ v l, rest = v :: l ∧ slotSil v = true) →
    (first :: body).length ≤ s.cfg.aduMax →
    let frame := (first :: body).map slotValue
    (crcGood frame = true →
      ∃ t, exec .faPoll s = .next t ∧ t.result = .pass true ∧ t.phase = .addrMatch ∧ t.pos = frame.length ∧
        Buffered t frame ∧ Represents t rest) ∧
      (crcGood frame = false →
        ∃ t, exec .faPoll s = .next t ∧ t.result = .pass false ∧ t.phase = .idle ∧ t.pos = 0 ∧ Represents t rest)

/-- R148: no operation of the poll agent's passes reads a `gap_elapsed` bit. -/
def Obligations.GapBitsDoNotMatter : Prop :=
  ∀ (i : Instr) (s : State), i.kind = .microStep ∨ i = .faPoll ∨ i = .ssmRun →
    exec i (eraseGaps s) = onNext eraseGaps (exec i s)

/-! ## The CRC -/

/-- R180 and R181: the initial accumulator, and eight shifts written out. The accumulator a word continues from is the
model's own field, log 7. -/
def Obligations.CrcResetAndCrcByte : Prop :=
  (encode .crcReset).toNat = 0x400000 ∧ (∀ b : Byte, (encode (.crcByte b)).toNat = 0x410000 + b.toNat) ∧
    (∀ s : State, exec .crcReset s = .next { s with crcAcc := 0xFFFF, result := .crc 0xFFFF }) ∧
    ∀ (s : State) (b : Byte),
      let shift : CrcWord → CrcWord := fun c => if c.toNat % 2 = 1 then (c >>> 1) ^^^ 0xA001 else c >>> 1
      let c := shift^[8] (s.crcAcc ^^^ b.zeroExtend 16)
      exec (.crcByte b) s = .next { s with crcAcc := c, result := .crc c }

/-- R182 and R183 on the candidate `f`, the `POS` buffered bytes: log 14, which also names the refusal. -/
def Obligations.CrcBlockAndCrcVerify : Prop :=
  (encode .crcBlock).toNat = 0x420000 ∧ (encode .crcVerify).toNat = 0x430000 ∧
    ∀ (s : State) (f : List Byte), s.pos ≤ s.cfg.aduMax → f.length = s.pos → Buffered s f →
      exec .crcBlock s = .next { s with result := .crc (f.foldl crcUpdate 0xFFFF) } ∧
        (∀ (m : List Byte) (lo hi : Byte), f = m ++ [lo, hi] →
          exec .crcVerify s = .next { s with result := .bit (decide (m.foldl crcUpdate 0xFFFF = hi ++ lo)) }) ∧
        (f.length < 2 → exec .crcVerify s = .refused .shortOperand)

/-- R184: a frame with its own trailer is good, and changing exactly one of its bytes makes it bad. -/
def Obligations.CrcRoundTripAndMutation : Prop :=
  ∀ m : List Byte,
    let frame := m ++ [(crcOf m).extractLsb' 0 8, (crcOf m).extractLsb' 8 8]
    crcGood frame = true ∧
      ∀ (k : Nat) (b : Byte), k < frame.length → frame[k]? ≠ some b → crcGood (frame.set k b) = false

/-- R91, R92, R93, R205: a response that fits its destination is built with its CRC, passes the check of the same core,
and its views give back the address and the PDU; one that does not fit is not built. -/
def Obligations.BuiltFramePassesTheCheck : Prop :=
  ∀ (capacity : Nat) (slaveAddr : Byte) (pdu : List Byte),
    (1 + pdu.length + 2 ≤ capacity →
      ∃ f, buildFrame capacity slaveAddr pdu = some f ∧ f.length = 1 + pdu.length + 2 ∧ crcGood f = true ∧
        aduAddress f = some slaveAddr ∧ aduPdu f = pdu) ∧
      (capacity < 1 + pdu.length + 2 → buildFrame capacity slaveAddr pdu = none)

/-- R185: `CRC.BYTE` is linear over exclusive-or. -/
def Obligations.CrcByteIsLinear : Prop :=
  ∀ (c1 c2 : CrcWord) (b1 b2 : Byte), crcUpdate (c1 ^^^ c2) (b1 ^^^ b2) = crcUpdate c1 b1 ^^^ crcUpdate c2 b2

/-- R183 corner case c: a frame is good exactly if the CRC of all of it is zero. -/
def Obligations.CrcGoodIffZero : Prop :=
  ∀ f : List Byte, 2 ≤ f.length → (crcGood f = true ↔ crcOf f = 0)

/-! ## The session -/

/-- R221: the whole of `SSM.INIT`; a configuration `CTC.INIT` refuses is refused. -/
def Obligations.SsmInitStartsTheSession : Prop :=
  (encode .ssmInit).toNat = 0x510000 ∧ ∀ (s : State),
    (∀ t15 t35, thresholds s.cfg.timing = some (t15, t35) → 0 < t15 ∧ t15 < t35 ∧ t35 ≤ 2 ^ s.cfg.wT - 1 →
      exec .ssmInit s =
        .next { s with
          head := 0, tail := 0, pos := 0, txBusy := false, t15 := t15, t35 := t35, run := true
          cnt := 0, gap := false, sil := false, rxen := true, session := .receive }) ∧
      (∀ t15 t35, thresholds s.cfg.timing = some (t15, t35) → ¬(0 < t15 ∧ t15 < t35 ∧ t35 ≤ 2 ^ s.cfg.wT - 1) →
        exec .ssmInit s = .refused .illegalConfiguration) ∧
      (thresholds s.cfg.timing = none → exec .ssmInit s = .refused .illegalConfiguration)

/-- R222: the work of a pass by `STATE`. -/
def Obligations.SsmPollByState : Prop :=
  (encode .ssmPoll).toNat = 0x500000 ∧ ∀ s : State, s.phase = .idle →
    (s.session = .init → exec .ssmPoll s = exec .ssmInit s) ∧
      (s.session = .init → configLegal s.cfg = true → ∃ t, exec .ssmPoll s = .next t ∧ t.session = .receive) ∧
      (s.session = .receive →
        exec .ssmPoll s = .next { s with stopSil := false, emptied := false, phase := .scan }) ∧
      (s.session = .sendWait → s.txBusy = true → exec .ssmPoll s = .next s) ∧
      (s.session = .sendWait → s.txBusy = false →
        exec .ssmPoll s =
          .next { s with pos := 0, session := .receive, outputs := s.outputs ++ [.clearOutputBuffer] })

/-- R224: a frame for another slave is dropped; this slave's goes to the responder whole. -/
def Obligations.SsmMatchFiltersAddresses : Prop :=
  (encode .ssmMatch).toNat = 0x520000 ∧ ∀ (s : State) (first : Byte) (f : List Byte), s.phase = .addrMatch →
    s.pos ≤ s.cfg.aduMax → (first :: f).length = s.pos → Buffered s (first :: f) →
    (first ≠ s.cfg.slaveAddr →
      exec .ssmMatch s = .next { s with pos := 0, phase := .idle, drops := s.drops ++ [.addr first] }) ∧
      (first = s.cfg.slaveAddr →
        exec .ssmMatch s =
          .next { s with phase := .dispatch, outputs := s.outputs ++ [.dispatchRequest (first :: f)] })

/-- R225 and R228. -/
def Obligations.SsmRespondAndSsmTxdone : Prop :=
  (∀ b : Bool, (encode (.ssmRespond b)).toNat = 0x530000 + b.toNat) ∧ (encode .ssmTxdone).toNat = 0x540000 ∧
    (∀ s : State, s.phase = .dispatch →
      exec (.ssmRespond true) s = .next { s with txBusy := true, session := .sendWait, phase := .idle } ∧
        exec (.ssmRespond false) s =
          .next { s with phase := .idle, drops := s.drops ++ [.txRefused] }) ∧
    ∀ s : State, exec .ssmTxdone s = .next { s with txBusy := false }

/-- R229: the composite is one or more micro-steps, up to the first after which `PHASE` is IDLE or DISPATCH. Where
`PHASE` is not IDLE the rule is silent and the model runs the rest of the pass: log 11. -/
def Obligations.SsmRunIsOnePass : Prop :=
  (encode .ssmRun).toNat = 0x550000 ∧ ∀ s : State, Inv s →
    (s.phase ≠ .dispatch →
      ∃ is t, exec .ssmRun s = .next t ∧ execSeq is s = .next t ∧ is ≠ [] ∧ (∀ i ∈ is, i.kind = .microStep) ∧
        (t.phase = .idle ∨ t.phase = .dispatch) ∧
        ∀ k u, 0 < k → k < is.length → execSeq (is.take k) s = .next u → u.phase ≠ .idle ∧ u.phase ≠ .dispatch) ∧
      (s.phase = .dispatch → exec .ssmRun s = .refused .answerMissing)

/-- R103: a micro-step that does not agree with `PHASE` is refused. -/
def Obligations.MicroStepMustAgreeWithPhase : Prop :=
  ∀ s : State,
    (s.phase ≠ .idle → exec .ssmPoll s = .refused .phaseMismatch) ∧
      (s.phase ≠ .scan → exec .faScan s = .refused .phaseMismatch) ∧
      (s.phase ≠ .decision → exec .faDecide s = .refused .phaseMismatch) ∧
      (s.phase ≠ .check → exec .faCheck s = .refused .phaseMismatch) ∧
      (s.phase ≠ .addrMatch → exec .ssmMatch s = .refused .phaseMismatch) ∧
      ∀ b, s.phase ≠ .dispatch → exec (.ssmRespond b) s = .refused .phaseMismatch

/-- R226: the table of every transition of `STATE` and `PHASE`, row by row; `SYS.RESET` goes to (INIT, IDLE), and the
interrupts, the tick, the queries and the pure operations change neither. -/
def Obligations.TransitionTable : Prop :=
  ∀ (i : Instr) (s t : State), Inv s → i.kind ≠ .internal → i.kind ≠ .composite → exec i s = .next t →
    let go (fs : Session) (fp : Phase) (ts : Session) (tp : Phase) : Prop :=
      s.session = fs ∧ s.phase = fp ∧ t.session = ts ∧ t.phase = tp
    let stops := s.head = s.tail ∨ ∃ v, memRead s.slot s.tail = some v ∧ slotSil v = true ∧ s.pos ≠ 0
    let complete := (s.stopSil = true ∨ (s.emptied = true ∧ s.sil = true)) ∧ s.pos ≠ 0
    let good := 2 ≤ s.pos ∧ ∃ f, candidate s = .next f ∧ crcGood f = true
    let mine := memRead s.buf 0 = some s.cfg.slaveAddr
    (i = .sysReset ∧ t.session = .init ∧ t.phase = .idle) ∨
      (i ≠ .sysReset ∧ i.kind ≠ .microStep ∧ t.session = s.session ∧ t.phase = s.phase) ∨
      (i = .ssmPoll ∧ go .init .idle .receive .idle) ∨
      (i = .ssmPoll ∧ go .receive .idle .receive .scan) ∨
      (i = .faScan ∧ ¬stops ∧ go .receive .scan .receive .scan) ∨
      (i = .faScan ∧ stops ∧ go .receive .scan .receive .decision) ∨
      (i = .faDecide ∧ ¬complete ∧ go .receive .decision .receive .idle) ∨
      (i = .faDecide ∧ complete ∧ go .receive .decision .receive .check) ∨
      (i = .faCheck ∧ ¬good ∧ go .receive .check .receive .idle) ∨
      (i = .faCheck ∧ good ∧ go .receive .check .receive .addrMatch) ∨
      (i = .ssmMatch ∧ ¬mine ∧ go .receive .addrMatch .receive .idle) ∨
      (i = .ssmMatch ∧ mine ∧ go .receive .addrMatch .receive .dispatch) ∨
      (i = .ssmRespond false ∧ go .receive .dispatch .receive .idle) ∨
      (i = .ssmRespond true ∧ go .receive .dispatch .sendWait .idle) ∨
      (i = .ssmPoll ∧ s.txBusy = true ∧ go .sendWait .idle .sendWait .idle) ∨
      (i = .ssmPoll ∧ s.txBusy = false ∧ go .sendWait .idle .receive .idle)

/-- R230 S1 to S3, the core's promise to the bus: a dispatch request is made only in `RECEIVE` with nothing being
transmitted, and only for a frame whose CRC is good and whose address is this slave's. -/
def Obligations.DispatchOnlyOwnGoodFrames : Prop :=
  ∀ s t : State, Inv s → OfTheCore s → step s = .next t →
    ∃ new, t.outputs = s.outputs ++ new ∧ ∀ f, Output.dispatchRequest f ∈ new →
      s.session = .receive ∧ s.txBusy = false ∧ 2 ≤ f.length ∧ crcGood f = true ∧ f.head? = some s.cfg.slaveAddr

/-- R248: the two interrupt handlers touch disjoint state, so their order does not matter. -/
def Obligations.InterruptsCommute : Prop :=
  ∀ (s : State) (v : Byte), s.head < s.cfg.n →
    ∃ t, execSeq [.ctcRx v, .ssmTxdone] s = .next t ∧ execSeq [.ssmTxdone, .ctcRx v] s = .next t

/-- R287: without the transmit-complete interrupt the machine stays in `SEND_WAIT`; only reset recovers. -/
def Obligations.SendWaitHasNoTimeout : Prop :=
  ∀ (i : Instr) (s t : State), Inv s → i.kind ≠ .internal → i ≠ .sysReset → i ≠ .ssmTxdone →
    i ≠ .faPoll → exec i s = .next t → s.txBusy = true →
    t.txBusy = true ∧ t.session = .sendWait ∧ t.phase = .idle

/-! ## Reset -/

/-- R270: every register at its reset value, no element of either array with a value, from every state. The rest is no rule's but
the model's choice: what `T15` and `T35` hold then (log 4) is not stated; that the configuration and the events stay is log 3 and
log 1, that `crcAcc` stays is log 7, `result` log 8, `drops` and `outputs` log 9, and that `owed` and `answered` stay is log 25. -/
def Obligations.SysResetFromAnyState : Prop :=
  (encode .sysReset).toNat = 0 ∧ ∀ s : State, ∃ t, exec .sysReset s = .next t ∧
    t.session = .init ∧ t.phase = .idle ∧ t.txBusy = false ∧ t.head = 0 ∧ t.tail = 0 ∧ t.pos = 0 ∧
    t.cnt = 0 ∧ t.gap = false ∧ t.sil = false ∧ t.run = false ∧ t.rxen = false ∧ t.stopSil = false ∧ t.emptied = false ∧
    (∀ a, memRead t.slot a = none ∧ memRead t.buf a = none) ∧
    t.cfg = s.cfg ∧ t.inputs = s.inputs ∧ t.crcAcc = s.crcAcc ∧ t.result = s.result ∧ t.owed = s.owed ∧
    t.answered = s.answered ∧ t.drops = s.drops ∧ t.outputs = s.outputs

/-- R271: the state the machine begins in. -/
def Obligations.ResetStateHoldsTheSpecValues : Prop :=
  let s := State.reset
  s.session = .init ∧ s.phase = .idle ∧ s.txBusy = false ∧ s.head = 0 ∧ s.tail = 0 ∧ s.pos = 0 ∧ s.cnt = 0 ∧
    s.gap = false ∧ s.sil = false ∧ s.run = false ∧ s.rxen = false ∧ s.stopSil = false ∧ s.emptied = false ∧
    ∀ a, memRead s.slot a = none ∧ memRead s.buf a = none

/-- R272: before the first `SSM.POLL` the events change nothing and the queries see an empty queue. -/
def Obligations.EventsBeforeInitialisation : Prop :=
  ∀ s : State, Inv s → s.session = .init →
    (∀ k, k ≠ 0 → exec (.ctcTick k) s = .next s) ∧ (∀ v, exec (.ctcRx v) s = .next s) ∧
      exec .ssmTxdone s = .next s ∧ exec .qCount s = .next { s with result := .count 0 } ∧
      exec .qFree s = .next { s with result := .count (s.cfg.n - 1) } ∧
      exec .qIter s = .next { s with result := .items [] }

/-! ## Invariants and whole-machine rules -/

/-- R40 at reset. -/
def Obligations.ResetMeetsTheInvariants : Prop := Inv State.reset

/-- R40: every step of the core keeps G1 to G9, from every state that has them. -/
def Obligations.StepKeepsTheInvariants : Prop :=
  ∀ s t : State, Inv s → OfTheCore s → step s = .next t → Inv t

/-- R25, R33: every step, an internal operation issued alone too, keeps the storage and the registers in shape. -/
def Obligations.StepKeepsTheShape : Prop :=
  ∀ s t : State, Wf s → step s = .next t → Wf t

/-- R246: every operation is total on every state with the invariants; a micro-step where `PHASE` selects it, `SSM.RUN`
where no answer is needed, `CRC.VERIFY` where its operand is legal. That `SSM.RUN` runs the rest of a pass from SCAN, DECIDE, CHECK
and MATCH is log 11, that `FA.BEGIN` and `FA.POLL` run in any `STATE` and `PHASE` is log 12: both the model's reading. -/
def Obligations.OperationsAreTotal : Prop :=
  ∀ (i : Instr) (s : State), Inv s → i.wellFormed = true → (∀ p, selectedBy i = some p → s.phase = p) →
    (i = .ssmRun → s.phase ≠ .dispatch) → (i = .crcVerify → 2 ≤ s.pos) → ∃ t, exec i s = .next t

/-- R128 L5, R251: the poll agent's micro-steps never write what the producer owns, after initialisation: `HEAD`, a slot,
the timer, `RXEN`. -/
def Obligations.PollAgentLeavesTheProducerAlone : Prop :=
  ∀ (i : Instr) (s t : State), i.kind = .microStep ∨ i = .ssmRun ∨ i = .faPoll ∨ i = .qDeq ∨ i = .qPeek →
    exec i s = .next t → s.session ≠ .init ∨ i = .faPoll ∨ i = .qDeq ∨ i = .qPeek →
    t.head = s.head ∧ t.t15 = s.t15 ∧ t.t35 = s.t35 ∧ t.cnt = s.cnt ∧ t.gap = s.gap ∧ t.sil = s.sil ∧ t.run = s.run ∧
      t.rxen = s.rxen ∧ ∀ a, memRead t.slot a = memRead s.slot a

/-- R68, R251: the queries, `Q.PEEK`, `CTC.SILNOW` and the pure CRC operations on the candidate have no side effect. -/
def Obligations.ReadsHaveNoSideEffect : Prop :=
  ∀ (i : Instr) (s t : State),
    i ∈ [Instr.qPeek, .qFree, .qCount, .qIter, .ctcSilnow, .crcBlock, .crcVerify] → exec i s = .next t →
    t = { s with result := t.result }

/-! ## Widths and the environment -/

/-- R9, R20: `ELEM_W` is the width of a slot, `IDX_W` the least width, at least 1, for `N` indices, `POS_W` the least width for
0 to `ADU_MAX`; the registers of those widths fit them. -/
def Obligations.RegisterWidthsOfTheConfiguration : Prop :=
  (∀ c : Config, c.elemW = 10 ∧ Slot = BitVec c.elemW ∧ IsLeast { k | 1 ≤ k ∧ c.n ≤ 2 ^ k } c.idxW ∧
    IsLeast { k | c.aduMax + 1 ≤ 2 ^ k } c.posW) ∧
    ∀ s : State, Wf s → s.head < 2 ^ s.cfg.idxW ∧ s.tail < 2 ^ s.cfg.idxW ∧ s.pos < 2 ^ s.cfg.posW

/-- What a step does where the environment breaks R191: (A2), an operation of the poll agent's own between the dispatch request
and the answer, is refused (R246; which words those are is log 25). An interrupt that finds `TX_BUSY = 0` changes no register,
whatever is owed (R228 corner case b, R271). Where it breaks (A3), no transmission awaiting it after an answer, the environment is
refused (R246): it has no admitted step, and every other event has the step it has (log 18). -/
def Obligations.EnvironmentBreach : Prop :=
  ∀ (s : State) (w : OpWord) (rest : List Input) (i : Instr), configLegal s.cfg = true →
    s.inputs = .word w :: rest → decode w = .ok i →
    (s.phase = .dispatch →
      i ∈ [Instr.qInit, .qDeq, .qPeek, .ctcInit, .ctcSilnow, .faBegin, .faClear, .faPoll, .crcVerify, .ssmInit] →
      step s = .refused .environmentBroken) ∧
      (i = .ssmTxdone → s.txBusy = false → step s = .next { s with inputs := rest, owed := s.owed - 1 }) ∧
      (i = .ssmTxdone → s.answered = true → s.owed = 0 → admittedStep s = .refused .environmentBroken) ∧
      (i ≠ .ssmTxdone ∨ s.answered = false ∨ 0 < s.owed → admittedStep s = step s)

/-- Log 25, the model's own record behind (A3) of R191: no operation itself changes it, and every step keeps that `TX_BUSY` is
set only while an interrupt is owed, so that an interrupt against (A3) always finds `TX_BUSY = 0`. -/
def Obligations.BusyMeansInterruptOwed : Prop :=
  (∀ (i : Instr) (s t : State), exec i s = .next t → t.owed = s.owed ∧ t.answered = s.answered) ∧
    (∀ s t : State, (s.txBusy = true → 0 < s.owed) → step s = .next t → (t.txBusy = true → 0 < t.owed)) ∧
    ∀ s : State, (s.txBusy = true → 0 < s.owed) → breaksA3 .ssmTxdone s = true → s.txBusy = false
end

