-- ==== Sys2Proof/Laws/Config.lean ====
section
/-!
SUPPORT. The widths R9 derives from the sizes: what the search for a rounded-up logarithm finds.
-/

namespace Sys2Proof

/-- The search finds the least exponent that is large enough, if its fuel reaches one. -/
theorem ceilLog2From_isLeast {n : Nat} (fuel k : Nat) (h : n ≤ 2 ^ (k + fuel)) :
    IsLeast { j | k ≤ j ∧ n ≤ 2 ^ j } (ceilLog2From n fuel k) := by
  induction fuel generalizing k with
  | zero => exact ⟨⟨Nat.le_refl _, h⟩, fun _ hj => hj.1⟩
  | succ fuel ih =>
    unfold ceilLog2From
    split
    · exact ⟨⟨Nat.le_refl _, ‹_›⟩, fun _ hj => hj.1⟩
    · rename_i hk
      obtain ⟨hm, hl⟩ := ih (k + 1) (by rwa [Nat.succ_add_eq_add_succ])
      refine ⟨⟨Nat.le_of_succ_le hm.1, hm.2⟩, fun j hj => hl ⟨?_, hj.2⟩⟩
      rcases Nat.lt_or_eq_of_le hj.1 with h' | rfl
      · exact h'
      · exact absurd hj.2 hk

/-- `IDX_W` (R9). -/
theorem Config.idxW_isLeast (c : Config) : IsLeast { k | 1 ≤ k ∧ c.n ≤ 2 ^ k } c.idxW :=
  ceilLog2From_isLeast c.n 1 (Nat.le_of_lt (c.n.lt_two_pow_self.trans_le (Nat.pow_le_pow_right (by omega) (by omega))))

/-- `POS_W` (R9). -/
theorem Config.posW_isLeast (c : Config) : IsLeast { k | c.aduMax + 1 ≤ 2 ^ k } c.posW := by
  have h := ceilLog2From_isLeast (n := c.aduMax + 1) (c.aduMax + 1) 0
    (Nat.le_of_lt (by rw [Nat.zero_add]; exact (c.aduMax + 1).lt_two_pow_self))
  exact ⟨h.1.2, fun _ hj => h.2 ⟨Nat.zero_le _, hj⟩⟩

end Sys2Proof
end

