-- ==== Sys2Proof/Laws/Operands.lean ====
section
/-!
SUPPORT. The packing of a TaggedByte (R90) and of the CRC trailer (R94): each field reads back.
-/

namespace Sys2Proof.Machine

theorem packSlot_toNat (sil gap : Bool) (v : Byte) :
    (packSlot sil gap v).toNat = sil.toNat * 512 + gap.toNat * 256 + v.toNat := by
  have := v.isLt
  unfold packSlot
  rw [BitVec.toNat_append, ← Nat.shiftLeft_add_eq_or_of_lt (BitVec.isLt _), BitVec.toNat_append,
    ← Nat.shiftLeft_add_eq_or_of_lt (BitVec.isLt _)]
  simp only [Nat.shiftLeft_eq, BitVec.toNat_ofBool]
  omega

@[simp] theorem slotGap_packSlot (sil gap : Bool) (v : Byte) : slotGap (packSlot sil gap v) = gap := by
  unfold slotGap packSlot
  rw [BitVec.getLsbD_append, BitVec.getLsbD_append]
  simp

@[simp] theorem slotSil_packSlot (sil gap : Bool) (v : Byte) : slotSil (packSlot sil gap v) = sil := by
  unfold slotSil packSlot
  rw [BitVec.getLsbD_append]
  simp

@[simp] theorem slotValue_packSlot (sil gap : Bool) (v : Byte) : slotValue (packSlot sil gap v) = v := by
  apply BitVec.eq_of_toNat_eq
  have := v.isLt
  simp only [slotValue, BitVec.extractLsb'_toNat, packSlot_toNat]
  cases sil <;> cases gap <;> simp <;> omega

/-- The trailer's two bytes give the CRC back. -/
@[simp] theorem packBytes_trailer (c : CrcWord) : packBytes (c.extractLsb' 8 8) (c.extractLsb' 0 8) = c := by
  apply BitVec.eq_of_toNat_eq
  have := c.isLt
  unfold packBytes
  rw [BitVec.toNat_append, ← Nat.shiftLeft_add_eq_or_of_lt (BitVec.isLt _)]
  simp only [BitVec.extractLsb'_toNat, Nat.shiftLeft_eq, Nat.shiftRight_eq_div_pow]
  omega

/-- Two bytes are determined by the u16 they form. -/
theorem packBytes_inj {a b c d : Byte} : packBytes a b = packBytes c d ↔ a = c ∧ b = d := by
  constructor
  · intro h
    have h1 := congrArg BitVec.toNat h
    unfold packBytes at h1
    rw [BitVec.toNat_append, ← Nat.shiftLeft_add_eq_or_of_lt (BitVec.isLt _), BitVec.toNat_append,
      ← Nat.shiftLeft_add_eq_or_of_lt (BitVec.isLt _)] at h1
    simp only [Nat.shiftLeft_eq] at h1
    have := b.isLt
    have := d.isLt
    exact ⟨BitVec.eq_of_toNat_eq (by omega), BitVec.eq_of_toNat_eq (by omega)⟩
  · rintro ⟨rfl, rfl⟩; rfl

end Sys2Proof.Machine
end

