-- ==== Sys2Proof/Laws/Crc.lean ====
section
/-!
SUPPORT. The CRC as arithmetic: one shift is linear and loses nothing, a block is a fold, and what makes a frame good.
-/

namespace Sys2Proof.Machine

@[simp] theorem crcShift_zero : crcShift 0 = 0 := rfl

theorem crcShift_xor (a b : CrcWord) : crcShift (a ^^^ b) = crcShift a ^^^ crcShift b := by
  have hx : (a ^^^ b).getLsbD 0 = (a.getLsbD 0 ^^ b.getLsbD 0) := by simp
  have hs : (a ^^^ b) >>> 1 = (a >>> 1) ^^^ (b >>> 1) := BitVec.ushiftRight_xor_distrib a b 1
  have hc : (0xA001 : CrcWord) ^^^ 0xA001 = 0 := rfl
  unfold crcShift
  rw [hx, hs]
  cases a.getLsbD 0 <;> cases b.getLsbD 0 <;> simp
  · rw [BitVec.xor_assoc]
  · rw [BitVec.xor_assoc, BitVec.xor_assoc, BitVec.xor_comm (b >>> 1)]
  · rw [BitVec.xor_assoc, ← BitVec.xor_assoc 40961#16, BitVec.xor_comm 40961#16 (b >>> 1), BitVec.xor_assoc (b >>> 1),
      show (40961#16 : CrcWord) ^^^ 40961#16 = 0#16 from rfl, BitVec.xor_zero]

/-- A shift loses nothing: the bit shifted out comes back as bit 15. -/
theorem crcShift_eq_zero {c : CrcWord} (h : crcShift c = 0) : c = 0 := by
  unfold crcShift at h
  have hl := c.isLt
  split at h
  · rename_i h0
    have h1 : c >>> 1 = 0xA001 := by
      have := congrArg (· ^^^ (0xA001 : CrcWord)) h
      simpa [BitVec.xor_assoc] using this
    have h2 := congrArg BitVec.toNat h1
    simp only [BitVec.toNat_ushiftRight, Nat.shiftRight_eq_div_pow] at h2
    change c.toNat / 2 ^ 1 = 40961 at h2
    omega
  · rename_i h0
    have h2 := congrArg BitVec.toNat h
    simp only [BitVec.toNat_ushiftRight, Nat.shiftRight_eq_div_pow] at h2
    change c.toNat / 2 ^ 1 = 0 at h2
    rw [BitVec.getLsbD, Nat.testBit_zero, decide_eq_true_eq] at h0
    exact BitVec.eq_of_toNat_eq (by show c.toNat = 0; omega)

@[simp] theorem crcShifts_zero (k : Nat) : crcShifts k 0 = 0 := by
  induction k with
  | zero => rfl
  | succ k ih => rw [crcShifts, crcShift_zero, ih]

theorem crcShifts_xor (k : Nat) (a b : CrcWord) : crcShifts k (a ^^^ b) = crcShifts k a ^^^ crcShifts k b := by
  induction k generalizing a b with
  | zero => rfl
  | succ k ih => rw [crcShifts, crcShift_xor, ih]; rfl

theorem crcShifts_eq_zero (k : Nat) {c : CrcWord} (h : crcShifts k c = 0) : c = 0 := by
  induction k generalizing c with
  | zero => exact h
  | succ k ih => exact crcShift_eq_zero (ih h)

theorem crcShifts_injective (k : Nat) {a b : CrcWord} (h : crcShifts k a = crcShifts k b) : a = b := by
  have h1 : crcShifts k (a ^^^ b) = 0 := by rw [crcShifts_xor, h, BitVec.xor_self]; rfl
  exact BitVec.xor_eq_zero_iff.1 (crcShifts_eq_zero k h1)

theorem crcShifts_add (j k : Nat) (c : CrcWord) : crcShifts (j + k) c = crcShifts k (crcShifts j c) := by
  induction j generalizing c with
  | zero => simp [crcShifts]
  | succ j ih => rw [show j + 1 + k = (j + k) + 1 by omega, crcShifts, ih]; rfl

/-- The accumulators of two runs stay apart under the same byte. -/
theorem crcUpdate_injective_left {c d : CrcWord} (b : Byte) (h : crcUpdate c b = crcUpdate d b) : c = d := by
  have h1 := crcShifts_injective 8 h
  have h2 := congrArg (· ^^^ b.setWidth 16) h1
  simpa [BitVec.xor_assoc] using h2

/-- Two different bytes drive one accumulator apart. -/
theorem crcUpdate_injective_right {c : CrcWord} {a b : Byte} (h : crcUpdate c a = crcUpdate c b) : a = b := by
  have h1 := crcShifts_injective 8 h
  have h2 := congrArg (c ^^^ ·) h1
  simp only [← BitVec.xor_assoc, BitVec.xor_self, BitVec.zero_xor] at h2
  apply BitVec.eq_of_toNat_eq
  have h3 := congrArg BitVec.toNat h2
  have := a.isLt
  have := b.isLt
  simp at h3
  omega

theorem crcOver_eq_foldl (c : CrcWord) (d : List Byte) : crcOver c d = d.foldl crcUpdate c := by
  induction d generalizing c with
  | nil => rfl
  | cons b d ih => exact ih _

theorem crcOver_append (c : CrcWord) (d e : List Byte) : crcOver c (d ++ e) = crcOver (crcOver c d) e := by
  rw [crcOver_eq_foldl, crcOver_eq_foldl, crcOver_eq_foldl, List.foldl_append]

theorem crcOver_injective {c d : CrcWord} (bs : List Byte) (h : crcOver c bs = crcOver d bs) : c = d := by
  induction bs generalizing c d with
  | nil => exact h
  | cons b bs ih => exact crcUpdate_injective_left b (ih h)

theorem crcReceived_append (m : List Byte) (lo hi : Byte) : crcReceived (m ++ [lo, hi]) = some (packBytes hi lo) := by
  induction m with
  | nil => rfl
  | cons a m ih =>
    cases m with
    | nil => exact ih
    | cons b m => cases m <;> exact ih

/-- What makes a frame good, over its payload and its two trailing bytes. -/
theorem crcGood_append (m : List Byte) (lo hi : Byte) :
    crcGood (m ++ [lo, hi]) = decide (crcOf m = packBytes hi lo) := by
  unfold crcGood
  rw [crcReceived_append]
  simp [eq_comm]

theorem crcReceived_short {f : List Byte} (h : f.length < 2) : crcReceived f = none := by
  rcases f with _ | ⟨a, _ | ⟨b, f⟩⟩
  · rfl
  · rfl
  · simp at h

/-- Fewer than two bytes are never a good frame. -/
theorem crcGood_short {f : List Byte} (h : f.length < 2) : crcGood f = false := by
  simp [crcGood, crcReceived_short h]

/-- A frame of two bytes or more ends in a trailer. -/
theorem exists_trailer {f : List Byte} (h : 2 ≤ f.length) : ∃ m lo hi, f = m ++ [lo, hi] := by
  refine ⟨f.take (f.length - 2), f[f.length - 2], f[f.length - 1], ?_⟩
  apply List.ext_getElem
  · simp; omega
  · intro i h1 h2
    by_cases hi : i < f.length - 2
    · rw [List.getElem_append_left (by simp; omega)]; simp
    · rw [List.getElem_append_right (by simp; omega)]
      simp only [List.length_take, Nat.min_eq_left (show f.length - 2 ≤ f.length by omega)]
      rcases (show i = f.length - 2 ∨ i = f.length - 1 by omega) with rfl | rfl
      · simp
      · simp [show f.length - 1 - (f.length - 2) = 1 by omega]

/-- Eight shifts bring a high byte down. -/
theorem crcShifts_high (b : Byte) : crcShifts 8 (packBytes b 0) = b.setWidth 16 := by
  revert b; decide

theorem packBytes_eq_xor (a b : Byte) : packBytes a b = packBytes a 0 ^^^ b.setWidth 16 := by
  unfold packBytes
  ext i hi
  simp only [BitVec.getElem_xor, BitVec.getElem_append, BitVec.getElem_setWidth]
  split
  · simp [BitVec.getLsbD_eq_getElem, *]
  · have : b.getLsbD i = false := BitVec.getLsbD_of_ge _ _ (by omega)
    simp [this]

end Sys2Proof.Machine
end

