-- ==== Sys2Proof/Laws/Encoding.lean ====
section
/-!
SUPPORT. The two fields of the operation word, and what each operand form reads back.
-/

namespace Sys2Proof

theorem packWord_toNat (op : BitVec 8) (arg : BitVec 16) :
    (packWord op arg).toNat = op.toNat * 65536 + arg.toNat := by
  rw [packWord, BitVec.toNat_append, ← Nat.shiftLeft_add_eq_or_of_lt arg.isLt, Nat.shiftLeft_eq]

theorem opField_toNat (w : OpWord) : (opField w).toNat = w.toNat / 65536 := by
  have := w.isLt
  simp only [opField, BitVec.extractLsb'_toNat, Nat.shiftRight_eq_div_pow]
  omega

theorem argField_toNat (w : OpWord) : (argField w).toNat = w.toNat % 65536 := by
  simp only [argField, BitVec.extractLsb'_toNat, Nat.shiftRight_eq_div_pow]
  omega

@[simp] theorem opField_packWord (op : BitVec 8) (arg : BitVec 16) : opField (packWord op arg) = op := by
  apply BitVec.eq_of_toNat_eq
  have := arg.isLt
  rw [opField_toNat, packWord_toNat]
  omega

@[simp] theorem argField_packWord (op : BitVec 8) (arg : BitVec 16) : argField (packWord op arg) = arg := by
  apply BitVec.eq_of_toNat_eq
  have := arg.isLt
  rw [argField_toNat, packWord_toNat]
  omega

theorem packWord_fields (w : OpWord) : packWord (opField w) (argField w) = w := by
  apply BitVec.eq_of_toNat_eq
  rw [packWord_toNat, opField_toNat, argField_toNat]
  omega

theorem encode_toNat (i : Instr) : (encode i).toNat = (opNumber i).toNat * 65536 + (argOf i).toNat := packWord_toNat _ _

@[simp] theorem noOperand_zero (i : Instr) : noOperand i 0#16 = .ok i := rfl

@[simp] theorem byteOperand_setWidth (f : Byte → Instr) (v : Byte) : byteOperand f (v.setWidth 16) = .ok (f v) := by
  have h : (v.setWidth 16).extractLsb' 8 8 = 0 := by
    apply BitVec.eq_of_toNat_eq
    have := v.isLt
    simp [Nat.shiftRight_eq_div_pow]; omega
  have h' : (v.setWidth 16).extractLsb' 0 8 = v := by
    apply BitVec.eq_of_toNat_eq
    have := v.isLt
    simp; omega
  rw [byteOperand, if_pos h, h']

@[simp] theorem slotOperand_setWidth (f : Slot → Instr) (v : Slot) : slotOperand f (v.setWidth 16) = .ok (f v) := by
  have h : (v.setWidth 16).extractLsb' 10 6 = 0 := by
    apply BitVec.eq_of_toNat_eq
    have := v.isLt
    simp [Nat.shiftRight_eq_div_pow]; omega
  have h' : (v.setWidth 16).extractLsb' 0 10 = v := by
    apply BitVec.eq_of_toNat_eq
    have := v.isLt
    simp; omega
  rw [slotOperand, if_pos h, h']

@[simp] theorem bitOperand_ofBool (f : Bool → Instr) (b : Bool) :
    bitOperand f ((BitVec.ofBool b).setWidth 16) = .ok (f b) := by
  cases b <;> rfl

theorem tickOperand_of_ne (f : BitVec 16 → Instr) {k : BitVec 16} (h : k ≠ 0) : tickOperand f k = .ok (f k) := if_neg h

/-! What an operand form that reads says of the argument it read. -/

theorem noOperand_eq_ok {i j : Instr} {arg : BitVec 16} (h : noOperand i arg = .ok j) : arg = 0 ∧ j = i := by
  unfold noOperand at h
  split at h
  · cases h; exact ⟨‹_›, rfl⟩
  · cases h

theorem byteOperand_eq_ok {f : Byte → Instr} {j : Instr} {arg : BitVec 16} (h : byteOperand f arg = .ok j) :
    ∃ v, j = f v ∧ arg = v.setWidth 16 := by
  unfold byteOperand at h
  split at h
  · rename_i ha
    cases h
    refine ⟨_, rfl, BitVec.eq_of_toNat_eq ?_⟩
    have := congrArg BitVec.toNat ha
    have := arg.isLt
    simp [Nat.shiftRight_eq_div_pow] at *
    omega
  · cases h

theorem slotOperand_eq_ok {f : Slot → Instr} {j : Instr} {arg : BitVec 16} (h : slotOperand f arg = .ok j) :
    ∃ v, j = f v ∧ arg = v.setWidth 16 := by
  unfold slotOperand at h
  split at h
  · rename_i ha
    cases h
    refine ⟨_, rfl, BitVec.eq_of_toNat_eq ?_⟩
    have := congrArg BitVec.toNat ha
    have := arg.isLt
    simp [Nat.shiftRight_eq_div_pow] at *
    omega
  · cases h

theorem bitOperand_eq_ok {f : Bool → Instr} {j : Instr} {arg : BitVec 16} (h : bitOperand f arg = .ok j) :
    ∃ b, j = f b ∧ arg = (BitVec.ofBool b).setWidth 16 := by
  unfold bitOperand at h
  split at h
  · rename_i ha
    cases h
    refine ⟨_, rfl, ?_⟩
    have h2 : arg.toNat < 2 := by
      have h1 := congrArg BitVec.toNat ha
      have := arg.isLt
      rw [BitVec.extractLsb'_toNat, Nat.shiftRight_eq_div_pow] at h1
      change arg.toNat / 2 ^ 1 % 2 ^ 15 = 0 at h1
      omega
    rcases (show arg.toNat = 0 ∨ arg.toNat = 1 by omega) with h3 | h3
    · obtain rfl : arg = 0#16 := BitVec.eq_of_toNat_eq h3
      rfl
    · obtain rfl : arg = 1#16 := BitVec.eq_of_toNat_eq h3
      rfl
  · cases h

theorem tickOperand_eq_ok {f : BitVec 16 → Instr} {j : Instr} {arg : BitVec 16} (h : tickOperand f arg = .ok j) :
    j = f arg ∧ arg ≠ 0 := by
  unfold tickOperand at h
  split at h
  · cases h
  · cases h; exact ⟨rfl, ‹_›⟩

end Sys2Proof
end

