-- ==== Sys2Proof/Laws/Memory.lean ====
section
/-!
SUPPORT. The laws of the two storage spaces: what a read gives after a write, and that a write keeps the canonical form.
-/

namespace Sys2Proof.Machine

variable {w : Nat}

@[simp] theorem memRead_nil (a : Nat) : memRead ([] : Memory w) a = none := rfl

/-- A read after a write to the same index gives the value written. -/
@[simp] theorem memRead_memWrite_self (m : Memory w) (a : Nat) (v : BitVec w) :
    memRead (memWrite m a v) a = some v := by
  induction m with
  | nil => simp [memWrite, memRead]
  | cons e m ih =>
    obtain ⟨b, u⟩ := e
    simp only [memWrite]
    split
    · simp [memRead]
    · split
      · simp [memRead]
      · rename_i h; simp [memRead, h, ih]

/-- A write leaves every other index alone. -/
theorem memRead_memWrite_ne (m : Memory w) {a b : Nat} (v : BitVec w) (h : b ≠ a) :
    memRead (memWrite m a v) b = memRead m b := by
  induction m with
  | nil => simp [memWrite, memRead, h]
  | cons e m ih =>
    obtain ⟨c, u⟩ := e
    simp only [memWrite]
    split
    · simp [memRead, h]
    · split
      · rename_i hac; subst hac; simp [memRead, h]
      · simp [memRead, ih]

theorem memRead_memWrite (m : Memory w) (a b : Nat) (v : BitVec w) :
    memRead (memWrite m a v) b = if b = a then some v else memRead m b := by
  split
  · rename_i h; subst h; exact memRead_memWrite_self m b v
  · rename_i h; exact memRead_memWrite_ne m v h

/-- The entries after a write: the new one, and old ones. -/
theorem mem_memWrite (m : Memory w) (a : Nat) (v : BitVec w) (e : Nat × BitVec w) :
    e ∈ memWrite m a v → e = (a, v) ∨ e ∈ m := by
  induction m with
  | nil => simp [memWrite]
  | cons c m ih =>
    obtain ⟨b, u⟩ := c
    simp only [memWrite]
    split
    · simp
    · split
      · simp only [List.mem_cons]; tauto
      · simp only [List.mem_cons]
        rintro (rfl | h)
        · exact .inr (.inl rfl)
        · exact (ih h).imp_right .inr

/-- A write keeps the canonical form. -/
theorem memWrite_wf (m : Memory w) (a : Nat) (v : BitVec w) (h : Memory.wf m) : Memory.wf (memWrite m a v) := by
  induction m with
  | nil => simp [memWrite, Memory.wf]
  | cons c m ih =>
    obtain ⟨b, u⟩ := c
    obtain ⟨hb, hm⟩ := List.pairwise_cons.1 h
    simp only [memWrite]
    split
    · rename_i hab
      refine List.pairwise_cons.2 ⟨?_, h⟩
      simp only [List.mem_cons]
      rintro e (rfl | he)
      · exact hab
      · exact hab.trans (hb e he)
    · split
      · rename_i hab; subst hab; exact List.pairwise_cons.2 ⟨hb, hm⟩
      · refine List.pairwise_cons.2 ⟨fun e he => ?_, ih hm⟩
        rcases mem_memWrite m a v e he with rfl | he'
        · show b < a; omega
        · exact hb e he'

/-- Indices below a bound stay below it. -/
theorem memWrite_indices (m : Memory w) {a k : Nat} (v : BitVec w) (ha : a < k) (h : ∀ e ∈ m, e.1 < k) :
    ∀ e ∈ memWrite m a v, e.1 < k := by
  intro e he
  rcases mem_memWrite m a v e he with rfl | he'
  · exact ha
  · exact h e he'

/-- Equal reads from canonical spaces are equal spaces: equal memories are equal data. -/
theorem memRead_none_of_lt (m : Memory w) (a : Nat) (h : ∀ e ∈ m, a < e.1) : memRead m a = none := by
  induction m with
  | nil => rfl
  | cons e m ih =>
    have := h e (by simp)
    simp only [memRead]
    rw [if_neg (by omega)]
    exact ih fun e' he' => h e' (by simp [he'])

theorem Memory.ext_of_reads (m m' : Memory w) (h : Memory.wf m) (h' : Memory.wf m')
    (hr : ∀ a, memRead m a = memRead m' a) : m = m' := by
  induction m generalizing m' with
  | nil =>
    cases m' with
    | nil => rfl
    | cons e m' => have := hr e.1; simp [memRead] at this
  | cons e m ih =>
    cases m' with
    | nil => have := hr e.1; simp [memRead] at this
    | cons e' m' =>
      obtain ⟨a, v⟩ := e
      obtain ⟨a', v'⟩ := e'
      obtain ⟨hb, hm⟩ := List.pairwise_cons.1 h
      obtain ⟨hb', hm'⟩ := List.pairwise_cons.1 h'
      have haa : a = a' := by
        rcases lt_trichotomy a a' with hlt | heq | hgt
        · have := hr a
          have hn := memRead_none_of_lt m' a (fun e he => hlt.trans (hb' e he))
          simp [memRead, hn, Nat.ne_of_lt hlt] at this
        · exact heq
        · have := hr a'
          have hn := memRead_none_of_lt m a' (fun e he => hgt.trans (hb e he))
          simp [memRead, hn, Nat.ne_of_lt hgt] at this
      subst haa
      have hv : v = v' := by have := hr a; simpa [memRead] using this
      subst hv
      congr 1
      refine ih m' hm hm' fun b => ?_
      by_cases hba : b = a
      · subst hba
        rw [memRead_none_of_lt m b hb, memRead_none_of_lt m' b hb']
      · have := hr b
        simpa [memRead, hba] using this

end Sys2Proof.Machine
end

