-- ==== Sys2Proof/Laws/Ring.lean ====
section
/-!
SUPPORT. Index arithmetic of the ring (R16, R126): in closed form `next^k(i) = (i + k) mod N`, and the list of stored
indices under the two moves.
-/

namespace Sys2Proof.Machine

variable {n i a b k : Nat}

theorem ringNext_lt (h : i < n) : ringNext n i < n := by
  unfold ringNext; split <;> omega

theorem ringNext_eq_mod (h : i < n) : ringNext n i = (i + 1) % n := by
  unfold ringNext
  split
  · rename_i he; rw [he, Nat.mod_self]
  · rw [Nat.mod_eq_of_lt (by omega)]

theorem ringDist_lt (ha : a < n) (hb : b < n) : ringDist n a b < n := by
  unfold ringDist; split <;> omega

theorem ringDist_eq_mod (ha : a < n) (hb : b < n) : ringDist n a b = (a + n - b) % n := by
  unfold ringDist
  split
  · have : a + n - b = (a - b) + n := by omega
    rw [this, Nat.add_mod_right, Nat.mod_eq_of_lt (by omega)]
  · rw [Nat.mod_eq_of_lt (by omega)]

@[simp] theorem ringDist_self : ringDist n a a = 0 := by simp [ringDist]

theorem ringDist_eq_zero (hb : b < n) : ringDist n a b = 0 ↔ a = b := by
  unfold ringDist; split <;> omega

/-- Moving the head away by one adds one, while the ring is not full. -/
theorem ringDist_next_head (hb : b < n) (h : ringNext n a ≠ b) :
    ringDist n (ringNext n a) b = ringDist n a b + 1 := by
  unfold ringDist ringNext at *; split_ifs at h ⊢ <;> omega

/-- Moving the tail by one takes one away, while the ring is not empty. -/
theorem ringDist_next_tail (ha : a < n) (hb : b < n) (h : a ≠ b) :
    ringDist n a b = ringDist n a (ringNext n b) + 1 := by
  unfold ringDist ringNext; split_ifs <;> omega

/-- Full means `N - 1` stored elements (R25 I2). -/
theorem ringNext_eq_iff_full (ha : a < n) (hb : b < n) : ringNext n a = b ↔ ringDist n a b = n - 1 := by
  unfold ringDist ringNext; split <;> split <;> omega

@[simp] theorem ringIndices_zero : ringIndices n i 0 = [] := rfl

@[simp] theorem ringIndices_succ : ringIndices n i (k + 1) = i :: ringIndices n (ringNext n i) k := rfl

@[simp] theorem ringIndices_length : (ringIndices n i k).length = k := by
  induction k generalizing i with
  | zero => rfl
  | succ k ih => simp [ih]

theorem ringNext_add_mod (k : Nat) (h : i < n) : (ringNext n i + k) % n = (i + (k + 1)) % n := by
  rw [ringNext_eq_mod h, Nat.add_mod, Nat.mod_mod, ← Nat.add_mod]
  congr 1; omega

/-- The stored indices in closed form. -/
theorem ringIndices_getElem? (h : i < n) (j : Nat) (hj : j < k) : (ringIndices n i k)[j]? = some ((i + j) % n) := by
  induction k generalizing i j with
  | zero => omega
  | succ k ih =>
    cases j with
    | zero => simp [Nat.mod_eq_of_lt h]
    | succ j =>
      simp only [ringIndices_succ, List.getElem?_cons_succ]
      rw [ih (ringNext_lt h) j (by omega), ringNext_add_mod j h]

/-- Appending the next free index. -/
theorem ringIndices_append (h : i < n) : ringIndices n i (k + 1) = ringIndices n i k ++ [(i + k) % n] := by
  induction k generalizing i with
  | zero => simp [Nat.mod_eq_of_lt h]
  | succ k ih =>
    rw [ringIndices_succ, ih (ringNext_lt h), ringIndices_succ, List.cons_append, ringNext_add_mod k h]

theorem mem_ringIndices (h : i < n) : a ∈ ringIndices n i k ↔ ∃ j < k, a = (i + j) % n := by
  rw [List.mem_iff_getElem?]
  constructor
  · rintro ⟨j, hj⟩
    by_cases hjk : j < k
    · rw [ringIndices_getElem? h j hjk] at hj
      exact ⟨j, hjk, (Option.some.inj hj).symm⟩
    · rw [List.getElem?_eq_none (by simpa using hjk)] at hj
      cases hj
  · rintro ⟨j, hj, rfl⟩
    exact ⟨j, ringIndices_getElem? h j hj⟩

/-- The head is the index after the last stored one. -/
theorem tail_add_dist (ha : a < n) (hb : b < n) : (b + ringDist n a b) % n = a := by
  unfold ringDist
  split
  · rw [show b + (a - b) = a by omega, Nat.mod_eq_of_lt ha]
  · rw [show b + (a + n - b) = a + n by omega, Nat.add_mod_right, Nat.mod_eq_of_lt ha]

/-- The slot the producer writes holds no stored element (R71). -/
theorem head_not_stored (ha : a < n) (hb : b < n) : a ∉ ringIndices n b (ringDist n a b) := by
  rw [mem_ringIndices hb]
  rintro ⟨j, hj, he⟩
  unfold ringDist at hj
  by_cases hjn : b + j < n
  · rw [Nat.mod_eq_of_lt hjn] at he; split at hj <;> omega
  · have hjn' : b + j < n + n := by split at hj <;> omega
    rw [Nat.mod_eq_sub_mod (by omega), Nat.mod_eq_of_lt (by omega)] at he
    split at hj <;> omega

theorem ringIndices_lt (h : i < n) : ∀ a ∈ ringIndices n i k, a < n := by
  intro a ha
  obtain ⟨j, -, rfl⟩ := (mem_ringIndices h).1 ha
  exact Nat.mod_lt _ (by omega)

end Sys2Proof.Machine
end

