-- ==== Sys2Proof/Laws/State.lean ====
section
/-!
SUPPORT. One lemma per field per named update of the state, each true by rfl, so that no later proof unfolds an update.
-/

namespace Sys2Proof.Machine

variable (s : State)

@[simp] theorem raiseDrop_slot (e : DropEvent) : (raiseDrop e s).slot = s.slot := rfl
@[simp] theorem raiseDrop_head (e : DropEvent) : (raiseDrop e s).head = s.head := rfl
@[simp] theorem raiseDrop_tail (e : DropEvent) : (raiseDrop e s).tail = s.tail := rfl
@[simp] theorem raiseDrop_t15 (e : DropEvent) : (raiseDrop e s).t15 = s.t15 := rfl
@[simp] theorem raiseDrop_t35 (e : DropEvent) : (raiseDrop e s).t35 = s.t35 := rfl
@[simp] theorem raiseDrop_cnt (e : DropEvent) : (raiseDrop e s).cnt = s.cnt := rfl
@[simp] theorem raiseDrop_gap (e : DropEvent) : (raiseDrop e s).gap = s.gap := rfl
@[simp] theorem raiseDrop_sil (e : DropEvent) : (raiseDrop e s).sil = s.sil := rfl
@[simp] theorem raiseDrop_run (e : DropEvent) : (raiseDrop e s).run = s.run := rfl
@[simp] theorem raiseDrop_rxen (e : DropEvent) : (raiseDrop e s).rxen = s.rxen := rfl
@[simp] theorem raiseDrop_buf (e : DropEvent) : (raiseDrop e s).buf = s.buf := rfl
@[simp] theorem raiseDrop_pos (e : DropEvent) : (raiseDrop e s).pos = s.pos := rfl
@[simp] theorem raiseDrop_phase (e : DropEvent) : (raiseDrop e s).phase = s.phase := rfl
@[simp] theorem raiseDrop_stopSil (e : DropEvent) : (raiseDrop e s).stopSil = s.stopSil := rfl
@[simp] theorem raiseDrop_emptied (e : DropEvent) : (raiseDrop e s).emptied = s.emptied := rfl
@[simp] theorem raiseDrop_session (e : DropEvent) : (raiseDrop e s).session = s.session := rfl
@[simp] theorem raiseDrop_txBusy (e : DropEvent) : (raiseDrop e s).txBusy = s.txBusy := rfl
@[simp] theorem raiseDrop_cfg (e : DropEvent) : (raiseDrop e s).cfg = s.cfg := rfl
@[simp] theorem raiseDrop_inputs (e : DropEvent) : (raiseDrop e s).inputs = s.inputs := rfl
@[simp] theorem raiseDrop_crcAcc (e : DropEvent) : (raiseDrop e s).crcAcc = s.crcAcc := rfl
@[simp] theorem raiseDrop_result (e : DropEvent) : (raiseDrop e s).result = s.result := rfl
@[simp] theorem raiseDrop_owed (e : DropEvent) : (raiseDrop e s).owed = s.owed := rfl
@[simp] theorem raiseDrop_answered (e : DropEvent) : (raiseDrop e s).answered = s.answered := rfl
@[simp] theorem raiseDrop_drops (e : DropEvent) : (raiseDrop e s).drops = s.drops ++ [e] := rfl
@[simp] theorem raiseDrop_outputs (e : DropEvent) : (raiseDrop e s).outputs = s.outputs := rfl

@[simp] theorem emitOutput_slot (o : Output) : (emitOutput o s).slot = s.slot := rfl
@[simp] theorem emitOutput_head (o : Output) : (emitOutput o s).head = s.head := rfl
@[simp] theorem emitOutput_tail (o : Output) : (emitOutput o s).tail = s.tail := rfl
@[simp] theorem emitOutput_t15 (o : Output) : (emitOutput o s).t15 = s.t15 := rfl
@[simp] theorem emitOutput_t35 (o : Output) : (emitOutput o s).t35 = s.t35 := rfl
@[simp] theorem emitOutput_cnt (o : Output) : (emitOutput o s).cnt = s.cnt := rfl
@[simp] theorem emitOutput_gap (o : Output) : (emitOutput o s).gap = s.gap := rfl
@[simp] theorem emitOutput_sil (o : Output) : (emitOutput o s).sil = s.sil := rfl
@[simp] theorem emitOutput_run (o : Output) : (emitOutput o s).run = s.run := rfl
@[simp] theorem emitOutput_rxen (o : Output) : (emitOutput o s).rxen = s.rxen := rfl
@[simp] theorem emitOutput_buf (o : Output) : (emitOutput o s).buf = s.buf := rfl
@[simp] theorem emitOutput_pos (o : Output) : (emitOutput o s).pos = s.pos := rfl
@[simp] theorem emitOutput_phase (o : Output) : (emitOutput o s).phase = s.phase := rfl
@[simp] theorem emitOutput_stopSil (o : Output) : (emitOutput o s).stopSil = s.stopSil := rfl
@[simp] theorem emitOutput_emptied (o : Output) : (emitOutput o s).emptied = s.emptied := rfl
@[simp] theorem emitOutput_session (o : Output) : (emitOutput o s).session = s.session := rfl
@[simp] theorem emitOutput_txBusy (o : Output) : (emitOutput o s).txBusy = s.txBusy := rfl
@[simp] theorem emitOutput_cfg (o : Output) : (emitOutput o s).cfg = s.cfg := rfl
@[simp] theorem emitOutput_inputs (o : Output) : (emitOutput o s).inputs = s.inputs := rfl
@[simp] theorem emitOutput_crcAcc (o : Output) : (emitOutput o s).crcAcc = s.crcAcc := rfl
@[simp] theorem emitOutput_result (o : Output) : (emitOutput o s).result = s.result := rfl
@[simp] theorem emitOutput_owed (o : Output) : (emitOutput o s).owed = s.owed := rfl
@[simp] theorem emitOutput_answered (o : Output) : (emitOutput o s).answered = s.answered := rfl
@[simp] theorem emitOutput_drops (o : Output) : (emitOutput o s).drops = s.drops := rfl
@[simp] theorem emitOutput_outputs (o : Output) : (emitOutput o s).outputs = s.outputs ++ [o] := rfl

@[simp] theorem returnResult_slot (r : OpResult) : (returnResult r s).slot = s.slot := rfl
@[simp] theorem returnResult_head (r : OpResult) : (returnResult r s).head = s.head := rfl
@[simp] theorem returnResult_tail (r : OpResult) : (returnResult r s).tail = s.tail := rfl
@[simp] theorem returnResult_t15 (r : OpResult) : (returnResult r s).t15 = s.t15 := rfl
@[simp] theorem returnResult_t35 (r : OpResult) : (returnResult r s).t35 = s.t35 := rfl
@[simp] theorem returnResult_cnt (r : OpResult) : (returnResult r s).cnt = s.cnt := rfl
@[simp] theorem returnResult_gap (r : OpResult) : (returnResult r s).gap = s.gap := rfl
@[simp] theorem returnResult_sil (r : OpResult) : (returnResult r s).sil = s.sil := rfl
@[simp] theorem returnResult_run (r : OpResult) : (returnResult r s).run = s.run := rfl
@[simp] theorem returnResult_rxen (r : OpResult) : (returnResult r s).rxen = s.rxen := rfl
@[simp] theorem returnResult_buf (r : OpResult) : (returnResult r s).buf = s.buf := rfl
@[simp] theorem returnResult_pos (r : OpResult) : (returnResult r s).pos = s.pos := rfl
@[simp] theorem returnResult_phase (r : OpResult) : (returnResult r s).phase = s.phase := rfl
@[simp] theorem returnResult_stopSil (r : OpResult) : (returnResult r s).stopSil = s.stopSil := rfl
@[simp] theorem returnResult_emptied (r : OpResult) : (returnResult r s).emptied = s.emptied := rfl
@[simp] theorem returnResult_session (r : OpResult) : (returnResult r s).session = s.session := rfl
@[simp] theorem returnResult_txBusy (r : OpResult) : (returnResult r s).txBusy = s.txBusy := rfl
@[simp] theorem returnResult_cfg (r : OpResult) : (returnResult r s).cfg = s.cfg := rfl
@[simp] theorem returnResult_inputs (r : OpResult) : (returnResult r s).inputs = s.inputs := rfl
@[simp] theorem returnResult_crcAcc (r : OpResult) : (returnResult r s).crcAcc = s.crcAcc := rfl
@[simp] theorem returnResult_result (r : OpResult) : (returnResult r s).result = r := rfl
@[simp] theorem returnResult_owed (r : OpResult) : (returnResult r s).owed = s.owed := rfl
@[simp] theorem returnResult_answered (r : OpResult) : (returnResult r s).answered = s.answered := rfl
@[simp] theorem returnResult_drops (r : OpResult) : (returnResult r s).drops = s.drops := rfl
@[simp] theorem returnResult_outputs (r : OpResult) : (returnResult r s).outputs = s.outputs := rfl

@[simp] theorem resetQueue_slot : (resetQueue s).slot = s.slot := rfl
@[simp] theorem resetQueue_head : (resetQueue s).head = 0 := rfl
@[simp] theorem resetQueue_tail : (resetQueue s).tail = 0 := rfl
@[simp] theorem resetQueue_t15 : (resetQueue s).t15 = s.t15 := rfl
@[simp] theorem resetQueue_t35 : (resetQueue s).t35 = s.t35 := rfl
@[simp] theorem resetQueue_cnt : (resetQueue s).cnt = s.cnt := rfl
@[simp] theorem resetQueue_gap : (resetQueue s).gap = s.gap := rfl
@[simp] theorem resetQueue_sil : (resetQueue s).sil = s.sil := rfl
@[simp] theorem resetQueue_run : (resetQueue s).run = s.run := rfl
@[simp] theorem resetQueue_rxen : (resetQueue s).rxen = s.rxen := rfl
@[simp] theorem resetQueue_buf : (resetQueue s).buf = s.buf := rfl
@[simp] theorem resetQueue_pos : (resetQueue s).pos = s.pos := rfl
@[simp] theorem resetQueue_phase : (resetQueue s).phase = s.phase := rfl
@[simp] theorem resetQueue_stopSil : (resetQueue s).stopSil = s.stopSil := rfl
@[simp] theorem resetQueue_emptied : (resetQueue s).emptied = s.emptied := rfl
@[simp] theorem resetQueue_session : (resetQueue s).session = s.session := rfl
@[simp] theorem resetQueue_txBusy : (resetQueue s).txBusy = s.txBusy := rfl
@[simp] theorem resetQueue_cfg : (resetQueue s).cfg = s.cfg := rfl
@[simp] theorem resetQueue_inputs : (resetQueue s).inputs = s.inputs := rfl
@[simp] theorem resetQueue_crcAcc : (resetQueue s).crcAcc = s.crcAcc := rfl
@[simp] theorem resetQueue_result : (resetQueue s).result = s.result := rfl
@[simp] theorem resetQueue_owed : (resetQueue s).owed = s.owed := rfl
@[simp] theorem resetQueue_answered : (resetQueue s).answered = s.answered := rfl
@[simp] theorem resetQueue_drops : (resetQueue s).drops = s.drops := rfl
@[simp] theorem resetQueue_outputs : (resetQueue s).outputs = s.outputs := rfl

@[simp] theorem clearCandidate_slot : (clearCandidate s).slot = s.slot := rfl
@[simp] theorem clearCandidate_head : (clearCandidate s).head = s.head := rfl
@[simp] theorem clearCandidate_tail : (clearCandidate s).tail = s.tail := rfl
@[simp] theorem clearCandidate_t15 : (clearCandidate s).t15 = s.t15 := rfl
@[simp] theorem clearCandidate_t35 : (clearCandidate s).t35 = s.t35 := rfl
@[simp] theorem clearCandidate_cnt : (clearCandidate s).cnt = s.cnt := rfl
@[simp] theorem clearCandidate_gap : (clearCandidate s).gap = s.gap := rfl
@[simp] theorem clearCandidate_sil : (clearCandidate s).sil = s.sil := rfl
@[simp] theorem clearCandidate_run : (clearCandidate s).run = s.run := rfl
@[simp] theorem clearCandidate_rxen : (clearCandidate s).rxen = s.rxen := rfl
@[simp] theorem clearCandidate_buf : (clearCandidate s).buf = s.buf := rfl
@[simp] theorem clearCandidate_pos : (clearCandidate s).pos = 0 := rfl
@[simp] theorem clearCandidate_phase : (clearCandidate s).phase = s.phase := rfl
@[simp] theorem clearCandidate_stopSil : (clearCandidate s).stopSil = s.stopSil := rfl
@[simp] theorem clearCandidate_emptied : (clearCandidate s).emptied = s.emptied := rfl
@[simp] theorem clearCandidate_session : (clearCandidate s).session = s.session := rfl
@[simp] theorem clearCandidate_txBusy : (clearCandidate s).txBusy = s.txBusy := rfl
@[simp] theorem clearCandidate_cfg : (clearCandidate s).cfg = s.cfg := rfl
@[simp] theorem clearCandidate_inputs : (clearCandidate s).inputs = s.inputs := rfl
@[simp] theorem clearCandidate_crcAcc : (clearCandidate s).crcAcc = s.crcAcc := rfl
@[simp] theorem clearCandidate_result : (clearCandidate s).result = s.result := rfl
@[simp] theorem clearCandidate_owed : (clearCandidate s).owed = s.owed := rfl
@[simp] theorem clearCandidate_answered : (clearCandidate s).answered = s.answered := rfl
@[simp] theorem clearCandidate_drops : (clearCandidate s).drops = s.drops := rfl
@[simp] theorem clearCandidate_outputs : (clearCandidate s).outputs = s.outputs := rfl

@[simp] theorem restartTimer_slot : (restartTimer s).slot = s.slot := rfl
@[simp] theorem restartTimer_head : (restartTimer s).head = s.head := rfl
@[simp] theorem restartTimer_tail : (restartTimer s).tail = s.tail := rfl
@[simp] theorem restartTimer_t15 : (restartTimer s).t15 = s.t15 := rfl
@[simp] theorem restartTimer_t35 : (restartTimer s).t35 = s.t35 := rfl
@[simp] theorem restartTimer_cnt : (restartTimer s).cnt = 0 := rfl
@[simp] theorem restartTimer_gap : (restartTimer s).gap = false := rfl
@[simp] theorem restartTimer_sil : (restartTimer s).sil = false := rfl
@[simp] theorem restartTimer_run : (restartTimer s).run = s.run := rfl
@[simp] theorem restartTimer_rxen : (restartTimer s).rxen = s.rxen := rfl
@[simp] theorem restartTimer_buf : (restartTimer s).buf = s.buf := rfl
@[simp] theorem restartTimer_pos : (restartTimer s).pos = s.pos := rfl
@[simp] theorem restartTimer_phase : (restartTimer s).phase = s.phase := rfl
@[simp] theorem restartTimer_stopSil : (restartTimer s).stopSil = s.stopSil := rfl
@[simp] theorem restartTimer_emptied : (restartTimer s).emptied = s.emptied := rfl
@[simp] theorem restartTimer_session : (restartTimer s).session = s.session := rfl
@[simp] theorem restartTimer_txBusy : (restartTimer s).txBusy = s.txBusy := rfl
@[simp] theorem restartTimer_cfg : (restartTimer s).cfg = s.cfg := rfl
@[simp] theorem restartTimer_inputs : (restartTimer s).inputs = s.inputs := rfl
@[simp] theorem restartTimer_crcAcc : (restartTimer s).crcAcc = s.crcAcc := rfl
@[simp] theorem restartTimer_result : (restartTimer s).result = s.result := rfl
@[simp] theorem restartTimer_owed : (restartTimer s).owed = s.owed := rfl
@[simp] theorem restartTimer_answered : (restartTimer s).answered = s.answered := rfl
@[simp] theorem restartTimer_drops : (restartTimer s).drops = s.drops := rfl
@[simp] theorem restartTimer_outputs : (restartTimer s).outputs = s.outputs := rfl

@[simp] theorem beginPass_slot : (beginPass s).slot = s.slot := rfl
@[simp] theorem beginPass_head : (beginPass s).head = s.head := rfl
@[simp] theorem beginPass_tail : (beginPass s).tail = s.tail := rfl
@[simp] theorem beginPass_t15 : (beginPass s).t15 = s.t15 := rfl
@[simp] theorem beginPass_t35 : (beginPass s).t35 = s.t35 := rfl
@[simp] theorem beginPass_cnt : (beginPass s).cnt = s.cnt := rfl
@[simp] theorem beginPass_gap : (beginPass s).gap = s.gap := rfl
@[simp] theorem beginPass_sil : (beginPass s).sil = s.sil := rfl
@[simp] theorem beginPass_run : (beginPass s).run = s.run := rfl
@[simp] theorem beginPass_rxen : (beginPass s).rxen = s.rxen := rfl
@[simp] theorem beginPass_buf : (beginPass s).buf = s.buf := rfl
@[simp] theorem beginPass_pos : (beginPass s).pos = s.pos := rfl
@[simp] theorem beginPass_phase : (beginPass s).phase = .scan := rfl
@[simp] theorem beginPass_stopSil : (beginPass s).stopSil = false := rfl
@[simp] theorem beginPass_emptied : (beginPass s).emptied = false := rfl
@[simp] theorem beginPass_session : (beginPass s).session = s.session := rfl
@[simp] theorem beginPass_txBusy : (beginPass s).txBusy = s.txBusy := rfl
@[simp] theorem beginPass_cfg : (beginPass s).cfg = s.cfg := rfl
@[simp] theorem beginPass_inputs : (beginPass s).inputs = s.inputs := rfl
@[simp] theorem beginPass_crcAcc : (beginPass s).crcAcc = s.crcAcc := rfl
@[simp] theorem beginPass_result : (beginPass s).result = s.result := rfl
@[simp] theorem beginPass_owed : (beginPass s).owed = s.owed := rfl
@[simp] theorem beginPass_answered : (beginPass s).answered = s.answered := rfl
@[simp] theorem beginPass_drops : (beginPass s).drops = s.drops := rfl
@[simp] theorem beginPass_outputs : (beginPass s).outputs = s.outputs := rfl

end Sys2Proof.Machine
end

