-- ==== Sys2Proof/Laws/Ops.lean ====
section
/-!
SUPPORT. What each shared operation can do: sequencing, the storage accesses, the queue operations and the candidate.
-/

namespace Sys2Proof.Machine

variable {s t : State}

@[simp] theorem andThen_next {α β : Type} (a : α) (k : α → Answer β) : andThen (.next a) k = k a := rfl

@[simp] theorem andThen_fault {α β : Type} (r : Fault) (k : α → Answer β) :
    andThen (.fault r : Answer α) k = .fault r := rfl

@[simp] theorem andThen_refused {α β : Type} (r : Refusal) (k : α → Answer β) :
    andThen (.refused r : Answer α) k = .refused r := rfl

/-- A sequence answers a value exactly where both parts do. -/
theorem andThen_eq_next {α β : Type} {o : Answer α} {k : α → Answer β} {b : β} :
    andThen o k = .next b ↔ ∃ a, o = .next a ∧ k a = .next b := by
  cases o <;> simp [andThen]

theorem andThen_assoc {α β γ : Type} (o : Answer α) (f : α → Answer β) (g : β → Answer γ) :
    andThen (andThen o f) g = andThen o fun a => andThen (f a) g := by
  cases o <;> rfl

theorem requirePhase_of_eq {p : Phase} {o : Answer State} (h : s.phase = p) : requirePhase p s o = o := if_pos h

theorem requirePhase_of_ne {p : Phase} {o : Answer State} (h : s.phase ≠ p) :
    requirePhase p s o = .refused .phaseMismatch := if_neg h

theorem requirePhase_eq_next {p : Phase} {o : Answer State} :
    requirePhase p s o = .next t ↔ s.phase = p ∧ o = .next t := by
  unfold requirePhase; split <;> simp [*]

/-! ## Storage -/

theorem slotRead_eq_next {i : Nat} {v : Slot} :
    slotRead s i = .next v ↔ i < s.cfg.n ∧ memRead s.slot i = some v := by
  unfold slotRead
  split
  · cases h : memRead s.slot i <;> simp_all
  · simp_all

theorem slotWrite_of_lt {i : Nat} {v : Slot} (h : i < s.cfg.n) :
    slotWrite s i v = .next { s with slot := memWrite s.slot i v } := if_pos h

theorem bufRead_eq_next {i : Nat} {v : Byte} :
    bufRead s i = .next v ↔ i < s.cfg.aduMax ∧ memRead s.buf i = some v := by
  unfold bufRead
  split
  · cases h : memRead s.buf i <;> simp_all
  · simp_all

theorem bufWrite_of_lt {i : Nat} {v : Byte} (h : i < s.cfg.aduMax) :
    bufWrite s i v = .next { s with buf := memWrite s.buf i v } := if_pos h

/-- A range reads exactly where each of its bytes does. -/
theorem bufRange_eq_next {i k : Nat} {f : List Byte} :
    bufRange s i k = .next f ↔
      f.length = k ∧ ∀ j, j < k → i + j < s.cfg.aduMax ∧ memRead s.buf (i + j) = f[j]? := by
  induction k generalizing i f with
  | zero => cases f <;> simp [bufRange]
  | succ k ih =>
    simp only [bufRange, andThen_eq_next, bufRead_eq_next]
    constructor
    · rintro ⟨b, ⟨hi, hb⟩, bs, hbs, hf⟩
      cases hf
      obtain ⟨hl, hr⟩ := ih.1 hbs
      refine ⟨by simp [hl], fun j hj => ?_⟩
      cases j with
      | zero => simpa using ⟨hi, hb⟩
      | succ j => have := hr j (by omega); rw [show i + (j + 1) = i + 1 + j by omega]; simpa using this
    · rintro ⟨hl, hr⟩
      cases f with
      | nil => simp at hl
      | cons b bs =>
        refine ⟨b, by simpa using hr 0 (by omega), bs, ih.2 ⟨by simpa using hl, fun j hj => ?_⟩, rfl⟩
        have := hr (j + 1) (by omega)
        rw [show i + (j + 1) = i + 1 + j by omega] at this
        simpa using this

/-- The candidate is the list of the `POS` buffered bytes. -/
theorem candidate_eq_next {f : List Byte} :
    candidate s = .next f ↔ f.length = s.pos ∧ s.pos ≤ s.cfg.aduMax ∧ ∀ j, j < s.pos → memRead s.buf j = f[j]? := by
  unfold candidate
  rw [bufRange_eq_next]
  constructor
  · rintro ⟨hl, hr⟩
    refine ⟨hl, ?_, fun j hj => by simpa using (hr j hj).2⟩
    rcases Nat.eq_zero_or_pos s.pos with h | h
    · omega
    · have := (hr (s.pos - 1) (by omega)).1; omega
  · rintro ⟨hl, hp, hr⟩
    exact ⟨hl, fun j hj => ⟨by omega, by simpa using hr j hj⟩⟩

/-- A candidate whose bytes have all been written reads. -/
theorem candidate_total (hp : s.pos ≤ s.cfg.aduMax) (hw : ∀ i, i < s.pos → memRead s.buf i ≠ none) :
    ∃ f, candidate s = .next f := by
  refine ⟨(List.range s.pos).map fun i => (memRead s.buf i).getD 0, candidate_eq_next.2 ⟨by simp, hp, fun j hj => ?_⟩⟩
  obtain ⟨v, hv⟩ := Option.ne_none_iff_exists'.1 (hw j hj)
  simp [hj, hv]

/-! ## The queue -/

theorem enqueue_full {item : Slot} (h : ringNext s.cfg.n s.head = s.tail) :
    enqueue item s = .next (raiseDrop (.qFull item) s, false) := if_pos h

theorem enqueue_room {item : Slot} (h : ringNext s.cfg.n s.head ≠ s.tail) (hh : s.head < s.cfg.n) :
    enqueue item s =
      .next ({ s with slot := memWrite s.slot s.head item, head := ringNext s.cfg.n s.head }, true) := by
  unfold enqueue
  rw [if_neg h, slotWrite_of_lt hh]
  rfl

/-- Everything an enqueue can do. -/
theorem enqueue_cases {item : Slot} {r : State × Bool} (h : enqueue item s = .next r) :
    (ringNext s.cfg.n s.head = s.tail ∧ r = (raiseDrop (.qFull item) s, false)) ∨
      (ringNext s.cfg.n s.head ≠ s.tail ∧ s.head < s.cfg.n ∧
        r = ({ s with slot := memWrite s.slot s.head item, head := ringNext s.cfg.n s.head }, true)) := by
  by_cases hf : ringNext s.cfg.n s.head = s.tail
  · rw [enqueue_full hf] at h
    exact .inl ⟨hf, by cases h; rfl⟩
  · by_cases hh : s.head < s.cfg.n
    · rw [enqueue_room hf hh] at h
      exact .inr ⟨hf, hh, by cases h; rfl⟩
    · simp [enqueue, hf, slotWrite, hh] at h

theorem dequeue_empty (h : s.head = s.tail) : dequeue s = .next (s, none) := if_pos h

theorem peek_empty (h : s.head = s.tail) : peek s = .next none := if_pos h

/-- Everything a peek can do. -/
theorem peek_eq_next {o : Option Slot} :
    peek s = .next o ↔
      (s.head = s.tail ∧ o = none) ∨
        (s.head ≠ s.tail ∧ s.tail < s.cfg.n ∧ ∃ v, memRead s.slot s.tail = some v ∧ o = some v) := by
  unfold peek
  split
  · rename_i h; simp [h, eq_comm]
  · rename_i h
    simp only [andThen_eq_next, slotRead_eq_next, Host.Outcome.next.injEq, h, false_and, false_or, not_false_eq_true,
      true_and, ne_eq, and_assoc, exists_and_left, eq_comm (b := o)]

/-- Everything a dequeue can do. -/
theorem dequeue_eq_next {r : State × Option Slot} :
    dequeue s = .next r ↔
      (s.head = s.tail ∧ r = (s, none)) ∨
        (s.head ≠ s.tail ∧ s.tail < s.cfg.n ∧
          ∃ v, memRead s.slot s.tail = some v ∧ r = ({ s with tail := ringNext s.cfg.n s.tail }, some v)) := by
  unfold dequeue
  split
  · rename_i h; simp [h, eq_comm]
  · rename_i h
    simp only [andThen_eq_next, slotRead_eq_next, Host.Outcome.next.injEq, h, false_and, false_or, not_false_eq_true,
      true_and, ne_eq, and_assoc, exists_and_left, eq_comm (b := r)]

/-- The stored indices of a non-empty queue begin with the tail. -/
theorem storedIndices_of_ne (hh : s.head < s.cfg.n) (ht : s.tail < s.cfg.n) (h : s.head ≠ s.tail) :
    storedIndices s =
      s.tail :: ringIndices s.cfg.n (ringNext s.cfg.n s.tail) (ringDist s.cfg.n s.head (ringNext s.cfg.n s.tail)) := by
  unfold storedIndices queueCount
  rw [ringDist_next_tail hh ht h, ringIndices_succ]

theorem storedIndices_of_eq (h : s.head = s.tail) : storedIndices s = [] := by
  simp [storedIndices, queueCount, h]

/-- An accepted element is stored after all the others. -/
theorem storedIndices_enqueued (hh : s.head < s.cfg.n) (ht : s.tail < s.cfg.n) (h : ringNext s.cfg.n s.head ≠ s.tail) :
    ringIndices s.cfg.n s.tail (ringDist s.cfg.n (ringNext s.cfg.n s.head) s.tail) = storedIndices s ++ [s.head] := by
  rw [ringDist_next_head ht h, ringIndices_append ht, tail_add_dist hh ht]
  rfl

theorem queueCount_lt (hh : s.head < s.cfg.n) (ht : s.tail < s.cfg.n) : queueCount s < s.cfg.n := ringDist_lt hh ht

/-- The walk from index `i` over the `k` elements that lie before `HEAD`. -/
theorem walkQueue_of_reads (hh : s.head < s.cfg.n) {vs : List Slot} :
    ∀ (fuel i : Nat), i < s.cfg.n → ringDist s.cfg.n s.head i ≤ fuel →
      (ringIndices s.cfg.n i (ringDist s.cfg.n s.head i)).map (memRead s.slot) = vs.map some →
      walkQueue s fuel i = .next vs := by
  intro fuel
  induction fuel generalizing vs with
  | zero =>
    intro i hi hd hr
    have h0 : s.head = i := (ringDist_eq_zero hi).1 (by omega)
    have : vs = [] := by
      rw [← h0, ringDist_self] at hr
      simpa using hr.symm
    simp [walkQueue, h0, this]
  | succ fuel ih =>
    intro i hi hd hr
    unfold walkQueue
    by_cases hih : i = s.head
    · rw [if_pos hih]
      rw [hih, ringDist_self] at hr
      cases vs with
      | nil => rfl
      | cons v vs => simp at hr
    · rw [if_neg hih]
      have hd' := ringDist_next_tail hh hi (Ne.symm hih)
      rw [hd'] at hr
      cases vs with
      | nil => simp at hr
      | cons v vs =>
        simp only [ringIndices_succ, List.map_cons, List.cons.injEq] at hr
        rw [slotRead_eq_next.2 ⟨hi, hr.1⟩, andThen_next, ih _ (ringNext_lt hi) (by omega) hr.2]
        rfl

/-- `Q.ITER` gives the stored elements (R127 corner case b). -/
theorem walkQueue_represents {vs : List Slot} (hh : s.head < s.cfg.n) (ht : s.tail < s.cfg.n)
    (h : (storedIndices s).map (memRead s.slot) = vs.map some) : walkQueue s s.cfg.n s.tail = .next vs :=
  walkQueue_of_reads hh s.cfg.n s.tail ht (ringDist_lt hh ht).le h

end Sys2Proof.Machine
end

