-- ==== Sys2Proof/Laws/Queue.lean ====
section
/-!
SUPPORT. The queue as a list (R25, R128): what an accepted, a refused and a removed element do to the list of the stored
ones, and that a well-shaped queue holds one.
-/

namespace Sys2Proof.Machine

variable {s t : State}

/-- Only the indices, `N` and the stored slots matter to what a queue holds. -/
theorem Represents.congr {l : List Slot} (h : Represents s l) (hs : t.slot = s.slot) (hh : t.head = s.head)
    (ht : t.tail = s.tail) (hn : t.cfg.n = s.cfg.n) : Represents t l := by
  unfold Represents storedIndices queueCount at *
  rw [hs, hh, ht, hn]; exact h

theorem Represents.length_eq {l : List Slot} (h : Represents s l) : l.length = queueCount s := by
  have := congrArg List.length h
  simpa [storedIndices] using this.symm

/-- A well-shaped queue holds a list. -/
theorem Wf.represents (h : Wf s) : ∃ l, Represents s l := by
  refine ⟨(storedIndices s).map fun i => (memRead s.slot i).getD 0, ?_⟩
  unfold Represents
  rw [List.map_map]
  refine List.map_congr_left fun i hi => ?_
  obtain ⟨v, hv⟩ := Option.ne_none_iff_exists'.1 (h.storedWritten i hi)
  simp [hv]

/-- The front of a non-empty list is the slot at `TAIL`. -/
theorem Represents.cons_iff {v : Slot} {l : List Slot} (hh : s.head < s.cfg.n) (ht : s.tail < s.cfg.n) :
    Represents s (v :: l) ↔
      s.head ≠ s.tail ∧ memRead s.slot s.tail = some v ∧
        Represents { s with tail := ringNext s.cfg.n s.tail } l := by
  by_cases he : s.head = s.tail
  · simp [Represents, storedIndices_of_eq he, he]
  · unfold Represents
    rw [storedIndices_of_ne hh ht he]
    simp [he, storedIndices, queueCount]

theorem Represents.nil_iff (ht : s.tail < s.cfg.n) : Represents s [] ↔ s.head = s.tail := by
  simp [Represents, storedIndices, queueCount, ← List.length_eq_zero_iff, ringDist_eq_zero ht]

/-- An accepted element is stored last. -/
theorem Represents.enqueued {l : List Slot} {item : Slot} (h : Represents s l) (hh : s.head < s.cfg.n)
    (ht : s.tail < s.cfg.n) (hr : ringNext s.cfg.n s.head ≠ s.tail) :
    Represents { s with slot := memWrite s.slot s.head item, head := ringNext s.cfg.n s.head } (l ++ [item]) := by
  have hns := head_not_stored hh ht
  unfold Represents at *
  show (ringIndices s.cfg.n s.tail (ringDist s.cfg.n (ringNext s.cfg.n s.head) s.tail)).map _ = _
  rw [storedIndices_enqueued hh ht hr, List.map_append, List.map_append, ← h]
  congr 1
  · refine List.map_congr_left fun i hi => memRead_memWrite_ne _ _ ?_
    rintro rfl
    exact hns hi
  · simp

/-- Full means `N - 1` elements. -/
theorem Represents.full_iff {l : List Slot} (h : Represents s l) (hh : s.head < s.cfg.n) (ht : s.tail < s.cfg.n) :
    ringNext s.cfg.n s.head = s.tail ↔ l.length = s.cfg.n - 1 := by
  rw [h.length_eq, ringNext_eq_iff_full hh ht]
  rfl

theorem Represents.length_le {l : List Slot} (h : Represents s l) (hh : s.head < s.cfg.n) (ht : s.tail < s.cfg.n) :
    l.length ≤ s.cfg.n - 1 := by
  have := queueCount_lt hh ht
  rw [h.length_eq]; omega

end Sys2Proof.Machine
end

