-- ==== Sys2Proof/Laws/Timer.lean ====
section
/-!
SUPPORT. The timer: what ticks leave alone, how they add up, and the elapsed-time law one tick at a time (R142, R143).
-/

namespace Sys2Proof.Machine

variable {s t : State}

theorem timerTick_stopped (h : s.run = false) : timerTick s = s := by simp [timerTick, h]

/-- A tick writes `CNT`, `GAP` and `SIL` and nothing else. -/
theorem timerTick_frame (s : State) :
    timerTick s = { s with cnt := (timerTick s).cnt, gap := (timerTick s).gap, sil := (timerTick s).sil } := by
  unfold timerTick; split <;> rfl

theorem timerTicks_add (a b : Nat) (s : State) : timerTicks (a + b) s = timerTicks b (timerTicks a s) := by
  induction a generalizing s with
  | zero => simp [timerTicks]
  | succ a ih => rw [show a + 1 + b = (a + b) + 1 by omega]; exact ih _

theorem timerTicks_stopped (k : Nat) (h : s.run = false) : timerTicks k s = s := by
  induction k with
  | zero => rfl
  | succ k ih => rw [timerTicks, timerTick_stopped h, ih]

/-- Ticks write `CNT`, `GAP` and `SIL` and nothing else. -/
theorem timerTicks_frame (k : Nat) (s : State) :
    timerTicks k s =
      { s with cnt := (timerTicks k s).cnt, gap := (timerTicks k s).gap, sil := (timerTicks k s).sil } := by
  induction k generalizing s with
  | zero => rfl
  | succ k ih =>
    rw [timerTicks, ih, timerTick_frame s]

/-- A tick never clears a flag. -/
theorem timerTick_sticky : (s.gap = true → (timerTick s).gap = true) ∧ (s.sil = true → (timerTick s).sil = true) := by
  unfold timerTick; split <;> simp_all

theorem timerTicks_sticky (k : Nat) :
    (s.gap = true → (timerTicks k s).gap = true) ∧ (s.sil = true → (timerTicks k s).sil = true) := by
  induction k generalizing s with
  | zero => exact ⟨id, id⟩
  | succ k ih => exact ⟨fun h => ih.1 (timerTick_sticky.1 h), fun h => ih.2 (timerTick_sticky.2 h)⟩

theorem elapsed_restart (h15 : 0 < s.t15) (h35 : 0 < s.t35) : Elapsed (restartTimer s) 0 := by
  refine ⟨by simp, ?_, ?_⟩
  · simp; omega
  · simp; omega

/-- One running tick is one more elapsed tick. -/
theorem elapsed_tick {e : Nat} (hr : s.run = true) (h0 : 0 < s.t15) (h15 : s.t15 < s.t35) (hw : s.t35 < 2 ^ s.cfg.wT)
    (h : Elapsed s e) : Elapsed (timerTick s) (e + 1) := by
  obtain ⟨hc, hg, hs⟩ := h
  have hpos : 0 < s.t35 := by omega
  have hlt : e % s.t35 < s.t35 := Nat.mod_lt _ hpos
  have hcnt : (s.cnt + 1) % 2 ^ s.cfg.wT = e % s.t35 + 1 := by rw [hc, Nat.mod_eq_of_lt (by omega)]
  have hstep : (e + 1) % s.t35 = if e % s.t35 + 1 = s.t35 then 0 else e % s.t35 + 1 := by
    split
    · rename_i h; rw [Nat.add_mod, Nat.mod_eq_of_lt (show 1 < s.t35 by omega), h, Nat.mod_self]
    · rw [Nat.add_mod, Nat.mod_eq_of_lt (show 1 < s.t35 by omega), Nat.mod_eq_of_lt (by omega)]
  have hdiv := Nat.div_add_mod e s.t35
  simp only [Elapsed, timerTick, hr, if_true, hcnt]
  refine ⟨hstep.symm, ?_, ?_⟩
  · rw [hg]
    by_cases hge : s.t15 ≤ e
    · simp [hge, show s.t15 ≤ e + 1 by omega]
    · have : e % s.t35 = e := Nat.mod_eq_of_lt (by omega)
      simp only [this, hge, decide_false, Bool.false_or, decide_eq_decide]
      omega
  · rw [hs]
    by_cases hge : s.t35 ≤ e
    · simp [hge, show s.t35 ≤ e + 1 by omega]
    · have : e % s.t35 = e := Nat.mod_eq_of_lt (by omega)
      simp only [this, hge, decide_false, Bool.false_or, decide_eq_decide]
      omega

theorem elapsed_ticks {e : Nat} (k : Nat) (hr : s.run = true) (h0 : 0 < s.t15) (h15 : s.t15 < s.t35) (hw : s.t35 < 2 ^ s.cfg.wT)
    (h : Elapsed s e) : Elapsed (timerTicks k s) (e + k) := by
  induction k generalizing s e with
  | zero => exact h
  | succ k ih =>
    have hf := timerTick_frame s
    have := ih (s := timerTick s) (e := e + 1) (by rw [hf]; exact hr) (by rw [hf]; exact h0)
      (by rw [hf]; exact h15) (by rw [hf]; exact hw) (elapsed_tick hr h0 h15 hw h)
    rw [show e + (k + 1) = e + 1 + k by omega]
    exact this

/-- A running counter stays below its period. -/
theorem timerTick_cnt_lt (hr : s.run = true) (h : s.cnt < s.t35) (hw : s.t35 < 2 ^ s.cfg.wT) :
    (timerTick s).cnt < s.t35 := by
  simp only [timerTick, hr, if_true]
  rw [Nat.mod_eq_of_lt (by omega)]
  split <;> omega

/-- Everything `CTC.INIT` can do when it goes on. -/
theorem startTimer_eq_next :
    startTimer s = .next t ↔
      ∃ a b, thresholds s.cfg.timing = some (a, b) ∧ thresholdsFit s.cfg.wT a b = true ∧
        t = { s with t15 := a, t35 := b, run := true, cnt := 0, gap := false, sil := false } := by
  unfold startTimer
  split
  · rename_i a b h
    split
    · rename_i hf
      constructor
      · intro he; cases he; exact ⟨a, b, h, hf, rfl⟩
      · rintro ⟨a', b', h', -, rfl⟩; rw [h] at h'; cases h'; rfl
    · rename_i hf
      constructor
      · intro he; cases he
      · rintro ⟨a', b', h', hf', -⟩; rw [h] at h'; cases h'; exact absurd hf' hf
  · rename_i h
    constructor
    · intro he; cases he
    · rintro ⟨a', b', h', -⟩; rw [h] at h'; cases h'

theorem thresholdsFit_iff {w a b : Nat} : thresholdsFit w a b = true ↔ 0 < a ∧ a < b ∧ b ≤ 2 ^ w - 1 := by
  simp [thresholdsFit]

/-- Thresholds that do not fit are refused (R141). -/
theorem startTimer_refused {a b : Nat} (h : thresholds s.cfg.timing = some (a, b))
    (hf : ¬(0 < a ∧ a < b ∧ b ≤ 2 ^ s.cfg.wT - 1)) : startTimer s = .refused .illegalConfiguration := by
  unfold startTimer
  rw [h]
  exact if_neg fun hfit => hf (thresholdsFit_iff.1 hfit)

/-- A legal configuration starts the timer. -/
theorem startTimer_total (h : configLegal s.cfg = true) : ∃ t, startTimer s = .next t := by
  unfold configLegal at h
  cases ht : thresholds s.cfg.timing with
  | none => simp [ht] at h
  | some p =>
    obtain ⟨a, b⟩ := p
    rw [ht] at h
    simp only [Bool.and_eq_true] at h
    exact ⟨_, startTimer_eq_next.2 ⟨a, b, ht, h.2, rfl⟩⟩

end Sys2Proof.Machine
end

