-- ==== Sys2Proof/Laws/Pass.lean ====
section
/-!
SUPPORT. What each micro-step of the poll agent can do, said once and in both directions: it answers a next state exactly
in the listed cases.
-/

namespace Sys2Proof.Machine

variable {s t : State}

/-- `FA.SCAN` (R161): the queue is empty; or the front carries silence and the candidate is not empty; or the front is
consumed, and appended or discarded. -/
theorem scanStep_eq_next :
    scanStep s = .next t ↔
      (s.head = s.tail ∧ t = { s with emptied := true, phase := .decision }) ∨
        (s.head ≠ s.tail ∧ s.tail < s.cfg.n ∧ ∃ v, memRead s.slot s.tail = some v ∧
          ((slotSil v = true ∧ s.pos ≠ 0 ∧ t = { s with stopSil := true, phase := .decision }) ∨
            (¬(slotSil v = true ∧ s.pos ≠ 0) ∧ s.pos < s.cfg.aduMax ∧
              t = { s with
                tail := ringNext s.cfg.n s.tail, buf := memWrite s.buf s.pos (slotValue v), pos := s.pos + 1 }) ∨
            (¬(slotSil v = true ∧ s.pos ≠ 0) ∧ ¬s.pos < s.cfg.aduMax ∧
              t = { s with
                tail := ringNext s.cfg.n s.tail, drops := s.drops ++ [.bufOvf (slotValue v)] }))) := by
  unfold scanStep
  rw [andThen_eq_next]
  constructor
  · rintro ⟨o, ho, hk⟩
    rcases peek_eq_next.1 ho with ⟨he, rfl⟩ | ⟨hne, ht, v, hv, rfl⟩
    · exact .inl ⟨he, by cases hk; rfl⟩
    · refine .inr ⟨hne, ht, v, hv, ?_⟩
      by_cases hs : slotSil v = true ∧ s.pos ≠ 0
      · simp only [if_pos hs] at hk
        exact .inl ⟨hs.1, hs.2, by cases hk; rfl⟩
      · simp only [if_neg hs, dequeue_eq_next.2 (.inr ⟨hne, ht, v, hv, rfl⟩), andThen_next, appendByte] at hk
        by_cases hp : s.pos < s.cfg.aduMax
        · rw [if_pos hp, bufWrite_of_lt (s := { s with tail := ringNext s.cfg.n s.tail }) hp] at hk
          exact .inr (.inl ⟨hs, hp, by cases hk; rfl⟩)
        · rw [if_neg hp] at hk
          exact .inr (.inr ⟨hs, hp, by cases hk; rfl⟩)
  · rintro (⟨he, rfl⟩ | ⟨hne, ht, v, hv, hk⟩)
    · exact ⟨none, peek_eq_next.2 (.inl ⟨he, rfl⟩), rfl⟩
    · refine ⟨some v, peek_eq_next.2 (.inr ⟨hne, ht, v, hv, rfl⟩), ?_⟩
      rcases hk with ⟨h1, h2, rfl⟩ | ⟨hs, hp, rfl⟩ | ⟨hs, hp, rfl⟩
      · simp only [if_pos (show slotSil v = true ∧ s.pos ≠ 0 from ⟨h1, h2⟩)]
      · simp only [if_neg hs, dequeue_eq_next.2 (.inr ⟨hne, ht, v, hv, rfl⟩), andThen_next, appendByte]
        rw [if_pos hp, bufWrite_of_lt (s := { s with tail := ringNext s.cfg.n s.tail }) hp]
        rfl
      · simp only [if_neg hs, dequeue_eq_next.2 (.inr ⟨hne, ht, v, hv, rfl⟩), andThen_next, appendByte]
        rw [if_neg hp]
        rfl

/-- `FA.CHECK` (R163): short, good, or bad. -/
theorem checkStep_eq_next :
    checkStep s = .next t ↔
      (s.pos < 2 ∧ t = { s with pos := 0, phase := .idle, drops := s.drops ++ [.short s.pos] }) ∨
        (2 ≤ s.pos ∧ ∃ f, candidate s = .next f ∧
          ((crcGood f = true ∧ t = { s with phase := .addrMatch }) ∨
            (crcGood f = false ∧ t = { s with pos := 0, phase := .idle, drops := s.drops ++ [.crc s.pos] }))) := by
  unfold checkStep
  by_cases hp : s.pos < 2
  · rw [if_pos hp]
    constructor
    · intro h; exact .inl ⟨hp, by cases h; rfl⟩
    · rintro (⟨-, rfl⟩ | ⟨h, -⟩)
      · rfl
      · omega
  · rw [if_neg hp, andThen_eq_next]
    constructor
    · rintro ⟨f, hf, hk⟩
      refine .inr ⟨by omega, f, hf, ?_⟩
      cases hg : crcGood f with
      | true => simp only [hg, if_true] at hk; exact .inl ⟨rfl, by cases hk; rfl⟩
      | false => simp only [hg, Bool.false_eq_true, if_false] at hk; exact .inr ⟨rfl, by cases hk; rfl⟩
    · rintro (⟨h, -⟩ | ⟨-, f, hf, hk⟩)
      · exact absurd h hp
      · refine ⟨f, hf, ?_⟩
        rcases hk with ⟨hg, rfl⟩ | ⟨hg, rfl⟩
        · simp only [hg, if_true]
        · simp only [hg, Bool.false_eq_true, if_false]; rfl

/-- `SSM.MATCH` (R224): another slave's frame, or this slave's. -/
theorem matchStep_eq_next :
    matchStep s = .next t ↔
      0 < s.cfg.aduMax ∧ ∃ first, memRead s.buf 0 = some first ∧
        ((first ≠ s.cfg.slaveAddr ∧
            t = { s with pos := 0, phase := .idle, drops := s.drops ++ [.addr first] }) ∨
          (first = s.cfg.slaveAddr ∧ ∃ f, candidate s = .next f ∧
            t = { s with phase := .dispatch, outputs := s.outputs ++ [.dispatchRequest f] })) := by
  unfold matchStep
  rw [andThen_eq_next]
  constructor
  · rintro ⟨first, hf, hk⟩
    obtain ⟨h0, hr⟩ := bufRead_eq_next.1 hf
    refine ⟨h0, first, hr, ?_⟩
    by_cases ha : first = s.cfg.slaveAddr
    · rw [if_neg (not_not.2 ha), andThen_eq_next] at hk
      obtain ⟨f, hf, hk⟩ := hk
      exact .inr ⟨ha, f, hf, by cases hk; rfl⟩
    · rw [if_pos ha] at hk
      exact .inl ⟨ha, by cases hk; rfl⟩
  · rintro ⟨h0, first, hr, hk⟩
    refine ⟨first, bufRead_eq_next.2 ⟨h0, hr⟩, ?_⟩
    rcases hk with ⟨ha, rfl⟩ | ⟨ha, f, hf, rfl⟩
    · rw [if_pos ha]; rfl
    · rw [if_neg (not_not.2 ha), hf]; rfl

/-- `SSM.INIT` (R221). -/
theorem initSession_eq_next :
    initSession s = .next t ↔
      ∃ a b, thresholds s.cfg.timing = some (a, b) ∧ thresholdsFit s.cfg.wT a b = true ∧
        t = { s with
          head := 0, tail := 0, pos := 0, txBusy := false, t15 := a, t35 := b, run := true
          cnt := 0, gap := false, sil := false, rxen := true, session := .receive } := by
  unfold initSession
  rw [andThen_eq_next]
  constructor
  · rintro ⟨u, hu, hk⟩
    obtain ⟨a, b, h1, h2, rfl⟩ := startTimer_eq_next.1 hu
    exact ⟨a, b, h1, h2, by cases hk; rfl⟩
  · rintro ⟨a, b, h1, h2, rfl⟩
    exact ⟨_, startTimer_eq_next.2 ⟨a, b, h1, h2, rfl⟩, rfl⟩

theorem pollStep_init (h : s.session = .init) : pollStep s = initSession s := by unfold pollStep; rw [h]

theorem pollStep_receive (h : s.session = .receive) : pollStep s = .next (beginPass s) := by unfold pollStep; rw [h]

theorem pollStep_busy (h : s.session = .sendWait) (hb : s.txBusy = true) : pollStep s = .next s := by
  unfold pollStep; rw [h]; exact if_pos hb

theorem pollStep_sent (h : s.session = .sendWait) (hb : s.txBusy = false) :
    pollStep s = .next { s with pos := 0, session := .receive, outputs := s.outputs ++ [.clearOutputBuffer] } := by
  unfold pollStep; rw [h]; exact if_neg (by simp [hb])

/-- `SSM.POLL` (R222), by `STATE`. -/
theorem pollStep_eq_next :
    pollStep s = .next t ↔
      (s.session = .init ∧ initSession s = .next t) ∨
        (s.session = .receive ∧ t = { s with stopSil := false, emptied := false, phase := .scan }) ∨
        (s.session = .sendWait ∧ s.txBusy = true ∧ t = s) ∨
        (s.session = .sendWait ∧ s.txBusy = false ∧
          t = { s with pos := 0, session := .receive, outputs := s.outputs ++ [.clearOutputBuffer] }) := by
  constructor
  · intro h
    cases hs : s.session with
    | init => exact .inl ⟨rfl, pollStep_init hs ▸ h⟩
    | receive =>
      rw [pollStep_receive hs] at h
      injection h with h
      refine .inr (.inl ⟨rfl, ?_⟩)
      rw [← h, ← hs]; rfl
    | sendWait =>
      cases hb : s.txBusy with
      | true =>
        rw [pollStep_busy hs hb] at h
        injection h with h
        exact .inr (.inr (.inl ⟨rfl, rfl, h.symm⟩))
      | false =>
        rw [pollStep_sent hs hb] at h
        injection h with h
        refine .inr (.inr (.inr ⟨rfl, rfl, ?_⟩))
        rw [← h, hb]
  · rintro (⟨hs, h⟩ | ⟨hs, rfl⟩ | ⟨hs, hb, rfl⟩ | ⟨hs, hb, rfl⟩)
    · rw [pollStep_init hs, h]
    · exact pollStep_receive hs
    · exact pollStep_busy hs hb
    · exact pollStep_sent hs hb

/-- `SSM.RESPOND` (R225). -/
theorem respondStep_true (s : State) :
    respondStep true s = { s with txBusy := true, session := .sendWait, phase := .idle } := rfl

theorem respondStep_false (s : State) :
    respondStep false s = { s with phase := .idle, drops := s.drops ++ [.txRefused] } := rfl

theorem frameComplete_iff :
    frameComplete s = true ↔ (s.stopSil = true ∨ (s.emptied = true ∧ s.sil = true)) ∧ s.pos ≠ 0 := by
  simp [frameComplete]

end Sys2Proof.Machine
end

