-- ==== Sys2Proof/Laws/Shape.lean ====
section
/-!
SUPPORT. What each shared operation and each micro-step does to the shape of the state (R25, R33): one lemma per named
change of the storage or of an index.
-/

namespace Sys2Proof.Machine

variable {s t : State}

/-- The shape is a matter of the storage, the indices, the timer's registers and the configuration alone. -/
theorem Wf.congr (h : Wf s) (hc : t.cfg = s.cfg) (hs : t.slot = s.slot) (hh : t.head = s.head) (ht : t.tail = s.tail)
    (hb : t.buf = s.buf) (hp : t.pos = s.pos)
    (hw : t.t15 < 2 ^ s.cfg.wT ∧ t.t35 < 2 ^ s.cfg.wT ∧ t.cnt < 2 ^ s.cfg.wT) : Wf t where
  legal := hc ▸ h.legal
  slotCanonical := hs ▸ h.slotCanonical
  slotIndices := by rw [hs, hc]; exact h.slotIndices
  bufCanonical := hb ▸ h.bufCanonical
  bufIndices := by rw [hb, hc]; exact h.bufIndices
  headRange := by rw [hh, hc]; exact h.headRange
  tailRange := by rw [ht, hc]; exact h.tailRange
  storedWritten := by
    unfold storedIndices queueCount; rw [hs, hh, ht, hc]; exact h.storedWritten
  posRange := by rw [hp, hc]; exact h.posRange
  candidateWritten := by rw [hp, hb]; exact h.candidateWritten
  timerWidths := by rw [hc]; exact hw

theorem Wf.capacity (h : Wf s) : 2 ≤ s.cfg.n ∧ 2 ≤ s.cfg.aduMax := by
  have := h.legal
  simp only [configLegal, Bool.and_eq_true, decide_eq_true_eq] at this
  exact this.1

theorem Wf.candidate_total (h : Wf s) : ∃ f, candidate s = .next f :=
  Machine.candidate_total h.posRange h.candidateWritten

/-- An emptied candidate. -/
theorem Wf.cleared (h : Wf s) : Wf { s with pos := 0 } :=
  { h with posRange := Nat.zero_le _, candidateWritten := fun _ hi => absurd hi (Nat.not_lt_zero _) }

/-- A byte appended to the candidate. -/
theorem Wf.appended (h : Wf s) (hp : s.pos < s.cfg.aduMax) (b : Byte) :
    Wf { s with buf := memWrite s.buf s.pos b, pos := s.pos + 1 } :=
  { h with
    bufCanonical := memWrite_wf _ _ _ h.bufCanonical
    bufIndices := memWrite_indices _ _ hp h.bufIndices
    posRange := hp
    candidateWritten := fun i hi => by
      show memRead (memWrite s.buf s.pos b) i ≠ none
      rw [memRead_memWrite]
      split
      · simp
      · exact h.candidateWritten i (by have : i < s.pos + 1 := hi; omega) }

/-- The oldest element removed. -/
theorem Wf.consumed (h : Wf s) (he : s.head ≠ s.tail) : Wf { s with tail := ringNext s.cfg.n s.tail } :=
  { h with
    tailRange := ringNext_lt h.tailRange
    storedWritten := fun i hi => h.storedWritten i (by
      rw [storedIndices_of_ne h.headRange h.tailRange he]; exact List.mem_cons_of_mem _ hi) }

/-- An element stored at `HEAD` of a ring that is not full. -/
theorem Wf.stored (h : Wf s) (hr : ringNext s.cfg.n s.head ≠ s.tail) (item : Slot) :
    Wf { s with slot := memWrite s.slot s.head item, head := ringNext s.cfg.n s.head } :=
  { h with
    slotCanonical := memWrite_wf _ _ _ h.slotCanonical
    slotIndices := memWrite_indices _ _ h.headRange h.slotIndices
    headRange := ringNext_lt h.headRange
    storedWritten := fun i hi => by
      have hi' : i ∈ storedIndices s ++ [s.head] := by
        rw [← storedIndices_enqueued h.headRange h.tailRange hr]; exact hi
      show memRead (memWrite s.slot s.head item) i ≠ none
      rw [memRead_memWrite]
      split
      · simp
      · rename_i hne
        rcases List.mem_append.1 hi' with hi' | hi'
        · exact h.storedWritten i hi'
        · exact absurd (List.mem_singleton.1 hi') hne }

/-- An emptied queue. -/
theorem Wf.emptiedQueue (h : Wf s) : Wf { s with head := 0, tail := 0 } :=
  { h with
    headRange := by have := h.capacity; show 0 < s.cfg.n; omega
    tailRange := by have := h.capacity; show 0 < s.cfg.n; omega
    storedWritten := fun i hi => by
      rw [storedIndices_of_eq (s := { s with head := 0, tail := 0 }) rfl] at hi; cases hi }

/-- Registers of the timer rewritten within their width. -/
theorem Wf.timer (h : Wf s) {a b c : Nat} (ha : a < 2 ^ s.cfg.wT) (hb : b < 2 ^ s.cfg.wT) (hc : c < 2 ^ s.cfg.wT) :
    Wf { s with t15 := a, t35 := b, cnt := c } :=
  { h with timerWidths := ⟨ha, hb, hc⟩ }

theorem enqueue_wf {item : Slot} {r : State × Bool} (h : Wf s) (he : enqueue item s = .next r) : Wf r.1 := by
  rcases enqueue_cases he with ⟨-, rfl⟩ | ⟨hr, -, rfl⟩
  · exact h.congr rfl rfl rfl rfl rfl rfl h.timerWidths
  · exact h.stored hr item

theorem dequeue_wf {r : State × Option Slot} (h : Wf s) (he : dequeue s = .next r) : Wf r.1 := by
  rcases dequeue_eq_next.1 he with ⟨-, rfl⟩ | ⟨hne, -, v, -, rfl⟩
  · exact h
  · exact h.consumed hne

theorem timerTick_wf (h : Wf s) : Wf (timerTick s) := by
  refine h.congr ?_ ?_ ?_ ?_ ?_ ?_ ?_
  iterate 6 rw [timerTick_frame]
  rw [timerTick_frame]
  refine ⟨h.timerWidths.1, h.timerWidths.2.1, ?_⟩
  show (timerTick s).cnt < _
  unfold timerTick
  have := Nat.two_pow_pos s.cfg.wT
  split
  · show (if _ then _ else _) < _
    split
    · exact this
    · exact Nat.mod_lt _ this
  · exact h.timerWidths.2.2

theorem timerTicks_wf (k : Nat) (h : Wf s) : Wf (timerTicks k s) := by
  induction k generalizing s with
  | zero => exact h
  | succ k ih => exact ih (timerTick_wf h)

theorem restartTimer_wf (h : Wf s) : Wf (restartTimer s) :=
  h.congr rfl rfl rfl rfl rfl rfl ⟨h.timerWidths.1, h.timerWidths.2.1, Nat.two_pow_pos _⟩

/-- Thresholds that fit are below the width. -/
theorem thresholdsFit_lt {w a b : Nat} (h : thresholdsFit w a b = true) : a < 2 ^ w ∧ b < 2 ^ w := by
  have := thresholdsFit_iff.1 h
  have := Nat.two_pow_pos w
  omega

theorem startTimer_wf (h : Wf s) (he : startTimer s = .next t) : Wf t := by
  obtain ⟨a, b, -, hf, rfl⟩ := startTimer_eq_next.1 he
  exact h.congr rfl rfl rfl rfl rfl rfl ⟨(thresholdsFit_lt hf).1, (thresholdsFit_lt hf).2, Nat.two_pow_pos _⟩

theorem initSession_wf (h : Wf s) (he : initSession s = .next t) : Wf t := by
  obtain ⟨a, b, -, hf, rfl⟩ := initSession_eq_next.1 he
  exact h.emptiedQueue.cleared.congr rfl rfl rfl rfl rfl rfl
    ⟨(thresholdsFit_lt hf).1, (thresholdsFit_lt hf).2, Nat.two_pow_pos _⟩

theorem scanStep_wf (h : Wf s) (he : scanStep s = .next t) : Wf t := by
  rcases scanStep_eq_next.1 he with ⟨-, rfl⟩ | ⟨hne, -, v, -, ⟨-, -, rfl⟩ | ⟨-, hp, rfl⟩ | ⟨-, -, rfl⟩⟩
  · exact h.congr rfl rfl rfl rfl rfl rfl h.timerWidths
  · exact h.congr rfl rfl rfl rfl rfl rfl h.timerWidths
  · exact (h.consumed hne).appended hp (slotValue v)
  · exact (h.consumed hne).congr rfl rfl rfl rfl rfl rfl h.timerWidths

theorem decideStep_wf (h : Wf s) : Wf (decideStep s) := h.congr rfl rfl rfl rfl rfl rfl h.timerWidths

theorem checkStep_wf (h : Wf s) (he : checkStep s = .next t) : Wf t := by
  rcases checkStep_eq_next.1 he with ⟨-, rfl⟩ | ⟨-, f, -, ⟨-, rfl⟩ | ⟨-, rfl⟩⟩
  · exact h.cleared.congr rfl rfl rfl rfl rfl rfl h.timerWidths
  · exact h.congr rfl rfl rfl rfl rfl rfl h.timerWidths
  · exact h.cleared.congr rfl rfl rfl rfl rfl rfl h.timerWidths

theorem matchStep_wf (h : Wf s) (he : matchStep s = .next t) : Wf t := by
  obtain ⟨-, first, -, ⟨-, rfl⟩ | ⟨-, f, -, rfl⟩⟩ := matchStep_eq_next.1 he
  · exact h.cleared.congr rfl rfl rfl rfl rfl rfl h.timerWidths
  · exact h.congr rfl rfl rfl rfl rfl rfl h.timerWidths

theorem pollStep_wf (h : Wf s) (he : pollStep s = .next t) : Wf t := by
  rcases pollStep_eq_next.1 he with ⟨-, hi⟩ | ⟨-, rfl⟩ | ⟨-, -, rfl⟩ | ⟨-, -, rfl⟩
  · exact initSession_wf h hi
  · exact h.congr rfl rfl rfl rfl rfl rfl h.timerWidths
  · exact h
  · exact h.cleared.congr rfl rfl rfl rfl rfl rfl h.timerWidths

theorem microStep_wf (h : Wf s) (he : microStep s = .next t) : Wf t := by
  unfold microStep at he
  split at he
  · exact pollStep_wf h he
  · exact scanStep_wf h he
  · cases he; exact decideStep_wf h
  · exact checkStep_wf h he
  · exact matchStep_wf h he
  · cases he

/-- A scan goes on from a state in shape: it leaves SCAN, or one element fewer is queued. -/
theorem scanStep_progress (h : Wf s) (hp : s.phase = .scan) :
    ∃ t, scanStep s = .next t ∧ (t.phase = .decision ∨ (t.phase = .scan ∧ queueCount t < queueCount s)) := by
  by_cases he : s.head = s.tail
  · exact ⟨_, scanStep_eq_next.2 (.inl ⟨he, rfl⟩), .inl rfl⟩
  · have hlt : ringDist s.cfg.n s.head (ringNext s.cfg.n s.tail) < queueCount s := by
      unfold queueCount; rw [ringDist_next_tail h.headRange h.tailRange he]; omega
    obtain ⟨v, hv⟩ := Option.ne_none_iff_exists'.1 (h.storedWritten s.tail (by
      rw [storedIndices_of_ne h.headRange h.tailRange he]; exact List.mem_cons_self))
    by_cases hs : slotSil v = true ∧ s.pos ≠ 0
    · exact ⟨_, scanStep_eq_next.2 (.inr ⟨he, h.tailRange, v, hv, .inl ⟨hs.1, hs.2, rfl⟩⟩), .inl rfl⟩
    · by_cases hb : s.pos < s.cfg.aduMax
      · exact ⟨_, scanStep_eq_next.2 (.inr ⟨he, h.tailRange, v, hv, .inr (.inl ⟨hs, hb, rfl⟩)⟩), .inr ⟨hp, hlt⟩⟩
      · exact ⟨_, scanStep_eq_next.2 (.inr ⟨he, h.tailRange, v, hv, .inr (.inr ⟨hs, hb, rfl⟩)⟩), .inr ⟨hp, hlt⟩⟩

theorem checkStep_total (h : Wf s) : ∃ t, checkStep s = .next t ∧ (t.phase = .addrMatch ∨ t.phase = .idle) := by
  by_cases hp : s.pos < 2
  · exact ⟨_, checkStep_eq_next.2 (.inl ⟨hp, rfl⟩), .inr rfl⟩
  · obtain ⟨f, hf⟩ := h.candidate_total
    cases hg : crcGood f with
    | true => exact ⟨_, checkStep_eq_next.2 (.inr ⟨by omega, f, hf, .inl ⟨hg, rfl⟩⟩), .inl rfl⟩
    | false => exact ⟨_, checkStep_eq_next.2 (.inr ⟨by omega, f, hf, .inr ⟨hg, rfl⟩⟩), .inr rfl⟩

theorem matchStep_total (h : Wf s) (hp : s.pos ≠ 0) :
    ∃ t, matchStep s = .next t ∧ (t.phase = .dispatch ∨ t.phase = .idle) := by
  obtain ⟨b, hb⟩ := Option.ne_none_iff_exists'.1 (h.candidateWritten 0 (by omega))
  have := h.capacity
  obtain ⟨f, hf⟩ := h.candidate_total
  by_cases ha : b = s.cfg.slaveAddr
  · exact ⟨_, matchStep_eq_next.2 ⟨by omega, b, hb, .inr ⟨ha, f, hf, rfl⟩⟩, .inl rfl⟩
  · exact ⟨_, matchStep_eq_next.2 ⟨by omega, b, hb, .inl ⟨ha, rfl⟩⟩, .inr rfl⟩

/-- The scan loop ends at DECIDE, with the shape kept. -/
theorem scanLoop_total (fuel : Nat) (h : Wf s) (hf : queueCount s < fuel) (hp : s.phase = .scan) :
    ∃ t, scanLoop fuel s = .next t ∧ t.phase = .decision ∧ Wf t := by
  induction fuel generalizing s with
  | zero => omega
  | succ fuel ih =>
    obtain ⟨t, ht, hph | ⟨hph, hq⟩⟩ := scanStep_progress h hp
    · refine ⟨t, ?_, hph, scanStep_wf h ht⟩
      unfold scanLoop
      rw [if_pos hp, ht]
      cases fuel <;> simp [scanLoop, hph]
    · obtain ⟨u, hu, hd, hw⟩ := ih (scanStep_wf h ht) (by omega) hph
      refine ⟨u, ?_, hd, hw⟩
      unfold scanLoop
      rw [if_pos hp, ht, andThen_next, hu]

end Sys2Proof.Machine
end

