-- ==== Sys2Proof/Laws/Invariant.lean ====
section
/-!
SUPPORT. What the timer, the byte-received interrupt and each micro-step do to the global invariants (R40).
-/

namespace Sys2Proof.Machine

variable {s t : State}

theorem Inv.tx_of_receive (h : Inv s) (hs : s.session = .receive) : s.txBusy = false := by
  cases hb : s.txBusy with
  | false => rfl
  | true => have := h.busyInWait hb; rw [hs] at this; cases this

theorem Inv.started_of_run (h : Inv s) (hr : s.run = true) : s.session ≠ .init := fun hi => by
  have := (h.initial hi).1; rw [hr] at this; cases this

/-- The candidate is a matter of the buffer, `POS` and the buffer's capacity alone. -/
theorem candidate_congr (hc : t.cfg.aduMax = s.cfg.aduMax) (hb : t.buf = s.buf) (hp : t.pos = s.pos) : candidate t = candidate s := by
  have h : ∀ k i, bufRange t i k = bufRange s i k := by
    intro k
    induction k with
    | zero => intro i; rfl
    | succ k ih =>
      intro i
      have : bufRead t i = bufRead s i := by unfold bufRead; rw [hc, hb]
      simp only [bufRange, this, ih]
  unfold candidate
  rw [hp]; exact h _ _

/-- A frame at MATCH or DISPATCH stays one while the candidate stays. -/
theorem Inv.frameGood_congr (h : Inv s) (hc : t.cfg.aduMax = s.cfg.aduMax) (hb : t.buf = s.buf) (hp : t.pos = s.pos)
    (hph : t.phase = s.phase) :
    t.phase = .addrMatch ∨ t.phase = .dispatch → 2 ≤ t.pos ∧ ∃ f, candidate t = .next f ∧ crcGood f = true := by
  rw [hph, hp, candidate_congr hc hb hp]; exact h.frameGood

/-- Results, observations, pending inputs and the record of the environment are no part of the invariants. -/
theorem Inv.congr (h : Inv s) (hr : t = { s with
    inputs := t.inputs, crcAcc := t.crcAcc, result := t.result, owed := t.owed, answered := t.answered, drops := t.drops, outputs := t.outputs }) : Inv t := by
  rw [hr]
  exact
    { h with
      wf := h.wf.congr rfl rfl rfl rfl rfl rfl h.wf.timerWidths
      frameGood := h.frameGood_congr rfl rfl rfl rfl }

theorem timerTick_inv (h : Inv s) : Inv (timerTick s) := by
  cases hr : s.run with
  | false => rw [timerTick_stopped hr]; exact h
  | true =>
    obtain ⟨-, -, h0, h15⟩ := h.started (h.started_of_run hr)
    have hw := h.wf.timerWidths
    have hc := h.cntRange hr
    have hlt := timerTick_cnt_lt hr hc hw.2.1
    have hwf := timerTick_wf h.wf
    have hm : (s.cnt + 1) % 2 ^ s.cfg.wT = s.cnt + 1 := Nat.mod_eq_of_lt (by omega)
    have hf : timerTick s = { s with
        cnt := if s.cnt + 1 = s.t35 then 0 else s.cnt + 1
        gap := s.gap || decide (s.cnt + 1 = s.t15)
        sil := s.sil || decide (s.cnt + 1 = s.t35) } := by simp [timerTick, hr, hm]
    have hg := h.gapPastT15 hr
    have hsg := h.silImpliesGap
    rw [hf] at hwf hlt ⊢
    exact
      { h with
        wf := hwf
        frameGood := h.frameGood_congr rfl rfl rfl rfl
        silImpliesGap := fun hs => by
          simp only [Bool.or_eq_true, decide_eq_true_eq] at hs ⊢
          rcases hs with hs | hs
          · exact .inl (hsg hs)
          · exact .inl (hg (by omega))
        initial := fun hi => absurd hi (h.started_of_run hr)
        cntRange := fun _ => hlt
        gapPastT15 := fun _ hle => by
          simp only [Bool.or_eq_true, decide_eq_true_eq]
          change s.t15 ≤ (if s.cnt + 1 = s.t35 then 0 else s.cnt + 1) at hle
          split at hle
          · omega
          · by_cases he : s.cnt + 1 = s.t15
            · exact .inr he
            · exact .inl (hg (by omega)) }

theorem timerTicks_inv (k : Nat) (h : Inv s) : Inv (timerTicks k s) := by
  induction k generalizing s with
  | zero => exact h
  | succ k ih => exact ih (timerTick_inv h)

theorem restartTimer_inv (h : Inv s) : Inv (restartTimer s) :=
  { h with
    wf := restartTimer_wf h.wf
    frameGood := h.frameGood_congr rfl rfl rfl rfl
    silImpliesGap := fun hs => by cases hs
    cntRange := fun hr => by
      have := (h.started (h.started_of_run hr)).2.2
      show 0 < s.t35; omega
    gapPastT15 := fun hr hle => by
      have := (h.started (h.started_of_run hr)).2.2.1
      change s.t15 ≤ 0 at hle; omega }

/-- An element stored with the tags of G9. -/
theorem Inv.stored (h : Inv s) (hr : ringNext s.cfg.n s.head ≠ s.tail) (hi : s.session ≠ .init) {item : Slot}
    (hi9 : slotSil item = true → slotGap item = true) :
    Inv { s with slot := memWrite s.slot s.head item, head := ringNext s.cfg.n s.head } :=
  { h with
    wf := h.wf.stored hr item
    frameGood := h.frameGood_congr rfl rfl rfl rfl
    initial := fun h' => absurd h' hi
    storedTags := fun i hmem v hv => by
      have hmem' : i ∈ storedIndices s ++ [s.head] := by
        rw [← storedIndices_enqueued h.wf.headRange h.wf.tailRange hr]; exact hmem
      change memRead (memWrite s.slot s.head item) i = some v at hv
      rw [memRead_memWrite] at hv
      split at hv
      · cases hv; exact hi9
      · rename_i hne
        rcases List.mem_append.1 hmem' with hm | hm
        · exact h.storedTags i hm v hv
        · exact absurd (List.mem_singleton.1 hm) hne }

theorem execCtcRx_inv (v : Byte) (h : Inv s) (he : execCtcRx v s = .next t) : Inv t := by
  unfold execCtcRx at he
  split at he
  · rename_i hx
    have hi : s.session ≠ .init := fun hi => by have := (h.initial hi).2.1; rw [hx] at this; cases this
    have h1 := restartTimer_inv h
    obtain ⟨r, hr, ht⟩ := andThen_eq_next.1 he
    cases ht
    rcases enqueue_cases hr with ⟨-, rfl⟩ | ⟨hn, -, rfl⟩
    · exact h1.congr rfl
    · exact h1.stored hn hi (by simpa using h.silImpliesGap)
  · cases he; exact h

theorem txdone_inv (h : Inv s) : Inv { s with txBusy := false } :=
  { h with
    wf := h.wf.congr rfl rfl rfl rfl rfl rfl h.wf.timerWidths
    busyInWait := fun hb => by cases hb
    frameGood := h.frameGood_congr rfl rfl rfl rfl
    initial := fun hi => by have := h.initial hi; exact ⟨this.1, this.2.1, this.2.2.1, this.2.2.2.1, this.2.2.2.2.1, rfl⟩ }

/-- A pass begins in `RECEIVE`. -/
theorem beginPass_inv (h : Inv s) (hs : s.session = .receive) : Inv (beginPass s) :=
  { h with
    wf := h.wf.congr rfl rfl rfl rfl rfl rfl h.wf.timerWidths
    passInReceive := fun _ => hs
    waitIsIdle := fun hw => by have : s.session = .sendWait := hw; rw [hs] at this; cases this
    initial := fun hi => by have : s.session = .init := hi; rw [hs] at this; cases this
    scanning := fun _ => ⟨rfl, rfl⟩
    oneExit := fun hp => by cases hp
    checkNonEmpty := fun hp => by cases hp
    frameGood := fun hp => by rcases hp with hp | hp <;> cases hp
    frameMine := fun hp => by cases hp }

theorem initSession_inv (h : Inv s) (hp : s.phase = .idle) (he : initSession s = .next t) : Inv t := by
  have hwf := initSession_wf h.wf he
  obtain ⟨a, b, -, hf, rfl⟩ := initSession_eq_next.1 he
  have hab := thresholdsFit_iff.1 hf
  exact
    { wf := hwf
      silImpliesGap := fun h => by cases h
      passInReceive := fun h' => absurd hp h'
      waitIsIdle := fun h => by cases h
      busyInWait := fun h => by cases h
      initial := fun h => by cases h
      started := fun _ => ⟨rfl, rfl, hab.1, hab.2.1⟩
      storedTags := fun i hi => by rw [storedIndices_of_eq rfl] at hi; cases hi
      cntRange := fun _ => by show 0 < b; omega
      gapPastT15 := fun _ h => by change a ≤ 0 at h; omega
      scanning := fun h => by change s.phase = .scan at h; rw [hp] at h; cases h
      oneExit := fun h => by change s.phase = .decision at h; rw [hp] at h; cases h
      checkNonEmpty := fun h => by change s.phase = .check at h; rw [hp] at h; cases h
      frameGood := fun h => by
        change s.phase = .addrMatch ∨ s.phase = .dispatch at h; rw [hp] at h; rcases h with h | h <;> cases h
      frameMine := fun h => by change s.phase = .dispatch at h; rw [hp] at h; cases h }

theorem pollStep_inv (h : Inv s) (hp : s.phase = .idle) (he : pollStep s = .next t) : Inv t := by
  rcases pollStep_eq_next.1 he with ⟨-, hi⟩ | ⟨hs, rfl⟩ | ⟨-, -, rfl⟩ | ⟨hs, hb, rfl⟩
  · exact initSession_inv h hp hi
  · exact beginPass_inv h hs
  · exact h
  · have hst := h.started (by rw [hs]; simp)
    exact
      { h with
        wf := h.wf.cleared.congr rfl rfl rfl rfl rfl rfl h.wf.timerWidths
        passInReceive := fun h' => absurd hp h'
        waitIsIdle := fun h => by cases h
        busyInWait := fun h => by change s.txBusy = true at h; rw [hb] at h; cases h
        initial := fun h => by cases h
        started := fun _ => hst
        oneExit := fun h => by change s.phase = .decision at h; rw [hp] at h; cases h
        checkNonEmpty := fun h => by change s.phase = .check at h; rw [hp] at h; cases h
        frameGood := fun h => by
          change s.phase = .addrMatch ∨ s.phase = .dispatch at h; rw [hp] at h; rcases h with h | h <;> cases h }

theorem Inv.receive_of_phase {p : Phase} (h : Inv s) (hp : s.phase = p) (hne : p ≠ .idle) : s.session = .receive :=
  h.passInReceive (hp ▸ hne)

/-- The oldest element removed, in a pass. -/
theorem Inv.consumed (h : Inv s) (hs : s.session = .receive) (he : s.head ≠ s.tail) :
    Inv { s with tail := ringNext s.cfg.n s.tail } :=
  { h with
    wf := h.wf.consumed he
    frameGood := h.frameGood_congr rfl rfl rfl rfl
    initial := fun hi => by have : s.session = .init := hi; rw [hs] at this; cases this
    storedTags := fun i hi => h.storedTags i (by
      rw [storedIndices_of_ne h.wf.headRange h.wf.tailRange he]; exact List.mem_cons_of_mem _ hi) }

/-- A pass that ends without a frame: `PHASE` back to IDLE, the candidate kept or cleared. -/
theorem Inv.ended (h : Inv s) (hs : s.session = .receive) : Inv { s with phase := .idle } :=
  { h with
    wf := h.wf.congr rfl rfl rfl rfl rfl rfl h.wf.timerWidths
    passInReceive := fun h => absurd rfl h
    waitIsIdle := fun _ => rfl
    initial := fun hi => by have : s.session = .init := hi; rw [hs] at this; cases this
    scanning := fun h => by cases h
    oneExit := fun h => by cases h
    checkNonEmpty := fun h => by cases h
    frameGood := fun h => by rcases h with h | h <;> cases h
    frameMine := fun h => by cases h }

/-- The same with the candidate cleared. -/
theorem Inv.endedCleared (h : Inv s) (hs : s.session = .receive) : Inv { s with pos := 0, phase := .idle } :=
  { h.ended hs with
    wf := h.wf.cleared.congr rfl rfl rfl rfl rfl rfl h.wf.timerWidths
    initial := fun hi => by have : s.session = .init := hi; rw [hs] at this; cases this
    oneExit := fun h => by cases h
    checkNonEmpty := fun h => by cases h
    frameGood := fun h => by rcases h with h | h <;> cases h }

theorem scanStep_inv (h : Inv s) (hp : s.phase = .scan) (he : scanStep s = .next t) : Inv t := by
  have hs := h.receive_of_phase hp (by simp)
  have hsc := h.scanning hp
  have hn : ∀ {q : Phase}, q ≠ .scan → s.phase ≠ q := fun hq h' => hq (h' ▸ hp)
  rcases scanStep_eq_next.1 he with ⟨-, rfl⟩ | ⟨hne, -, v, -, ⟨-, h0, rfl⟩ | ⟨-, hb, rfl⟩ | ⟨-, -, rfl⟩⟩
  · exact
      { h with
        wf := h.wf.congr rfl rfl rfl rfl rfl rfl h.wf.timerWidths
        passInReceive := fun _ => hs
        waitIsIdle := fun hw => by have : s.session = .sendWait := hw; rw [hs] at this; cases this
        initial := fun hi => by have : s.session = .init := hi; rw [hs] at this; cases this
        scanning := fun h => by cases h
        oneExit := fun _ => ⟨hsc.1, fun h => by change s.stopSil = true at h; rw [hsc.1] at h; cases h⟩
        checkNonEmpty := fun h => by cases h
        frameGood := fun h => by rcases h with h | h <;> cases h
        frameMine := fun h => by cases h }
  · exact
      { h with
        wf := h.wf.congr rfl rfl rfl rfl rfl rfl h.wf.timerWidths
        passInReceive := fun _ => hs
        waitIsIdle := fun hw => by have : s.session = .sendWait := hw; rw [hs] at this; cases this
        initial := fun hi => by have : s.session = .init := hi; rw [hs] at this; cases this
        scanning := fun h => by cases h
        oneExit := fun _ => ⟨by show true = !s.emptied; rw [hsc.2]; rfl, fun _ => h0⟩
        checkNonEmpty := fun h => by cases h
        frameGood := fun h => by rcases h with h | h <;> cases h
        frameMine := fun h => by cases h }
  · have hc := h.consumed hs hne
    exact
      { hc with
        wf := hc.wf.appended hb (slotValue v)
        initial := fun hi => by have : s.session = .init := hi; rw [hs] at this; cases this
        oneExit := fun h' => absurd h' (hn (by simp))
        checkNonEmpty := fun h' => absurd h' (hn (by simp))
        frameGood := fun h' => h'.elim (fun h' => absurd h' (hn (by simp))) fun h' => absurd h' (hn (by simp))
        frameMine := fun h' => absurd h' (hn (by simp)) }
  · exact (h.consumed hs hne).congr rfl

theorem decideStep_inv (h : Inv s) (hp : s.phase = .decision) : Inv (decideStep s) := by
  have hs := h.receive_of_phase hp (by simp)
  unfold decideStep
  by_cases hc : frameComplete s = true
  · rw [if_pos hc]
    exact
      { h with
        wf := h.wf.congr rfl rfl rfl rfl rfl rfl h.wf.timerWidths
        passInReceive := fun _ => hs
        waitIsIdle := fun hw => by have : s.session = .sendWait := hw; rw [hs] at this; cases this
        initial := fun hi => by have : s.session = .init := hi; rw [hs] at this; cases this
        scanning := fun h => by cases h
        oneExit := fun h => by cases h
        checkNonEmpty := fun _ => (frameComplete_iff.1 hc).2
        frameGood := fun h => by rcases h with h | h <;> cases h
        frameMine := fun h => by cases h }
  · rw [if_neg hc]; exact h.ended hs

theorem checkStep_inv (h : Inv s) (hp : s.phase = .check) (he : checkStep s = .next t) : Inv t := by
  have hs := h.receive_of_phase hp (by simp)
  rcases checkStep_eq_next.1 he with ⟨-, rfl⟩ | ⟨h2, f, hf, ⟨hg, rfl⟩ | ⟨-, rfl⟩⟩
  · exact (h.endedCleared hs).congr rfl
  · exact
      { h with
        wf := h.wf.congr rfl rfl rfl rfl rfl rfl h.wf.timerWidths
        passInReceive := fun _ => hs
        waitIsIdle := fun hw => by have : s.session = .sendWait := hw; rw [hs] at this; cases this
        initial := fun hi => by have : s.session = .init := hi; rw [hs] at this; cases this
        scanning := fun h => by cases h
        oneExit := fun h => by cases h
        checkNonEmpty := fun h => by cases h
        frameGood := fun _ => ⟨h2, f, (candidate_congr (s := s) (t := { s with phase := .addrMatch }) rfl rfl rfl).trans hf, hg⟩
        frameMine := fun h => by cases h }
  · exact (h.endedCleared hs).congr rfl

theorem matchStep_inv (h : Inv s) (hp : s.phase = .addrMatch) (he : matchStep s = .next t) : Inv t := by
  have hs := h.receive_of_phase hp (by simp)
  obtain ⟨-, first, hr, ⟨-, rfl⟩ | ⟨ha, f, hf, rfl⟩⟩ := matchStep_eq_next.1 he
  · exact (h.endedCleared hs).congr rfl
  · have hg := h.frameGood (.inl hp)
    exact
      { h with
        wf := h.wf.congr rfl rfl rfl rfl rfl rfl h.wf.timerWidths
        passInReceive := fun _ => hs
        waitIsIdle := fun hw => by have : s.session = .sendWait := hw; rw [hs] at this; cases this
        initial := fun hi => by have : s.session = .init := hi; rw [hs] at this; cases this
        scanning := fun h => by cases h
        oneExit := fun h => by cases h
        checkNonEmpty := fun h => by cases h
        frameGood := fun _ => ⟨hg.1, hg.2.imp fun g hc =>
          ⟨(candidate_congr (s := s)
            (t := { s with phase := .dispatch, outputs := s.outputs ++ [.dispatchRequest f] }) rfl rfl rfl).trans hc.1,
            hc.2⟩⟩
        frameMine := fun _ => by show memRead s.buf 0 = some s.cfg.slaveAddr; rw [hr, ha] }

theorem respondStep_inv (started : Bool) (h : Inv s) (hp : s.phase = .dispatch) : Inv (respondStep started s) := by
  have hs := h.receive_of_phase hp (by simp)
  cases started with
  | false =>
    exact (h.ended hs).congr rfl
  | true =>
    have hst := h.started (by rw [hs]; simp)
    exact
      { h.ended hs with
        wf := h.wf.congr rfl rfl rfl rfl rfl rfl h.wf.timerWidths
        passInReceive := fun h => absurd rfl h
        waitIsIdle := fun _ => rfl
        busyInWait := fun _ => rfl
        initial := fun h => by cases h
        started := fun _ => hst
        frameGood := fun h => by rcases h with h | h <;> cases h }

theorem microStep_inv (h : Inv s) (he : microStep s = .next t) : Inv t := by
  unfold microStep at he
  split at he
  · exact pollStep_inv h ‹_› he
  · exact scanStep_inv h ‹_› he
  · cases he; exact decideStep_inv h ‹_›
  · exact checkStep_inv h ‹_› he
  · exact matchStep_inv h ‹_› he
  · cases he

end Sys2Proof.Machine
end

