-- ==== Sys2Proof/Laws/Environment.lean ====
section
/-!
SUPPORT. What performing an operation, a change of configuration and a step can do, said once (R70, R75, R191).
-/

namespace Sys2Proof.Machine

variable {i : Instr} {s t : State}

/-- The operations (A2) excludes, as a list. -/
theorem pollAgentOnly_iff :
    pollAgentOnly i = true ↔
      i ∈ [Instr.qInit, .qDeq, .qPeek, .ctcInit, .ctcSilnow, .faBegin, .faClear, .faPoll, .crcVerify, .ssmInit] := by
  cases i <;> simp [pollAgentOnly, Instr.agents, Instr.kind]

/-- The environment keeps (A2) with this operation. -/
theorem perform_of_kept (h : breaksA2 i s = false) :
    perform i s = andThen (exec i s) fun t =>
      .next { t with owed := owedAfter i t.owed, answered := answeredAfter i t.answered } := by
  simp [perform, h]

theorem perform_of_breaksA2 (h : breaksA2 i s = true) : perform i s = .refused .environmentBroken := by
  simp [perform, h]

/-- A performed operation goes on exactly if the environment keeps (A2) and the operation goes on; only the record of the
environment is changed beside. -/
theorem perform_eq_next :
    perform i s = .next t ↔
      breaksA2 i s = false ∧ ∃ u, exec i s = .next u ∧
        t = { u with owed := owedAfter i u.owed, answered := answeredAfter i u.answered } := by
  cases h : breaksA2 i s with
  | true => simp [perform_of_breaksA2 h]
  | false =>
    rw [perform_of_kept h, andThen_eq_next]
    constructor
    · rintro ⟨u, hu, hk⟩; cases hk; exact ⟨rfl, u, hu, rfl⟩
    · rintro ⟨-, u, hu, rfl⟩; exact ⟨u, hu, rfl⟩

@[simp] theorem owedAfter_started (k : Nat) : owedAfter (.ssmRespond true) k = k + 1 := rfl

@[simp] theorem owedAfter_txdone (k : Nat) : owedAfter .ssmTxdone k = k - 1 := rfl

theorem owedAfter_other (h1 : i ≠ .ssmRespond true) (h2 : i ≠ .ssmTxdone) (k : Nat) : owedAfter i k = k := by
  simp [owedAfter, h1, h2]

@[simp] theorem answeredAfter_respond (b k : Bool) : answeredAfter (.ssmRespond b) k = true := by
  cases b <;> simp [answeredAfter]

theorem answeredAfter_other (h : ∀ b, i ≠ .ssmRespond b) (k : Bool) : answeredAfter i k = k := by
  simp [answeredAfter, h]

/-- An interrupt with `TX_BUSY = 0` changes no register (R228 corner case b, R271). -/
theorem perform_spurious (h : s.txBusy = false) : perform .ssmTxdone s = .next { s with owed := s.owed - 1 } := by
  cases s; cases h; rw [perform_of_kept (by simp [breaksA2, pollAgentOnly, Instr.agents])]
  simp [exec, execSsmTxdone, answeredAfter]

/-- A change of the configuration inputs (R75) goes on exactly if it leaves `SLAVE_ADDR` alone inside a transaction and is
legal; it then changes the configuration alone. -/
theorem reconfigure_eq_next {timing : Timing} {slaveAddr : Byte} :
    reconfigure timing slaveAddr s = .next t ↔
      (slaveAddr ≠ s.cfg.slaveAddr → inTransaction s = false) ∧
        configLegal { s.cfg with timing := timing, slaveAddr := slaveAddr } = true ∧
        t = { s with cfg := { s.cfg with timing := timing, slaveAddr := slaveAddr } } := by
  unfold reconfigure
  by_cases hx : slaveAddr ≠ s.cfg.slaveAddr ∧ inTransaction s = true
  · simp only [if_pos hx]
    constructor
    · intro h; cases h
    · rintro ⟨h, -⟩; simp [h hx.1] at hx
  · simp only [if_neg hx]
    have hk : slaveAddr ≠ s.cfg.slaveAddr → inTransaction s = false := fun h => by
      simpa [h] using hx
    split
    · rename_i hl
      constructor
      · intro h; cases h; exact ⟨hk, hl, rfl⟩
      · rintro ⟨-, -, rfl⟩; rfl
    · rename_i hl
      constructor
      · intro h; cases h
      · rintro ⟨-, h, -⟩; exact absurd h hl

theorem reconfigure_wf {timing : Timing} {slaveAddr : Byte} (h : Wf s)
    (he : reconfigure timing slaveAddr s = .next t) : Wf t := by
  obtain ⟨-, hl, rfl⟩ := reconfigure_eq_next.1 he
  exact { h with legal := hl }

/-- A frame under way keeps its address: inside a transaction `SLAVE_ADDR` does not change. -/
theorem reconfigure_inv {timing : Timing} {slaveAddr : Byte} (h : Inv s)
    (he : reconfigure timing slaveAddr s = .next t) : Inv t := by
  have hw := reconfigure_wf h.wf he
  obtain ⟨hk, -, rfl⟩ := reconfigure_eq_next.1 he
  exact
    { h with
      wf := hw
      frameGood := h.frameGood_congr rfl rfl rfl rfl
      frameMine := fun hp => by
        have hp' : s.phase = .dispatch := hp
        have hin : inTransaction s = true := by simp [inTransaction, hp']
        have ha : slaveAddr = s.cfg.slaveAddr := Classical.byContradiction fun hne => by simp [hk hne] at hin
        show memRead s.buf 0 = some slaveAddr
        rw [ha]; exact h.frameMine hp' }

/-- A step goes on exactly if the configuration is legal and the next event, if there is one, goes on. -/
theorem step_eq_next :
    step s = .next t ↔
      configLegal s.cfg = true ∧
        ((s.inputs = [] ∧ t = s) ∨
          (∃ timing slaveAddr rest, s.inputs = .configure timing slaveAddr :: rest ∧
            reconfigure timing slaveAddr { s with inputs := rest } = .next t) ∨
          (∃ w rest i, s.inputs = .word w :: rest ∧ decode w = .ok i ∧
            perform i { s with inputs := rest } = .next t)) := by
  unfold step
  cases hl : configLegal s.cfg with
  | false => simp
  | true =>
    simp only [Bool.true_eq_false, if_false, true_and]
    rcases hi : s.inputs with _ | ⟨e, rest⟩
    · simpa using ⟨Eq.symm, Eq.symm⟩
    · rcases e with w | ⟨timing, slaveAddr⟩
      · cases hd : decode w with
        | ok j => simp [hd]
        | error why => simp [hd]
      · simp

/-- An admitted step is a step, of an environment that keeps (A3). -/
theorem admittedStep_eq_next :
    admittedStep s = .next t ↔ (∀ i, nextOperation s = some i → breaksA3 i s = false) ∧ step s = .next t := by
  unfold admittedStep
  cases nextOperation s with
  | none => simp
  | some i => cases h : breaksA3 i s <;> simp [h]

/-- The operation of a word that decodes. -/
theorem nextOperation_word {w : OpWord} {rest : List Input} (hi : s.inputs = .word w :: rest) (hd : decode w = .ok i) :
    nextOperation s = some i := by
  simp [nextOperation, hi, hd]

end Sys2Proof.Machine
end

