-- ==== Sys2Proof/Laws/Frame.lean ====
section
/-!
SUPPORT. The views of an ADU by index (R91): the function code of a frame long enough to carry one, and of a shorter one.
-/

namespace Sys2Proof.Machine

theorem aduFunctionCode_of_le {f : List Byte} (h : 4 ≤ f.length) : aduFunctionCode f = f[1]? := by
  have h' : 1 < f.length - 2 := by omega
  simp [aduFunctionCode, aduPdu, aduCovered, List.head?_eq_getElem?, h']

theorem aduFunctionCode_of_lt {f : List Byte} (h : f.length < 4) : aduFunctionCode f = none := by
  have h' : ¬1 < f.length - 2 := by omega
  simp [aduFunctionCode, aduPdu, aduCovered, List.head?_eq_getElem?, h']

end Sys2Proof.Machine
end

