-- ==== Sys2Proof/Laws/PerInstr.lean ====
section
/-!
SUPPORT. Each operation's words are those of its row of spec/opcode_table.json: the row's match, and above it as many words
as the row's mask leaves free.
-/

namespace Sys2Proof.Laws.TableRow

/-- The column "match" of the row. -/
def rowMatch : Instr → Nat
  | .sysReset => 0x000000
  | .qInit => 0x100000
  | .qEnq _ => 0x110000
  | .qDeq => 0x120000
  | .qPeek => 0x130000
  | .qFree => 0x140000
  | .qCount => 0x150000
  | .qIter => 0x160000
  | .ctcInit => 0x200000
  | .ctcTick _ => 0x210000
  | .ctcRx _ => 0x220000
  | .ctcSilnow => 0x230000
  | .ctcRestart => 0x240000
  | .faBegin => 0x300000
  | .faScan => 0x310000
  | .faDecide => 0x320000
  | .faCheck => 0x330000
  | .faClear => 0x340000
  | .faPoll => 0x350000
  | .crcReset => 0x400000
  | .crcByte _ => 0x410000
  | .crcBlock => 0x420000
  | .crcVerify => 0x430000
  | .ssmPoll => 0x500000
  | .ssmInit => 0x510000
  | .ssmMatch => 0x520000
  | .ssmRespond _ => 0x530000
  | .ssmTxdone => 0x540000
  | .ssmRun => 0x550000

/-- The number of bits the column "mask" of the row leaves free. -/
def freeBits : Instr → Nat
  | .sysReset => 0
  | .qInit => 0
  | .qEnq _ => 10
  | .qDeq => 0
  | .qPeek => 0
  | .qFree => 0
  | .qCount => 0
  | .qIter => 0
  | .ctcInit => 0
  | .ctcTick _ => 16
  | .ctcRx _ => 8
  | .ctcSilnow => 0
  | .ctcRestart => 0
  | .faBegin => 0
  | .faScan => 0
  | .faDecide => 0
  | .faCheck => 0
  | .faClear => 0
  | .faPoll => 0
  | .crcReset => 0
  | .crcByte _ => 8
  | .crcBlock => 0
  | .crcVerify => 0
  | .ssmPoll => 0
  | .ssmInit => 0
  | .ssmMatch => 0
  | .ssmRespond _ => 1
  | .ssmTxdone => 0
  | .ssmRun => 0

/-- The word of `i` is one of its row's words. -/
def Statement (i : Instr) : Prop :=
  rowMatch i ≤ (encode i).toNat ∧ (encode i).toNat < rowMatch i + 2 ^ freeBits i

theorem sysReset : Statement .sysReset := by unfold Statement; decide

theorem qInit : Statement .qInit := by unfold Statement; decide

theorem qEnq (item : Slot) : Statement (.qEnq item) := by
  have := item.isLt
  unfold Statement
  rw [encode_toNat]
  simp only [opNumber, argOf, rowMatch, freeBits]
  simp
  omega

theorem qDeq : Statement .qDeq := by unfold Statement; decide

theorem qPeek : Statement .qPeek := by unfold Statement; decide

theorem qFree : Statement .qFree := by unfold Statement; decide

theorem qCount : Statement .qCount := by unfold Statement; decide

theorem qIter : Statement .qIter := by unfold Statement; decide

theorem ctcInit : Statement .ctcInit := by unfold Statement; decide

theorem ctcTick (k : BitVec 16) : Statement (.ctcTick k) := by
  have := k.isLt
  unfold Statement
  rw [encode_toNat]
  simp only [opNumber, argOf, rowMatch, freeBits]
  simp
  omega

theorem ctcRx (v : Byte) : Statement (.ctcRx v) := by
  have := v.isLt
  unfold Statement
  rw [encode_toNat]
  simp only [opNumber, argOf, rowMatch, freeBits]
  simp
  omega

theorem ctcSilnow : Statement .ctcSilnow := by unfold Statement; decide

theorem ctcRestart : Statement .ctcRestart := by unfold Statement; decide

theorem faBegin : Statement .faBegin := by unfold Statement; decide

theorem faScan : Statement .faScan := by unfold Statement; decide

theorem faDecide : Statement .faDecide := by unfold Statement; decide

theorem faCheck : Statement .faCheck := by unfold Statement; decide

theorem faClear : Statement .faClear := by unfold Statement; decide

theorem faPoll : Statement .faPoll := by unfold Statement; decide

theorem crcReset : Statement .crcReset := by unfold Statement; decide

theorem crcByte (b : Byte) : Statement (.crcByte b) := by
  have := b.isLt
  unfold Statement
  rw [encode_toNat]
  simp only [opNumber, argOf, rowMatch, freeBits]
  simp
  omega

theorem crcBlock : Statement .crcBlock := by unfold Statement; decide

theorem crcVerify : Statement .crcVerify := by unfold Statement; decide

theorem ssmPoll : Statement .ssmPoll := by unfold Statement; decide

theorem ssmInit : Statement .ssmInit := by unfold Statement; decide

theorem ssmMatch : Statement .ssmMatch := by unfold Statement; decide

theorem ssmRespond (started : Bool) : Statement (.ssmRespond started) := by
  unfold Statement; revert started; decide

theorem ssmTxdone : Statement .ssmTxdone := by unfold Statement; decide

theorem ssmRun : Statement .ssmRun := by unfold Statement; decide

end Sys2Proof.Laws.TableRow
end

