-- ==== Sys2Proof/Machine/Trace.lean ====
section
/-!
DEFINITION. The trace lines of R107 and the pseudo-operations of R108, each by the operations it stands for. The textual
spelling is no part of the model; `C` of `CHAR` and `FRAME` is their parameter.
-/

namespace Sys2Proof.Machine

/-- One trace line. -/
inductive TraceLine where
  /-- `RESET`. -/
  | reset
  /-- `TICK k`. -/
  | tick (k : BitVec 16)
  /-- `RX b`. -/
  | rx (b : Byte)
  /-- `TXDONE`. -/
  | txdone
  /-- `STEP`: the micro-step `PHASE` selects. -/
  | step
  /-- `STEP ok` and `STEP fail`. -/
  | answer (started : Bool)
  /-- `QFREE`. -/
  | qfree
  /-- `QCOUNT`. -/
  | qcount
  /-- `QITER`. -/
  | qiter
  /-- `POLL`. -/
  | poll
  /-- `POLL ok` and `POLL fail`. -/
  | pollAnswer (started : Bool)
  /-- `INIT`: `POLL` issued when `STATE = INIT`. R108 does not say what the line is in another `STATE`: `POLL` there too, an
  ordinary pass. DESIGN CHOICE, log 20. -/
  | init
  /-- `GAP`: `TICK T15`. -/
  | gap
  /-- `SILENCE`: `TICK T35`. -/
  | silence
  /-- `CHAR`: `TICK C`. That `C < T15` is what R108 asks of the test; the line is `TICK C` for a `C` not below `T15` too. DESIGN
  CHOICE, log 20. -/
  | char (c : BitVec 16)
  /-- `FRAME b0 b1 ... bn` at a character time of `C` ticks; it has its first byte. `C` is as in `CHAR`, log 20. -/
  | frame (c : BitVec 16) (first : Byte) (rest : List Byte)
  deriving DecidableEq, Repr

/-- `STEP` (R103): the micro-step `PHASE` selects; at DISPATCH there is no answer to hand over. -/
def traceStep (s : State) : Answer State :=
  match s.phase with
  | .idle => perform .ssmPoll s
  | .scan => perform .faScan s
  | .decision => perform .faDecide s
  | .check => perform .faCheck s
  | .addrMatch => perform .ssmMatch s
  | .dispatch => .refused .answerMissing

/-- `TICK k` for a tick count held in a register, which may be wider than an operand: `k` single ticks (R142). Before `CTC.INIT`
the register holds no value (U2), and R108 does not say what the line is then: it changes nothing, as any count of ticks of a
stopped timer does (R142, R272). DESIGN CHOICE, log 20. -/
def traceTicks (k : Nat) (s : State) : Answer State :=
  if s.run = false then .next s
  else if k = 0 then .refused .zeroTicks else .next (timerTicks k s)

/-- The bytes of `FRAME` after the first: `CHAR`, then `RX` (R108). -/
def traceBytes (c : BitVec 16) : List Byte → State → Answer State
  | [], s => .next s
  | b :: bs, s => andThen (perform (.ctcTick c) s) fun s1 => andThen (perform (.ctcRx b) s1) (traceBytes c bs)

/-- What one trace line does. -/
def runLine : TraceLine → State → Answer State
  | .reset, s => perform .sysReset s
  | .tick k, s => perform (.ctcTick k) s
  | .rx b, s => perform (.ctcRx b) s
  | .txdone, s => perform .ssmTxdone s
  | .step, s => traceStep s
  | .answer started, s => perform (.ssmRespond started) s
  | .qfree, s => perform .qFree s
  | .qcount, s => perform .qCount s
  | .qiter, s => perform .qIter s
  | .poll, s => perform .ssmRun s
  | .pollAnswer started, s =>
    andThen (perform .ssmRun s) fun s1 => if s1.phase = .dispatch then perform (.ssmRespond started) s1 else .next s1
  | .init, s => perform .ssmRun s
  | .gap, s => traceTicks s.t15 s
  | .silence, s => traceTicks s.t35 s
  | .char c, s => perform (.ctcTick c) s
  | .frame c first rest, s => andThen (perform (.ctcRx first) s) (traceBytes c rest)

/-- A trace, line by line. -/
def runTrace : List TraceLine → State → Answer State
  | [], s => .next s
  | l :: ls, s => andThen (runLine l s) (runTrace ls)

end Sys2Proof.Machine
end

