-- ==== Sys2Proof/Tests/Slice0.lean ====
section
/-!
SUPPORT. Tests, and a witness for the hypotheses of every obligation. Expected values are those of spec/95_test_vectors.md
(the vector is named) or of the rule named; words are written out from R100 to R102.
-/

namespace Sys2Proof.Tests

open Sys2Proof.Machine

/-- The answer is a next state of which `p` says yes. -/
def nextIs (o : Answer State) (p : State → Bool) : Bool :=
  match o with
  | .next t => p t
  | .fault _ => false
  | .refused _ => false

/-- The answer is this refusal. -/
def refusedIs (o : Answer State) (r : Refusal) : Bool :=
  match o with
  | .next _ => false
  | .fault _ => false
  | .refused q => decide (q = r)

/-- The configuration of the vectors with `N = 4`. -/
def cfg4 : Config := { Config.vectors with n := 4 }

/-- A started session between two passes, the queue and the buffer empty. -/
def idle : State := { State.reset with session := .receive, run := true, rxen := true, t15 := 15, t35 := 35 }

/-- The same with `N = 4`. -/
def idle4 : State := { idle with cfg := cfg4 }

/-- `s` with these elements queued from index 0 on, front first. -/
def withQueue (vs : List Slot) (s : State) : State :=
  { s with slot := vs.zipIdx.map fun p => (p.2, p.1), head := vs.length, tail := 0 }

/-- `s` with these bytes in the candidate buffer. -/
def withBuffer (bs : List Byte) (s : State) : State :=
  { s with buf := bs.zipIdx.map fun p => (p.2, p.1), pos := bs.length }

/-- The candidate is these bytes. -/
def candidateIs (s : State) (bs : List Byte) : Bool :=
  match candidate s with
  | .next f => decide (f = bs)
  | .fault _ => false
  | .refused _ => false

/-- The full queue after V-Q-4. -/
def full4 : State := withQueue [0x0AA, 0x1BB, 0x3CC] idle4

/-- The queue after V-Q-8: the head has wrapped. -/
def wrapped4 : State := { idle4 with slot := [(0, 0x0EE), (1, 0x1BB), (2, 0x3CC), (3, 0x0EE)], head := 0, tail := 1 }

/-- The request of E1. -/
def request : List Byte := [0x01, 0x03, 0x00, 0x00, 0x00, 0x01, 0x84, 0x0A]

/-- The good three-byte frame of V-F-11. -/
def shortFrame : List Byte := [0x01, 0x7E, 0x80]

/-- That frame at the end of a pass. -/
def atMatch : State := { withBuffer shortFrame idle with phase := .addrMatch }

/-- That frame handed to the responder. -/
def atDispatch : State := { withBuffer shortFrame idle with phase := .dispatch }

/-- A response being transmitted. -/
def waiting : State := { withBuffer shortFrame idle with session := .sendWait, txBusy := true, owed := 1, answered := true }

/-! ## Well-formedness -/

theorem test_wellFormed_refuses_zero_ticks : (Instr.ctcTick 0).wellFormed = false := rfl

theorem test_wellFormed_takes_one_tick : (Instr.ctcTick 1).wellFormed = true := rfl

/-! ## Decoding: one word of each row, written out from the columns of R102 and R101 -/

theorem test_decode_sysReset : decode 0b00000000_0000000000000000 = .ok .sysReset := rfl

theorem test_decode_qInit : decode 0b00010000_0000000000000000 = .ok .qInit := rfl

theorem test_decode_qEnq : decode 0b00010001_0000001111001100 = .ok (.qEnq 0x3CC) := rfl

theorem test_decode_qDeq : decode 0b00010010_0000000000000000 = .ok .qDeq := rfl

theorem test_decode_qPeek : decode 0b00010011_0000000000000000 = .ok .qPeek := rfl

theorem test_decode_qFree : decode 0b00010100_0000000000000000 = .ok .qFree := rfl

theorem test_decode_qCount : decode 0b00010101_0000000000000000 = .ok .qCount := rfl

theorem test_decode_qIter : decode 0b00010110_0000000000000000 = .ok .qIter := rfl

theorem test_decode_ctcInit : decode 0b00100000_0000000000000000 = .ok .ctcInit := rfl

theorem test_decode_ctcTick : decode 0b00100001_0000000000100011 = .ok (.ctcTick 35) := rfl

theorem test_decode_ctcRx : decode 0b00100010_0000000010000100 = .ok (.ctcRx 0x84) := rfl

theorem test_decode_ctcSilnow : decode 0b00100011_0000000000000000 = .ok .ctcSilnow := rfl

theorem test_decode_ctcRestart : decode 0b00100100_0000000000000000 = .ok .ctcRestart := rfl

theorem test_decode_faBegin : decode 0b00110000_0000000000000000 = .ok .faBegin := rfl

theorem test_decode_faScan : decode 0b00110001_0000000000000000 = .ok .faScan := rfl

theorem test_decode_faDecide : decode 0b00110010_0000000000000000 = .ok .faDecide := rfl

theorem test_decode_faCheck : decode 0b00110011_0000000000000000 = .ok .faCheck := rfl

theorem test_decode_faClear : decode 0b00110100_0000000000000000 = .ok .faClear := rfl

theorem test_decode_faPoll : decode 0b00110101_0000000000000000 = .ok .faPoll := rfl

theorem test_decode_crcReset : decode 0b01000000_0000000000000000 = .ok .crcReset := rfl

theorem test_decode_crcByte : decode 0b01000001_0000000011111111 = .ok (.crcByte 0xFF) := rfl

theorem test_decode_crcBlock : decode 0b01000010_0000000000000000 = .ok .crcBlock := rfl

theorem test_decode_crcVerify : decode 0b01000011_0000000000000000 = .ok .crcVerify := rfl

theorem test_decode_ssmPoll : decode 0b01010000_0000000000000000 = .ok .ssmPoll := rfl

theorem test_decode_ssmInit : decode 0b01010001_0000000000000000 = .ok .ssmInit := rfl

theorem test_decode_ssmMatch : decode 0b01010010_0000000000000000 = .ok .ssmMatch := rfl

theorem test_decode_ssmRespond : decode 0b01010011_0000000000000001 = .ok (.ssmRespond true) := rfl

theorem test_decode_ssmTxdone : decode 0b01010100_0000000000000000 = .ok .ssmTxdone := rfl

theorem test_decode_ssmRun : decode 0b01010101_0000000000000000 = .ok .ssmRun := rfl

/-! ## Reserved words (R104), and the host's probes -/

theorem test_decode_reserved_op : decode 0x170000 = .error (.reservedOp 0x17) := rfl

theorem test_decode_unused_bit : decode 0x110400 = .error (.unusedArgBits 0x400) := rfl

theorem test_decode_zero_ticks : decode 0x210000 = .error .zeroTicks := rfl

theorem test_decodeTableWord : decodeTableWord 24 0x2203CC = none ∧ decodeTableWord 24 0x2200CC = some (.ctcRx 0xCC) := by
  decide

theorem test_withFetchWord_runs : nextIs (step (State.reset.withFetchWord 24 0x500000)) (·.session = .receive) = true := by
  decide

theorem test_withFetchWord_microstep :
    nextIs (step (State.reset.withFetchWord 24 0x310000)) (fun t => t.emptied && decide (t.phase = .decision)) = true := by
  decide

theorem test_reset_memory_wf : Memory.wf State.reset.slot ∧ Memory.wf State.reset.buf := by decide

/-! ## The environment -/

/-- R191 (A2), no pass is opened between the dispatch request and the answer; V-S-11, an interrupt that no transmission awaits
changes nothing; R270 corner case a, a reset does not forgive the interrupt owed. -/
theorem test_step_environment :
    refusedIs (step { atDispatch with inputs := [.word 0x350000] }) .environmentBroken = true ∧
      nextIs (step { idle with inputs := [.word 0x540000] }) (fun t => decide (t = idle)) = true ∧
      nextIs (step { waiting with inputs := [.word 0x000000] }) (fun t => decide (t.txBusy = false ∧ t.owed = 1)) = true := by
  decide

/-- R246 on (A3): the execution of a second interrupt for one transmission is refused, the one of an early interrupt is not. -/
theorem test_admittedStep :
    refusedIs (admittedStep { idle with answered := true, inputs := [.word 0x540000] }) .environmentBroken = true ∧
      nextIs (admittedStep { waiting with inputs := [.word 0x540000] }) (fun t => decide (t.txBusy = false ∧ t.owed = 0)) = true ∧
      nextIs (admittedStep { idle with inputs := [.word 0x540000] }) (fun t => decide (t = idle)) = true := by decide

/-- R75: the thresholds keep their values, whatever timing is configured after `CTC.INIT`. -/
theorem test_step_timing_change_in_wait :
    nextIs (step { waiting with inputs := [.configure (.direct 20 40) 0x01] })
      (fun t => decide (t.t15 = 15 ∧ t.t35 = 35 ∧ t.session = .sendWait)) = true := by decide

/-! ## System and queue -/

theorem test_sysReset : nextIs (exec .sysReset waiting)
    (fun t => decide (t.session = .init ∧ t.phase = .idle ∧ t.txBusy = false ∧ t.pos = 0 ∧ t.run = false ∧ t.buf = [])) =
    true := by decide

theorem test_qInit : nextIs (exec .qInit full4) (fun t => decide (t.head = 0 ∧ t.tail = 0)) = true := by decide

/-- V-Q-2. -/
theorem test_qEnq : nextIs (exec (.qEnq 0x0AA) idle4)
    (fun t => decide (t.head = 1 ∧ t.slot = [(0, 0x0AA)] ∧ t.result = .bit true)) = true := by decide

/-- V-Q-5. -/
theorem test_qEnq_full : nextIs (exec (.qEnq 0x0DD) full4)
    (fun t => decide (t.head = 3 ∧ t.result = .bit false ∧ t.drops = [.qFull 0x0DD])) = true := by decide

/-- V-Q-7. -/
theorem test_qDeq : nextIs (exec .qDeq full4) (fun t => decide (t.tail = 1 ∧ t.result = .item (some 0x0AA))) = true := by
  decide

/-- V-Q-13. -/
theorem test_qDeq_empty : nextIs (exec .qDeq idle4) (fun t => decide (t.tail = 0 ∧ t.result = .item none)) = true := by
  decide

/-- V-Q-6. -/
theorem test_qPeek : nextIs (exec .qPeek full4) (fun t => decide (t.tail = 0 ∧ t.result = .item (some 0x0AA))) = true := by
  decide

/-- V-Q-14. -/
theorem test_qPeek_empty : nextIs (exec .qPeek idle4) (fun t => decide (t.result = .item none)) = true := by decide

/-- V-Q-1. -/
theorem test_qFree : nextIs (exec .qFree idle4) (fun t => decide (t.result = .count 3)) = true := by decide

/-- V-Q-8. -/
theorem test_qCount_wrapped : nextIs (exec .qCount wrapped4) (fun t => decide (t.result = .count 3)) = true := by decide

/-- V-Q-8. -/
theorem test_qIter_wrapped :
    nextIs (exec .qIter wrapped4) (fun t => decide (t.result = .items [0x1BB, 0x3CC, 0x0EE])) = true := by decide

/-! ## The timer -/

/-- V-T-1. -/
theorem test_ctcInit :
    nextIs (exec .ctcInit { idle with cfg := { cfg4 with timing := .serial 9600 8 true 1 1000000 } })
      (fun t => decide (t.t15 = 1719 ∧ t.t35 = 4011 ∧ t.run = true)) = true := by decide

/-- V-T-6. -/
theorem test_ctcInit_refused :
    refusedIs (exec .ctcInit { idle with cfg := { cfg4 with timing := .serial 300 8 true 1 1000000 } })
      .illegalConfiguration = true := by decide

/-- V-T-11. -/
theorem test_ctcTick_gap : nextIs (exec (.ctcTick 1) { idle with cnt := 14 })
    (fun t => decide (t.cnt = 15 ∧ t.gap = true ∧ t.sil = false)) = true := by decide

/-- V-T-13. -/
theorem test_ctcTick_reload : nextIs (exec (.ctcTick 1) { idle with cnt := 34, gap := true })
    (fun t => decide (t.cnt = 0 ∧ t.gap = true ∧ t.sil = true)) = true := by decide

/-- V-T-16. -/
theorem test_ctcRx : nextIs (exec (.ctcRx 0x55) { idle with gap := true, sil := true })
    (fun t => decide (t.slot = [(0, 0x355)] ∧ t.cnt = 0 ∧ t.gap = false ∧ t.sil = false)) = true := by decide

/-- V-T-32. -/
theorem test_ctcRx_full : nextIs (exec (.ctcRx 0x77) { full4 with gap := true, cnt := 20 })
    (fun t => decide (t.head = 3 ∧ t.tail = 0 ∧ t.drops = [.qFull 0x177] ∧ t.cnt = 0 ∧ t.gap = false)) = true := by decide

theorem test_ctcSilnow : nextIs (exec .ctcSilnow { idle with sil := true, gap := true })
    (fun t => decide (t.result = .bit true ∧ t.sil = true)) = true := by decide

theorem test_ctcRestart : nextIs (exec .ctcRestart { idle with cnt := 20, sil := true, gap := true })
    (fun t => decide (t.cnt = 0 ∧ t.gap = false ∧ t.sil = false ∧ t.run = true)) = true := by decide

/-! ## The frame-assembler -/

/-- V-S-2. -/
theorem test_faBegin : nextIs (exec .faBegin { idle with stopSil := true, emptied := true })
    (fun t => decide (t.phase = .scan ∧ t.stopSil = false ∧ t.emptied = false)) = true := by decide

/-- V-F-14, its one append: the gap flag is ignored. -/
theorem test_faScan : nextIs (exec .faScan { withQueue [0x155] (withBuffer [0x01, 0x03, 0x00] idle) with phase := .scan })
    (fun t => decide (t.pos = 4 ∧ memRead t.buf 3 = some 0x55 ∧ t.tail = 1 ∧ t.phase = .scan)) = true := by decide

/-- V-F-15, its one scan: silence stops the loop and the byte stays queued. -/
theorem test_faScan_stops : nextIs (exec .faScan { withQueue [0x255] (withBuffer [0x01, 0x03, 0x00] idle) with phase := .scan })
    (fun t => decide (t.pos = 3 ∧ t.tail = 0 ∧ t.stopSil = true ∧ t.phase = .decision)) = true := by decide

/-- V-F-1: an empty buffer never completes. -/
theorem test_faDecide_empty : nextIs (exec .faDecide { idle with phase := .decision, emptied := true, sil := true })
    (fun t => decide (t.phase = .idle)) = true := by decide

/-- V-F-4, its decision. -/
theorem test_faDecide : nextIs (exec .faDecide { withBuffer request idle with phase := .decision, emptied := true, sil := true })
    (fun t => decide (t.phase = .check)) = true := by decide

/-- V-F-4, its check. -/
theorem test_faCheck : nextIs (exec .faCheck { withBuffer request idle with phase := .check })
    (fun t => decide (t.phase = .addrMatch ∧ t.pos = 8)) = true := by decide +kernel

/-- V-F-6, its check. -/
theorem test_faCheck_bad : nextIs (exec .faCheck { withBuffer (request.set 7 0x0B) idle with phase := .check })
    (fun t => decide (t.phase = .idle ∧ t.pos = 0 ∧ t.drops = [.crc 8])) = true := by decide +kernel

theorem test_faClear : nextIs (exec .faClear (withBuffer shortFrame idle))
    (fun t => decide (t.pos = 0 ∧ memRead t.buf 0 = some 0x01)) = true := by decide

/-- V-F-9. -/
theorem test_faPoll_short : nextIs (exec .faPoll { withQueue [0x355] idle with sil := true })
    (fun t => decide (t.result = .pass false ∧ t.pos = 0 ∧ t.tail = 1 ∧ t.drops = [.short 1])) = true := by decide

/-- V-F-11. -/
theorem test_faPoll : nextIs (exec .faPoll { withQueue [0x301, 0x07E, 0x080] idle with sil := true })
    (fun t => decide (t.result = .pass true ∧ t.phase = .addrMatch ∧ candidateIs t shortFrame = true)) = true := by decide

/-! ## The CRC -/

/-- R180. -/
theorem test_crcReset : nextIs (exec .crcReset idle) (fun t => decide (t.result = .crc 0xFFFF)) = true := by decide

/-- V-CRC-25. -/
theorem test_crcByte : nextIs (exec (.crcByte 0x56) { idle with crcAcc := 0x1234 })
    (fun t => decide (t.result = .crc 0xE993)) = true := by decide

/-- V-CRC-9. -/
theorem test_crcBlock : nextIs (exec .crcBlock (withBuffer [0x01, 0x03, 0x00, 0x00, 0x00, 0x01] idle))
    (fun t => decide (t.result = .crc 0x0A84)) = true := by decide +kernel

/-- V-CRC-20. -/
theorem test_crcVerify : nextIs (exec .crcVerify (withBuffer request idle)) (fun t => decide (t.result = .bit true)) = true := by decide +kernel

/-- V-CRC-22. -/
theorem test_crcVerify_swapped : nextIs (exec .crcVerify (withBuffer [0x01, 0x03, 0x00, 0x00, 0x00, 0x01, 0x0A, 0x84] idle))
    (fun t => decide (t.result = .bit false)) = true := by decide +kernel

/-- E1 and E7: the responder's two answers to the request. -/
theorem test_buildFrame :
    buildFrame 256 0x01 [0x03, 0x02, 0x12, 0x34] = some [0x01, 0x03, 0x02, 0x12, 0x34, 0xB5, 0x33] ∧
      buildFrame 256 0x01 (exceptionPdu 0x03 .illegalDataAddress) = some [0x01, 0x83, 0x02, 0xC0, 0xF1] := by
  decide +kernel

/-- R91 on the request of E1; the PDU of a three-byte frame is empty (R92, log 24). -/
theorem test_aduFunctionCode : aduFunctionCode request = some 0x03 ∧ aduFunctionCode shortFrame = none := by decide

/-! ## The session -/

/-- V-S-1. -/
theorem test_ssmPoll_init : nextIs (exec .ssmPoll State.reset)
    (fun t => decide (t.session = .receive ∧ t.phase = .idle ∧ t.run = true ∧ t.rxen = true ∧ t.t35 = 35)) = true := by decide

/-- V-S-10. -/
theorem test_ssmPoll_sent : nextIs (exec .ssmPoll { waiting with txBusy := false })
    (fun t => decide (t.session = .receive ∧ t.pos = 0 ∧ t.outputs = [.clearOutputBuffer])) = true := by decide

theorem test_ssmInit : nextIs (exec .ssmInit full4)
    (fun t => decide (t.head = 0 ∧ t.tail = 0 ∧ t.session = .receive ∧ t.t15 = 15)) = true := by decide

/-- V-S-3. -/
theorem test_ssmMatch : nextIs (exec .ssmMatch { withBuffer request idle with phase := .addrMatch })
    (fun t => decide (t.phase = .dispatch ∧ t.outputs = [.dispatchRequest request])) = true := by decide

/-- V-S-5: address 0 is not special. -/
theorem test_ssmMatch_other :
    nextIs (exec .ssmMatch { withBuffer [0x00, 0x03, 0x00, 0x00, 0x00, 0x01, 0x85, 0xDB] idle with phase := .addrMatch })
      (fun t => decide (t.phase = .idle ∧ t.pos = 0 ∧ t.drops = [.addr 0x00])) = true := by decide

/-- V-S-6. -/
theorem test_ssmRespond_ok : nextIs (exec (.ssmRespond true) atDispatch)
    (fun t => decide (t.session = .sendWait ∧ t.txBusy = true ∧ t.phase = .idle ∧ t.pos = 3)) = true := by decide

/-- V-S-7. -/
theorem test_ssmRespond_fail : nextIs (exec (.ssmRespond false) atDispatch)
    (fun t => decide (t.session = .receive ∧ t.txBusy = false ∧ t.phase = .idle ∧ t.drops = [.txRefused])) = true := by decide

/-- V-S-9. -/
theorem test_ssmTxdone : nextIs (exec .ssmTxdone waiting)
    (fun t => decide (t.txBusy = false ∧ t.session = .sendWait)) = true := by decide

/-- R229 on V-F-11: one pass, up to the dispatch request. -/
theorem test_ssmRun : nextIs (exec .ssmRun { withQueue [0x301, 0x07E, 0x080] idle with sil := true })
    (fun t => decide (t.phase = .dispatch ∧ t.outputs = [.dispatchRequest shortFrame])) = true := by decide

/-- R222: a pass that finds nothing. -/
theorem test_ssmRun_nothing : nextIs (exec .ssmRun idle)
    (fun t => decide (t.phase = .idle ∧ t.emptied = true ∧ t.outputs = [])) = true := by decide

/-- R108: `GAP` is `TICK T15`. -/
theorem test_trace_gap : nextIs (runLine .gap idle) (fun t => decide (t.cnt = 15 ∧ t.gap = true)) = true := by decide

/-! ## Witnesses: states that meet the hypotheses of the obligations, each clause at a boundary -/

theorem wf_idle : Wf idle := by constructor <;> decide

theorem wf_full4 : Wf full4 := by constructor <;> decide

theorem wf_wrapped4 : Wf wrapped4 := by constructor <;> decide

/-- A machine that has not been started, with `N = 4`. -/
def fresh4 : State := { State.reset with cfg := cfg4 }

theorem inv_fresh4 : Inv fresh4 := by
  constructor <;> first | (constructor <;> decide) | decide | simp [fresh4, State.reset]

theorem inv_idle : Inv idle := by
  constructor <;> first | exact wf_idle | decide | simp [idle, State.reset]

theorem inv_waiting : Inv waiting := by
  constructor <;> first | (constructor <;> decide) | decide | simp [waiting, withBuffer, idle, State.reset]

theorem shortFrame_checks (p : Phase) :
    2 ≤ ({ withBuffer shortFrame idle with phase := p } : State).pos ∧
      ∃ f, candidate { withBuffer shortFrame idle with phase := p } = .next f ∧ crcGood f = true :=
  ⟨by show 2 ≤ 3; decide, shortFrame, rfl, by decide⟩

theorem inv_atMatch : Inv atMatch := by
  constructor <;> first | (constructor <;> decide) | decide | exact fun _ => shortFrame_checks _

theorem inv_atDispatch : Inv atDispatch := by
  constructor <;> first | (constructor <;> decide) | decide | exact fun _ => shortFrame_checks _

/-- `s` with this word as its next event. -/
def withWord (w : OpWord) (s : State) : State := { s with inputs := [.word w] }

theorem witness_DecodeOfEncode : (Instr.ctcTick 1).wellFormed = true ∧ (Instr.qEnq 0x3FF).wellFormed = true := by decide

theorem witness_EncodeOfDecode : decode 0x21FFFF = .ok (.ctcTick 0xFFFF) := rfl

/-- The first and the last word of each clause, with the two clauses on `arg` at their bounds. -/
theorem witness_ReservedWordsAreRefused :
    configLegal (withWord 0x170000 idle).cfg = true ∧ (0x170000 : OpWord).toNat / 65536 = 0x17 ∧
      (0x110400 : OpWord).toNat % 65536 = 2 ^ 10 ∧ (0x210000 : OpWord).toNat % 65536 = 0 ∧
      (0x220100 : OpWord).toNat % 65536 = 2 ^ 8 ∧ (0x410100 : OpWord).toNat % 65536 = 2 ^ 8 ∧
      (0x530002 : OpWord).toNat % 65536 = 2 ∧ (0x000001 : OpWord).toNat % 65536 ≠ 0 := by decide

/-- A byte received at DISPATCH, and a transmit-complete interrupt there. -/
theorem witness_StepRunsTheDecodedOperation :
    configLegal (withWord 0x220084 atDispatch).cfg = true ∧ decode 0x220084 = .ok (.ctcRx 0x84) ∧
      atDispatch.phase = .dispatch ∧
      Instr.ctcRx 0x84 ∉ [Instr.qInit, .qDeq, .qPeek, .ctcInit, .ctcSilnow, .faBegin, .faClear, .faPoll, .crcVerify, .ssmInit] ∧
      decode 0x540000 = .ok .ssmTxdone ∧
      Instr.ssmTxdone ∉ [Instr.qInit, .qDeq, .qPeek, .ctcInit, .ctcSilnow, .faBegin, .faClear, .faPoll, .crcVerify, .ssmInit] :=
  ⟨by decide, rfl, rfl, by decide, rfl, by decide⟩

/-- Each clause: `N = 1`, `ADU_MAX = 1`, `T15 = 0`, `T15 = T35`, `T35 = 2^W_T`, and each parameter of 0. -/
theorem witness_IllegalConfigurationIsRefused :
    (1 < 2) ∧ ¬(0 < 0 ∧ 0 < 1 ∧ 1 ≤ 2 ^ 16 - 1) ∧ ¬(0 < 15 ∧ 15 < 15 ∧ 15 ≤ 2 ^ 16 - 1) ∧
      ¬(0 < 15 ∧ 15 < 65536 ∧ 65536 ≤ 2 ^ 16 - 1) ∧
      configLegal { cfg4 with n := 1 } = false ∧ configLegal { cfg4 with aduMax := 1 } = false ∧
      configLegal { cfg4 with timing := .direct 15 65536 } = false ∧
      configLegal { cfg4 with timing := .serial 0 8 true 1 1000000 } = false ∧
      configLegal { cfg4 with timing := .serial 9600 0 true 1 1000000 } = false ∧
      configLegal { cfg4 with timing := .serial 9600 8 true 0 1000000 } = false ∧
      configLegal { cfg4 with timing := .serial 9600 8 true 1 0 } = false := by decide

/-- The clause on derived thresholds: V-T-6, V-T-8, and a tick so long that `T15 = T35`. -/
theorem witness_IllegalConfigurationIsRefused_derived :
    11 = 1 + 8 + (if true then 1 else 0) + 1 ∧
      IsLeast { k | 3 * 11 * 1000000 ≤ 2 * 300 * k } 55000 ∧ IsLeast { k | 7 * 11 * 1000000 ≤ 2 * 300 * k } 128334 ∧
      ¬(0 < 55000 ∧ 55000 < 128334 ∧ 128334 ≤ 2 ^ 16 - 1) ∧
      IsLeast { k | 3 * 11 * 72000000 ≤ 2 * 19200 * k } 61875 ∧
      IsLeast { k | 7 * 11 * 72000000 ≤ 2 * 19200 * k } 144375 ∧ ¬(0 < 61875 ∧ 61875 < 144375 ∧ 144375 ≤ 2 ^ 16 - 1) ∧
      IsLeast { k | 3 * 11 * 1000 ≤ 2 * 115200 * k } 1 ∧ IsLeast { k | 7 * 11 * 1000 ≤ 2 * 115200 * k } 1 ∧
      ¬(0 < 1 ∧ 1 < 1 ∧ 1 ≤ 2 ^ 16 - 1) := by
  refine ⟨rfl, ⟨?_, fun k hk => ?_⟩, ⟨?_, fun k hk => ?_⟩, by decide, ⟨?_, fun k hk => ?_⟩, ⟨?_, fun k hk => ?_⟩, by decide,
    ⟨?_, fun k hk => ?_⟩, ⟨?_, fun k hk => ?_⟩, by decide⟩ <;> simp at * <;> omega

theorem witness_NoEventKeepsTheState : configLegal idle.cfg = true ∧ idle.inputs = [] := by decide

/-- Inside a transaction: a new slave address, and a change of the timing alone, taken and not taken; outside one: a new slave
address, an illegal timing, and an event that changes nothing. -/
theorem witness_ConfigurationChange :
    configLegal atMatch.cfg = true ∧ atMatch.phase ≠ .idle ∧ waiting.session = .sendWait ∧ (2 : Byte) ≠ atMatch.cfg.slaveAddr ∧
      configLegal { atMatch.cfg with timing := .direct 20 40 } = true ∧
      configLegal { atMatch.cfg with timing := .direct 40 40 } = false ∧ idle.phase = .idle ∧ idle.session ≠ .sendWait ∧
      configLegal { idle.cfg with slaveAddr := 2 } = true ∧
      ({ idle.cfg with timing := .direct 15 35, slaveAddr := 1 } : Config) = idle.cfg := by decide

/-- Full, not full, and not full with the head about to wrap. -/
theorem witness_QEnqStoresOrDrops :
    full4.head < full4.cfg.n ∧ ringNext full4.cfg.n full4.head = full4.tail ∧
      idle4.head < idle4.cfg.n ∧ ringNext idle4.cfg.n idle4.head ≠ idle4.tail ∧
      ringNext 4 ({ full4 with tail := 1 } : State).head ≠ ({ full4 with tail := 1 } : State).tail := by decide

theorem witness_QDeqTakesTheOldest :
    idle4.head = idle4.tail ∧ full4.head ≠ full4.tail ∧ full4.tail < full4.cfg.n ∧
      memRead full4.slot full4.tail = some 0x0AA := by decide

theorem witness_QPeekIsNonDestructive :
    idle4.head = idle4.tail ∧ wrapped4.head ≠ wrapped4.tail ∧ wrapped4.tail < wrapped4.cfg.n ∧
      memRead wrapped4.slot wrapped4.tail = some 0x1BB := by decide

theorem witness_QCountAndQFree : wrapped4.head < wrapped4.cfg.n ∧ wrapped4.tail < wrapped4.cfg.n := by decide

theorem witness_QIterListsTheStored : Wf wrapped4 := wf_wrapped4

/-- Empty, with room, and full. -/
theorem witness_QueueRefinesBoundedFifo :
    Wf full4 ∧ Represents full4 [0x0AA, 0x1BB, 0x3CC] ∧ [0x0AA, 0x1BB, 0x3CC].length = full4.cfg.n - 1 ∧
      Wf idle ∧ Represents idle [] ∧ ([] : List Slot).length < idle.cfg.n - 1 :=
  ⟨wf_full4, by unfold Represents; decide, by decide, wf_idle, by unfold Represents; decide, by decide⟩

theorem witness_RingNextReturns : 0 < 1 ∧ 2 < 3 := by decide

theorem witness_PeekedElementIsDequeued :
    Wf wrapped4 ∧ wrapped4.head ≠ wrapped4.tail ∧ memRead wrapped4.slot wrapped4.tail = some 0x1BB :=
  ⟨wf_wrapped4, by decide, by decide⟩

/-- V-T-1 (taken) and V-T-6 (refused), and thresholds given directly at the bounds of R9. -/
theorem witness_CtcInitDerivesThresholds :
    IsLeast { k | 3 * (1 + 8 + (if true then 1 else 0) + 1) * 1000000 ≤ 2 * 9600 * k } 1719 ∧
      IsLeast { k | 7 * (1 + 8 + (if true then 1 else 0) + 1) * 1000000 ≤ 2 * 9600 * k } 4011 ∧
      (0 < 1719 ∧ 1719 < 4011 ∧ 4011 ≤ 2 ^ 16 - 1) ∧
      IsLeast { k | 3 * (1 + 8 + (if true then 1 else 0) + 1) * 1000000 ≤ 2 * 300 * k } 55000 ∧
      IsLeast { k | 7 * (1 + 8 + (if true then 1 else 0) + 1) * 1000000 ≤ 2 * 300 * k } 128334 ∧
      ¬(0 < 55000 ∧ 55000 < 128334 ∧ 128334 ≤ 2 ^ 16 - 1) ∧
      (0 < 1 ∧ 1 < 65535 ∧ 65535 ≤ 2 ^ 16 - 1) ∧ ¬(0 < 1 ∧ 1 < 65536 ∧ 65536 ≤ 2 ^ 16 - 1) := by
  refine ⟨⟨?_, fun k hk => ?_⟩, ⟨?_, fun k hk => ?_⟩, by decide, ⟨?_, fun k hk => ?_⟩, ⟨?_, fun k hk => ?_⟩, by decide,
    by decide, by decide⟩ <;> simp at * <;> omega

/-- The tick before `T15`, before `T35`, and a stopped timer. -/
theorem witness_CtcTickCountsAndFlags :
    idle.run = true ∧ ({ idle with cnt := 34 } : State).cnt + 1 < 2 ^ idle.cfg.wT ∧ (1 : BitVec 16) ≠ 0 ∧
      State.reset.run = false ∧ (1 : BitVec 16).toNat + (0xFFFE : BitVec 16).toNat < 2 ^ 16 := by decide

theorem witness_ElapsedTimeLaw :
    idle.run = true ∧ 0 < idle.t15 ∧ idle.t15 < idle.t35 ∧ idle.t35 < 2 ^ idle.cfg.wT ∧ Elapsed idle 0 ∧
      Elapsed { idle with cnt := 34, gap := true } 34 :=
  ⟨rfl, by decide, by decide, by decide, by unfold Elapsed; decide, by unfold Elapsed; decide⟩

theorem witness_CtcRxTagsAndRestarts :
    State.reset.rxen = false ∧ full4.rxen = true ∧ full4.head < full4.cfg.n ∧
      (0x077 : Slot).toNat = full4.sil.toNat * 512 + full4.gap.toNat * 256 + (0x77 : Byte).toNat ∧
      ringNext full4.cfg.n full4.head = full4.tail ∧ ringNext idle4.cfg.n idle4.head ≠ idle4.tail := by decide

/-- V-T-22 and V-T-23, the two sides of `T15`; and a full queue, on which the second byte is dropped. -/
theorem witness_ClassificationLaw :
    Wf idle ∧ idle.rxen = true ∧ idle.run = true ∧ 0 < idle.t15 ∧ idle.t15 < idle.t35 ∧
      (∀ k ∈ ([14, 1] : List (BitVec 16)), k ≠ 0) ∧ (([14, 1] : List (BitVec 16)).map BitVec.toNat).sum = 15 ∧
      Wf full4 ∧ nextIs (execSeq (.ctcRx 0x11 :: [14, 1].map .ctcTick) full4)
        (fun t => decide (ringNext full4.cfg.n t.head = t.tail)) = true :=
  ⟨wf_idle, rfl, rfl, by decide, by decide, by simp, by decide, wf_full4, by decide⟩

theorem witness_FlagsClearedOnlyByRestart :
    exec .ctcRestart { idle with gap := true, sil := true } = .next idle ∧
      ({ idle with gap := true, sil := true } : State).gap = true ∧ idle.gap = false := ⟨rfl, rfl, rfl⟩

theorem witness_SetupWrittenOnlyByInitialisation :
    exec .faClear (withBuffer shortFrame idle) = .next { withBuffer shortFrame idle with pos := 0 } ∧
      Instr.faClear ≠ .sysReset ∧ idle.run = true ∧ idle.rxen = true ∧ idle.session ≠ .init := ⟨rfl, by decide⟩

/-- The four ways of a scan: empty; stopped; taken by a non-empty and by an empty buffer; buffer full. -/
theorem witness_FaScanIteration :
    idle4.head = idle4.tail ∧
      (full4.head ≠ full4.tail ∧ full4.tail < full4.cfg.n ∧ memRead full4.slot full4.tail = some 0x0AA) ∧
      slotSil 0x3CC = true ∧ (withBuffer shortFrame full4).pos ≠ 0 ∧ slotSil 0x0AA = false ∧ full4.pos = 0 ∧
      full4.pos < full4.cfg.aduMax ∧ ¬({ full4 with pos := 256 } : State).pos < full4.cfg.aduMax := by decide

theorem witness_FaDecideCompletion :
    (({ withBuffer shortFrame idle with stopSil := true } : State).stopSil = true ∧ (withBuffer shortFrame idle).pos ≠ 0) ∧
      ¬((idle.stopSil = true ∨ (idle.emptied = true ∧ idle.sil = true)) ∧ idle.pos ≠ 0) := by decide

/-- One byte; a good frame; a bad one. -/
theorem witness_FaCheckOutcome :
    ({ withBuffer [0x55] idle with phase := .check } : State).pos < 2 ∧
      Buffered { withBuffer shortFrame idle with phase := .check } shortFrame ∧
      ({ withBuffer shortFrame idle with phase := .check } : State).pos ≤ idle.cfg.aduMax ∧ shortFrame.length = 3 ∧
      shortFrame = [0x01] ++ [0x7E, 0x80] ∧ [(0x01 : Byte)].foldl crcUpdate 0xFFFF = (0x80 : Byte) ++ (0x7E : Byte) ∧
      [(0x01 : Byte)].foldl crcUpdate 0xFFFF ≠ (0x7E : Byte) ++ (0x80 : Byte) :=
  ⟨by decide, by unfold Buffered; decide, by decide, rfl, rfl, by decide, by decide⟩

theorem witness_FaPollIsItsParts : Wf wrapped4 := wf_wrapped4

/-- A frame ended by live silence, and one ended by the next frame's first byte; a good and a bad CRC, each of a well-shaped
state. -/
theorem witness_PassReportsExactlyTheFrame :
    Wf { withQueue [0x301, 0x07E, 0x080] idle with sil := true } ∧
      Represents { withQueue [0x301, 0x07E, 0x080] idle with sil := true } (0x301 :: [0x07E, 0x080] ++ []) ∧
      Wf (withQueue [0x301, 0x07E, 0x080, 0x301] idle) ∧
      Represents (withQueue [0x301, 0x07E, 0x080, 0x301] idle) (0x301 :: [0x07E, 0x080] ++ [0x301]) ∧
      Wf { withQueue [0x301, 0x080, 0x07E] idle with sil := true } ∧
      Represents { withQueue [0x301, 0x080, 0x07E] idle with sil := true } (0x301 :: [0x080, 0x07E] ++ []) ∧
      (∀ v ∈ ([0x07E, 0x080] : List Slot), slotSil v = false) ∧ slotSil 0x301 = true ∧
      crcGood ([0x301, 0x07E, 0x080].map slotValue) = true ∧ crcGood ([0x301, 0x080, 0x07E].map slotValue) = false :=
  ⟨by constructor <;> decide, by unfold Represents; decide, by constructor <;> decide, by unfold Represents; decide,
    by constructor <;> decide, by unfold Represents; decide, by simp [slotSil], by decide, by decide, by decide⟩

theorem witness_GapBitsDoNotMatter : Instr.faScan.kind = .microStep := rfl

theorem witness_CrcBlockAndCrcVerify :
    (withBuffer shortFrame idle).pos ≤ idle.cfg.aduMax ∧ shortFrame.length = (withBuffer shortFrame idle).pos ∧
      Buffered (withBuffer shortFrame idle) shortFrame ∧ shortFrame = [0x01] ++ [0x7E, 0x80] ∧
      (withBuffer [0x55] idle).pos = 1 ∧ Buffered (withBuffer [0x55] idle) [0x55] :=
  ⟨by decide, rfl, by unfold Buffered; decide, rfl, rfl, by unfold Buffered; decide⟩

/-- The last byte of the frame with no payload changed. -/
theorem witness_CrcRoundTripAndMutation : 1 < ([] ++ [(0xFF : Byte), 0xFF]).length ∧ [(0xFF : Byte), 0xFF][1]? ≠ some 0xFE := by
  decide

theorem witness_CrcGoodIffZero : 2 ≤ [(0xFF : Byte), 0xFF].length := by decide

theorem witness_BuiltFramePassesTheCheck : 1 + ([] : List Byte).length + 2 ≤ 3 ∧ 2 < 1 + ([] : List Byte).length + 2 := by
  decide

theorem witness_SsmInitStartsTheSession :
    thresholds idle.cfg.timing = some (15, 35) ∧ (0 < 15 ∧ 15 < 35 ∧ 35 ≤ 2 ^ idle.cfg.wT - 1) ∧
      thresholds (.direct 35 35) = some (35, 35) ∧ ¬(0 < 35 ∧ 35 < 35 ∧ 35 ≤ 2 ^ idle.cfg.wT - 1) ∧
      thresholds (.serial 0 8 true 1 1000000) = none := by decide

theorem witness_SsmPollByState :
    fresh4.phase = .idle ∧ fresh4.session = .init ∧ configLegal fresh4.cfg = true ∧ idle.phase = .idle ∧
      idle.session = .receive ∧ waiting.phase = .idle ∧ waiting.session = .sendWait ∧ waiting.txBusy = true ∧
      ({ waiting with txBusy := false } : State).txBusy = false := by decide

theorem witness_SsmMatchFiltersAddresses :
    atMatch.phase = .addrMatch ∧ atMatch.pos ≤ atMatch.cfg.aduMax ∧ (0x01 :: [0x7E, 0x80]).length = atMatch.pos ∧
      Buffered atMatch (0x01 :: [0x7E, 0x80]) ∧ (0x01 : Byte) = atMatch.cfg.slaveAddr ∧
      (0x01 : Byte) ≠ ({ atMatch.cfg with slaveAddr := 2 } : Config).slaveAddr :=
  ⟨rfl, by decide, rfl, by unfold Buffered; decide, rfl, by decide⟩

theorem witness_SsmRespondAndSsmTxdone : atDispatch.phase = .dispatch := rfl

theorem witness_SsmRunIsOnePass : Inv idle ∧ idle.phase ≠ .dispatch ∧ Inv atDispatch ∧ atDispatch.phase = .dispatch :=
  ⟨inv_idle, by decide, inv_atDispatch, rfl⟩

theorem witness_MicroStepMustAgreeWithPhase :
    atMatch.phase ≠ .idle ∧ atMatch.phase ≠ .scan ∧ atMatch.phase ≠ .decision ∧ atMatch.phase ≠ .check ∧
      idle.phase ≠ .addrMatch ∧ idle.phase ≠ .dispatch := by decide

theorem witness_TransitionTable :
    Inv idle ∧ Instr.ssmPoll.kind ≠ .internal ∧ Instr.ssmPoll.kind ≠ .composite ∧
      exec .ssmPoll idle = .next { idle with phase := .scan } := ⟨inv_idle, by decide, by decide, rfl⟩

/-- V-S-3 on the short frame: the step makes a dispatch request. -/
theorem witness_DispatchOnlyOwnGoodFrames :
    Inv (withWord 0x520000 atMatch) ∧ OfTheCore (withWord 0x520000 atMatch) ∧
      step (withWord 0x520000 atMatch) = .next { atDispatch with outputs := [.dispatchRequest shortFrame] } := by
  refine ⟨inv_atMatch.congr rfl, ?_, rfl⟩
  intro w rest i hin hi
  cases hin
  cases hi
  exact ⟨by decide, by intro h; cases h⟩

theorem witness_InterruptsCommute : full4.head < full4.cfg.n ∧ idle.head < idle.cfg.n := by decide

theorem witness_SendWaitHasNoTimeout :
    Inv waiting ∧ waiting.txBusy = true ∧ exec .ssmPoll waiting = .next waiting ∧ Instr.ssmPoll.kind ≠ .internal :=
  ⟨inv_waiting, rfl, rfl, by decide⟩

theorem witness_EventsBeforeInitialisation : Inv fresh4 ∧ fresh4.session = .init ∧ (1 : BitVec 16) ≠ 0 :=
  ⟨inv_fresh4, rfl, by decide⟩

theorem witness_StepKeepsTheInvariants :
    Inv (withWord 0x500000 idle) ∧ OfTheCore (withWord 0x500000 idle) ∧
      step (withWord 0x500000 idle) = .next { idle with phase := .scan } := by
  refine ⟨inv_idle.congr rfl, ?_, rfl⟩
  intro w rest i hin hi
  cases hin
  cases hi
  exact ⟨by decide, by intro h; cases h⟩

theorem witness_StepKeepsTheShape :
    Wf (withWord 0x120000 full4) ∧
      step (withWord 0x120000 full4) = .next { full4 with tail := 1, result := .item (some 0x0AA) } :=
  ⟨wf_full4.congr rfl rfl rfl rfl rfl rfl (by decide), rfl⟩

/-- A micro-step where `PHASE` selects it, `SSM.RUN` and `CRC.VERIFY` where they have a meaning. -/
theorem witness_OperationsAreTotal :
    Inv atMatch ∧ selectedBy .ssmMatch = some .addrMatch ∧ atMatch.phase = .addrMatch ∧ atMatch.phase ≠ .dispatch ∧
      2 ≤ atMatch.pos ∧ Instr.ssmMatch.wellFormed = true := ⟨inv_atMatch, rfl, rfl, by decide, by decide, rfl⟩

theorem witness_PollAgentLeavesTheProducerAlone :
    exec .ssmPoll idle = .next { idle with phase := .scan } ∧ idle.session ≠ .init ∧ Instr.ssmPoll.kind = .microStep :=
  ⟨rfl, by decide, rfl⟩

theorem witness_ReadsHaveNoSideEffect :
    Instr.qPeek ∈ [Instr.qPeek, .qFree, .qCount, .qIter, .ctcSilnow, .crcBlock, .crcVerify] ∧
      exec .qPeek full4 = .next { full4 with result := .item (some 0x0AA) } := ⟨by decide, rfl⟩

/-- The vectors' configuration: `IDX_W` 4 of `N = 16`, `POS_W` 9 of `ADU_MAX = 256`; and `N` one above a power of two. -/
theorem witness_RegisterWidthsOfTheConfiguration :
    Wf full4 ∧ Config.vectors.idxW = 4 ∧ Config.vectors.posW = 9 ∧ ({ cfg4 with n := 5 } : Config).idxW = 3 :=
  ⟨wf_full4, by decide, by decide, by decide⟩

/-- A pass opened at DISPATCH; an interrupt after the one that was owed, and a late one, owed since before a reset, after a
refused answer. -/
theorem witness_EnvironmentBreach :
    configLegal (withWord 0x350000 atDispatch).cfg = true ∧ decode 0x350000 = .ok .faPoll ∧ atDispatch.phase = .dispatch ∧
      Instr.faPoll ∈ [Instr.qInit, .qDeq, .qPeek, .ctcInit, .ctcSilnow, .faBegin, .faClear, .faPoll, .crcVerify, .ssmInit] ∧
      decode 0x540000 = .ok .ssmTxdone ∧ ({ waiting with txBusy := false, owed := 0 } : State).txBusy = false ∧
      ({ waiting with txBusy := false, owed := 0 } : State).answered = true ∧
      ({ idle with owed := 1 } : State).txBusy = false ∧ idle.answered = false :=
  ⟨by decide, rfl, rfl, by decide, rfl, rfl, rfl, rfl, rfl⟩

/-- An answer that starts a transmission; and a breach of (A3). -/
theorem witness_BusyMeansInterruptOwed :
    exec .ssmPoll waiting = .next waiting ∧ waiting.txBusy = true ∧ 0 < waiting.owed ∧
      nextIs (step (withWord 0x530001 atDispatch)) (fun t => decide (t.txBusy = true ∧ t.owed = 1)) = true ∧
      atDispatch.txBusy = false ∧ breaksA3 .ssmTxdone { idle with answered := true } = true ∧ idle.txBusy = false :=
  ⟨rfl, rfl, by decide, by decide, rfl, rfl, rfl⟩

end Sys2Proof.Tests
end

section
/-!
PROOFS. The constraint of R9: which configurations it allows, the thresholds R141 derives as least tick counts, the step's
refusal of every other configuration, and the registers inside the widths derived from an allowed one.
-/

namespace Sys2Proof.Machine

/-! ## The thresholds of R141 -/

theorem ceilDiv_le_iff {a b k : Nat} (hb : 0 < b) : ceilDiv a b ≤ k ↔ a ≤ b * k := by
  rw [ceilDiv, Nat.div_le_iff_le_mul_add_pred hb]
  omega

/-- One rounding up gives the least tick count whose product reaches `a`. -/
theorem ceilDiv_isLeast {a b : Nat} (hb : 0 < b) : IsLeast { k | a ≤ b * k } (ceilDiv a b) :=
  ⟨(ceilDiv_le_iff hb).1 (Nat.le_refl _), fun _ hk => (ceilDiv_le_iff hb).2 hk⟩

theorem frameBits_eq_ite (d : Nat) (p : Bool) (b : Nat) : frameBits d p b = 1 + d + (if p then 1 else 0) + b := by
  cases p <;> rfl

/-- A serial or timer parameter of 0 leaves no thresholds (R141 corner case b). -/
theorem thresholds_serial_eq_none {baud d b f : Nat} (p : Bool) (h : baud = 0 ∨ d = 0 ∨ b = 0 ∨ f = 0) :
    thresholds (.serial baud d p b f) = none := if_pos h

/-- With positive parameters the thresholds are the least tick counts not below 1.5 and 3.5 character times (R141). -/
theorem thresholds_serial_of_isLeast {baud d b f t15 t35 : Nat} {p : Bool} (hbaud : 0 < baud) (hd : 0 < d) (hb : 0 < b)
    (hf : 0 < f) (h15 : IsLeast { k | 3 * frameBits d p b * f ≤ 2 * baud * k } t15)
    (h35 : IsLeast { k | 7 * frameBits d p b * f ≤ 2 * baud * k } t35) :
    thresholds (.serial baud d p b f) = some (t15, t35) := by
  have hpos : ¬(baud = 0 ∨ d = 0 ∨ b = 0 ∨ f = 0) := by omega
  have hden : 0 < 2 * baud := by omega
  rw [thresholds, if_neg hpos, h15.unique (ceilDiv_isLeast hden), h35.unique (ceilDiv_isLeast hden)]

/-! ## The constraint of R9 -/

/-- What the check of R9 asks, as a statement. -/
theorem configLegal_iff {c : Config} : configLegal c = true ↔
    2 ≤ c.n ∧ 2 ≤ c.aduMax ∧
      ∃ t15 t35, thresholds c.timing = some (t15, t35) ∧ 0 < t15 ∧ t15 < t35 ∧ t35 ≤ 2 ^ c.wT - 1 := by
  unfold configLegal
  cases ht : thresholds c.timing with
  | none => simp
  | some p =>
    obtain ⟨a, b⟩ := p
    simp [thresholdsFit_iff, and_assoc]

/-- The step checks the configuration before it looks at the next event (R246; log 16). -/
theorem step_of_not_configLegal {s : State} (h : configLegal s.cfg = false) :
    step s = .refused .illegalConfiguration := if_pos h

/-- Settles O6: each way to break R9 makes the check fail, and the step begins with the check. -/
theorem illegalConfigurationIsRefused : Obligations.IllegalConfigurationIsRefused := by
  intro s h
  refine step_of_not_configLegal (Bool.eq_false_iff.2 fun hl => ?_)
  obtain ⟨hn, hadu, a, b, hab, hok⟩ := configLegal_iff.1 hl
  obtain hn' | hadu' | ⟨t15, t35, ht, hfit⟩ |
    ⟨baud, d, p, stop, f, bits, t15, t35, ht, hbaud, hd, hstop, hf, rfl, h15, h35, hfit⟩ |
    ⟨baud, d, p, stop, f, ht, hzero⟩ := h
  · omega
  · omega
  · rw [ht] at hab
    cases hab
    exact hfit hok
  · rw [← frameBits_eq_ite] at h15 h35
    rw [ht, thresholds_serial_of_isLeast hbaud hd hstop hf h15 h35] at hab
    cases hab
    exact hfit hok
  · rw [ht, thresholds_serial_eq_none p hzero] at hab
    cases hab

/-! ## The widths of R9 -/

theorem lt_two_pow_idxW {c : Config} {i : Nat} (h : i < c.n) : i < 2 ^ c.idxW :=
  have ⟨⟨_, hn⟩, _⟩ := c.idxW_isLeast
  h.trans_le hn

theorem lt_two_pow_posW {c : Config} {i : Nat} (h : i ≤ c.aduMax) : i < 2 ^ c.posW :=
  Nat.lt_of_succ_le ((Nat.succ_le_succ h).trans c.posW_isLeast.1)

/-- Settles O58: the widths are the least ones, and the ranges of R23, R24 and R33 lie inside them. -/
theorem registerWidthsOfTheConfiguration : Obligations.RegisterWidthsOfTheConfiguration :=
  ⟨fun c => ⟨rfl, rfl, c.idxW_isLeast, c.posW_isLeast⟩,
    fun _ hs => ⟨lt_two_pow_idxW hs.headRange, lt_two_pow_idxW hs.tailRange, lt_two_pow_posW hs.posRange⟩⟩

end Sys2Proof.Machine
end

section
/-!
PROOFS. The invariants: the reset state has them, every step of the core keeps them (R40), every step at all keeps the shape
(R25, R33), and what initialisation has set up stays (R26, R30, R31).
-/

namespace Sys2Proof.Machine

variable {i : Instr} {s t : State} {fuel : Nat}

/-! ## What an operation can do, by its kind in R102 -/

/-- The queries, the pure operations, `Q.PEEK` and `CTC.SILNOW` write no register. -/
theorem exec_of_observing (hi : i.kind = .query ∨ i.kind = .pure ∨ i = .qPeek ∨ i = .ctcSilnow)
    (he : exec i s = .next t) : ∃ c r, t = { s with crcAcc := c, result := r } := by
  cases i with
  | qFree | qCount | ctcSilnow | crcReset | crcByte b => exact ⟨_, _, (Host.Outcome.next.inj he).symm⟩
  | qPeek | qIter | crcBlock =>
    obtain ⟨_, -, hk⟩ := andThen_eq_next.1 he
    exact ⟨_, _, (Host.Outcome.next.inj hk).symm⟩
  | crcVerify =>
    change execCrcVerify s = _ at he
    unfold execCrcVerify at he
    split at he
    · cases he
    · obtain ⟨_, -, hk⟩ := andThen_eq_next.1 he
      exact ⟨_, _, (Host.Outcome.next.inj hk).symm⟩
  | _ => simp [Instr.kind] at hi

/-- The word of a micro-step performs the one `PHASE` selects (R103), or gives the responder's answer at DISPATCH. -/
theorem exec_of_microStep (hi : i.kind = .microStep) (he : exec i s = .next t) :
    microStep s = .next t ∨ ∃ started, s.phase = .dispatch ∧ t = respondStep started s := by
  cases i with
  | ssmPoll | faScan | faDecide | faCheck | ssmMatch =>
    obtain ⟨hp, hk⟩ := requirePhase_eq_next.1 he
    left
    rw [microStep, hp]
    exact hk
  | ssmRespond started =>
    obtain ⟨hp, hk⟩ := requirePhase_eq_next.1 he
    exact .inr ⟨started, hp, (Host.Outcome.next.inj hk).symm⟩
  | _ => cases hi

/-- What every scan keeps, the scan loop keeps, and it ends outside SCAN (R166). -/
theorem scanLoop_induct {P : State → Prop} (hstep : ∀ u v, P u → u.phase = .scan → scanStep u = .next v → P v)
    (h : P s) (he : scanLoop fuel s = .next t) : P t ∧ t.phase ≠ .scan := by
  induction fuel generalizing s with
  | zero =>
    unfold scanLoop at he
    split at he
    · cases he
    · cases he; exact ⟨h, ‹_›⟩
  | succ fuel ih =>
    unfold scanLoop at he
    split at he
    · rename_i hp
      obtain ⟨u, hu, hk⟩ := andThen_eq_next.1 he
      exact ih (hstep s u h hp hu) hk
    · cases he; exact ⟨h, ‹_›⟩

/-- `FA.POLL` (R166): the scan loop, `FA.DECIDE`, and `FA.CHECK` of a complete candidate. -/
theorem execFaPoll_eq_next :
    execFaPoll s = .next t ↔
      ∃ u v, scanLoop s.cfg.n (beginPass s) = .next u ∧
        (((decideStep u).phase = .check ∧ checkStep (decideStep u) = .next v) ∨
          ((decideStep u).phase ≠ .check ∧ v = decideStep u)) ∧
        t = returnResult (.pass (decide (v.phase = .addrMatch))) v := by
  simp only [execFaPoll, andThen_eq_next, Host.Outcome.next.injEq, eq_comm (b := t), exists_and_left]
  refine exists_congr fun u => and_congr_right fun _ => exists_congr fun v => and_congr_left fun _ => ?_
  by_cases hc : (decideStep u).phase = .check <;> simp [hc, eq_comm]

/-- What every micro-step keeps, a pass keeps (R229). -/
theorem runPass_induct {P : State → Prop} (hstep : ∀ u v, P u → microStep u = .next v → P v) (h : P s)
    (he : runPass fuel s = .next t) : P t := by
  induction fuel generalizing s with
  | zero => cases he
  | succ fuel ih =>
    obtain ⟨u, hu, hk⟩ := andThen_eq_next.1 he
    have hPu := hstep s u h hu
    split at hk
    · cases hk; exact hPu
    · exact ih hPu hk

/-! ## The shape -/

/-- Results, observations, pending inputs and the record of the environment are no part of the shape. -/
theorem Wf.congr_observations (h : Wf s) (hr : t = { s with
    inputs := t.inputs, crcAcc := t.crcAcc, result := t.result, owed := t.owed, answered := t.answered
    drops := t.drops, outputs := t.outputs }) : Wf t := by
  rw [hr]
  exact h.congr rfl rfl rfl rfl rfl rfl h.timerWidths

theorem beginPass_wf (h : Wf s) : Wf (beginPass s) := h.congr rfl rfl rfl rfl rfl rfl h.timerWidths

theorem respondStep_wf (started : Bool) (h : Wf s) : Wf (respondStep started s) := by
  cases started <;> exact h.congr rfl rfl rfl rfl rfl rfl h.timerWidths

/-- Reset needs nothing of the state but a legal configuration. -/
theorem execSysReset_wf (h : configLegal s.cfg = true) (he : execSysReset s = .next t) : Wf t := by
  obtain ⟨hn, -, -⟩ := configLegal_iff.1 h
  have hw := Nat.two_pow_pos s.cfg.wT
  cases he
  exact
    { legal := h
      slotCanonical := .nil
      slotIndices := fun e he => by cases he
      bufCanonical := .nil
      bufIndices := fun e he => by cases he
      headRange := by show 0 < s.cfg.n; omega
      tailRange := by show 0 < s.cfg.n; omega
      storedWritten := fun i hi => by rw [storedIndices_of_eq rfl] at hi; cases hi
      posRange := Nat.zero_le _
      candidateWritten := fun i hi => absurd hi (Nat.not_lt_zero i)
      timerWidths := ⟨hw, hw, hw⟩ }

theorem execCtcRx_wf (v : Byte) (h : Wf s) (he : execCtcRx v s = .next t) : Wf t := by
  unfold execCtcRx at he
  split at he
  · obtain ⟨r, hr, hk⟩ := andThen_eq_next.1 he
    cases hk
    exact enqueue_wf (restartTimer_wf h) hr
  · cases he; exact h

theorem execCtcTick_eq_next {k : BitVec 16} : execCtcTick k s = .next t ↔ k ≠ 0 ∧ t = timerTicks k.toNat s := by
  unfold execCtcTick
  split
  · rename_i hk
    exact ⟨nofun, fun h => absurd hk h.1⟩
  · rename_i hk
    exact ⟨fun h => ⟨hk, (Host.Outcome.next.inj h).symm⟩, fun h => congrArg _ h.2.symm⟩

theorem execFaPoll_wf (h : Wf s) (he : execFaPoll s = .next t) : Wf t := by
  obtain ⟨u, v, hu, hv, rfl⟩ := execFaPoll_eq_next.1 he
  have hwu := decideStep_wf (scanLoop_induct (fun _ _ h _ => scanStep_wf h) (beginPass_wf h) hu).1
  obtain ⟨-, hv⟩ | ⟨-, rfl⟩ := hv
  · exact (checkStep_wf hwu hv).congr_observations rfl
  · exact hwu.congr_observations rfl

/-- Every operation keeps the shape, an internal one issued alone too. -/
theorem exec_wf (h : Wf s) (he : exec i s = .next t) : Wf t := by
  cases i with
  | qPeek | qFree | qCount | qIter | ctcSilnow | crcReset | crcByte b | crcBlock | crcVerify =>
    obtain ⟨c, r, rfl⟩ := exec_of_observing (by simp [Instr.kind]) he
    exact h.congr_observations rfl
  | faScan | faDecide | faCheck | ssmPoll | ssmMatch | ssmRespond started =>
    obtain hm | ⟨b, -, rfl⟩ := exec_of_microStep rfl he
    · exact microStep_wf h hm
    · exact respondStep_wf b h
  | sysReset => exact execSysReset_wf h.legal he
  | qInit => cases he; exact h.emptiedQueue
  | qEnq item =>
    obtain ⟨r, hr, hk⟩ := andThen_eq_next.1 he
    cases hk
    exact (enqueue_wf h hr).congr_observations rfl
  | qDeq =>
    obtain ⟨r, hr, hk⟩ := andThen_eq_next.1 he
    cases hk
    exact (dequeue_wf h hr).congr_observations rfl
  | ctcInit => exact startTimer_wf h he
  | ctcTick k =>
    obtain ⟨-, rfl⟩ := execCtcTick_eq_next.1 he
    exact timerTicks_wf k.toNat h
  | ctcRx v => exact execCtcRx_wf v h he
  | ctcRestart => cases he; exact restartTimer_wf h
  | faBegin => cases he; exact beginPass_wf h
  | faClear => cases he; exact h.cleared
  | faPoll => exact execFaPoll_wf h he
  | ssmInit => exact initSession_wf h he
  | ssmTxdone => cases he; exact h.congr rfl rfl rfl rfl rfl rfl h.timerWidths
  | ssmRun => exact runPass_induct (fun _ _ => microStep_wf) h he

/-- Settles O54: a step leaves the state, changes the configuration to a legal one, or performs an operation. -/
theorem stepKeepsTheShape : Obligations.StepKeepsTheShape := by
  intro s t h he
  obtain ⟨-, ⟨-, rfl⟩ | ⟨timing, addr, rest, -, hr⟩ | ⟨w, rest, i, -, -, hp⟩⟩ := step_eq_next.1 he
  · exact h
  · exact reconfigure_wf (s := { s with inputs := rest }) (h.congr_observations rfl) hr
  · obtain ⟨-, u, hu, rfl⟩ := perform_eq_next.1 hp
    exact (exec_wf (s := { s with inputs := rest }) (h.congr_observations rfl) hu).congr_observations rfl

/-! ## The global invariants -/

theorem execSysReset_inv (h : configLegal s.cfg = true) (he : execSysReset s = .next t) : Inv t := by
  have hwf := execSysReset_wf h he
  cases he
  exact
    { wf := hwf
      silImpliesGap := fun h => by cases h
      passInReceive := fun h => absurd rfl h
      waitIsIdle := fun _ => rfl
      busyInWait := fun h => by cases h
      initial := fun _ => ⟨rfl, rfl, rfl, rfl, rfl, rfl⟩
      started := fun h => absurd rfl h
      storedTags := fun i hi => by rw [storedIndices_of_eq rfl] at hi; cases hi
      cntRange := fun h => by cases h
      gapPastT15 := fun h => by cases h
      scanning := fun h => by cases h
      oneExit := fun h => by cases h
      checkNonEmpty := fun h => by cases h
      frameGood := fun h => by rcases h with h | h <;> cases h
      frameMine := fun h => by cases h }

/-- Settles O52: `SYS.RESET` leaves the reset state as it is. -/
theorem resetMeetsTheInvariants : Obligations.ResetMeetsTheInvariants :=
  execSysReset_inv (s := State.reset) (by decide) rfl

/-- A scan stays at SCAN or goes on to DECIDE (R161). -/
theorem scanStep_phase (hp : s.phase = .scan) (he : scanStep s = .next t) : t.phase = .scan ∨ t.phase = .decision := by
  rcases scanStep_eq_next.1 he with ⟨-, rfl⟩ | ⟨-, -, v, -, ⟨-, -, rfl⟩ | ⟨-, -, rfl⟩ | ⟨-, -, rfl⟩⟩
  · exact .inr rfl
  · exact .inr rfl
  · exact .inl hp
  · exact .inl hp

/-- The scan loop ends at DECIDE with the invariants kept. -/
theorem scanLoop_inv (h : Inv s) (hp : s.phase = .scan) (he : scanLoop fuel s = .next t) :
    Inv t ∧ t.phase = .decision := by
  obtain ⟨⟨hi, hq⟩, hne⟩ := scanLoop_induct (P := fun u => Inv u ∧ (u.phase = .scan ∨ u.phase = .decision))
    (fun _ _ hu hpu hk => ⟨scanStep_inv hu.1 hpu hk, scanStep_phase hpu hk⟩) ⟨h, .inl hp⟩ he
  exact ⟨hi, hq.resolve_left hne⟩

/-- `FA.POLL` where a pass may be opened. -/
theorem execFaPoll_inv (h : Inv s) (hs : s.session = .receive) (he : execFaPoll s = .next t) : Inv t := by
  obtain ⟨u, v, hu, hv, rfl⟩ := execFaPoll_eq_next.1 he
  obtain ⟨hiu, hpu⟩ := scanLoop_inv (beginPass_inv h hs) rfl hu
  have hd := decideStep_inv hiu hpu
  obtain ⟨hc, hv⟩ | ⟨-, rfl⟩ := hv
  · exact (checkStep_inv hd hc hv).congr rfl
  · exact hd.congr rfl

/-- Every operation the environment may issue keeps the invariants. -/
theorem exec_inv (h : Inv s) (hk : i.kind ≠ .internal) (hf : i = .faPoll → s.session = .receive)
    (he : exec i s = .next t) : Inv t := by
  cases i with
  | qFree | qCount | qIter | crcReset | crcByte b | crcBlock | crcVerify =>
    obtain ⟨c, r, rfl⟩ := exec_of_observing (by simp [Instr.kind]) he
    exact h.congr rfl
  | faScan | faDecide | faCheck | ssmPoll | ssmMatch | ssmRespond started =>
    obtain hm | ⟨b, hp, rfl⟩ := exec_of_microStep rfl he
    · exact microStep_inv h hm
    · exact respondStep_inv b h hp
  | sysReset => exact execSysReset_inv h.wf.legal he
  | ctcTick k =>
    obtain ⟨-, rfl⟩ := execCtcTick_eq_next.1 he
    exact timerTicks_inv k.toNat h
  | ctcRx v => exact execCtcRx_inv v h he
  | faPoll => exact execFaPoll_inv h (hf rfl) he
  | ssmTxdone => cases he; exact txdone_inv h
  | ssmRun => exact runPass_induct (fun _ _ => microStep_inv) h he
  | _ => exact absurd rfl hk

/-- Settles O53: a step of the core leaves the state, changes the configuration, or performs an operation of the
environment. -/
theorem stepKeepsTheInvariants : Obligations.StepKeepsTheInvariants := by
  intro s t h hcore he
  obtain ⟨-, ⟨-, rfl⟩ | ⟨timing, addr, rest, -, hr⟩ | ⟨w, rest, i, hin, hd, hp⟩⟩ := step_eq_next.1 he
  · exact h
  · exact reconfigure_inv (s := { s with inputs := rest }) (h.congr rfl) hr
  · obtain ⟨-, u, hu, rfl⟩ := perform_eq_next.1 hp
    obtain ⟨hk, hf⟩ := hcore w rest i hin hd
    exact (exec_inv (s := { s with inputs := rest }) (h.congr rfl) hk (fun hi => (hf hi).1) hu).congr rfl

/-! ## What initialisation sets up -/

/-- From `s` to `t` neither `RUN` nor `RXEN` is cleared, and outside `INIT` the thresholds stay and `INIT` is not entered
again. -/
structure SetupKept (s t : State) : Prop where
  run : s.run = true → t.run = true
  rxen : s.rxen = true → t.rxen = true
  session : s.session ≠ .init → t.session ≠ .init
  thresholds : s.session ≠ .init → t.t15 = s.t15 ∧ t.t35 = s.t35

theorem SetupKept.trans {u : State} (h : SetupKept s t) (h' : SetupKept t u) : SetupKept s u where
  run := h'.run ∘ h.run
  rxen := h'.rxen ∘ h.rxen
  session := h'.session ∘ h.session
  thresholds hs :=
    have ⟨h15, h35⟩ := h.thresholds hs
    have ⟨h15', h35'⟩ := h'.thresholds (h.session hs)
    ⟨h15'.trans h15, h35'.trans h35⟩

/-- An update of other registers. -/
theorem SetupKept.of_eq (h : (t.run, t.rxen, t.session, t.t15, t.t35) = (s.run, s.rxen, s.session, s.t15, s.t35)) :
    SetupKept s t := by
  simp only [Prod.mk.injEq] at h
  obtain ⟨hr, hx, hs, h15, h35⟩ := h
  exact ⟨hr ▸ id, hx ▸ id, hs ▸ id, fun _ => ⟨h15, h35⟩⟩

theorem enqueue_setupKept {item : Slot} {r : State × Bool} (he : enqueue item s = .next r) : SetupKept s r.1 := by
  obtain ⟨-, rfl⟩ | ⟨-, -, rfl⟩ := enqueue_cases he <;> exact .of_eq rfl

theorem dequeue_setupKept {r : State × Option Slot} (he : dequeue s = .next r) : SetupKept s r.1 := by
  obtain ⟨-, rfl⟩ | ⟨-, -, v, -, rfl⟩ := dequeue_eq_next.1 he <;> exact .of_eq rfl

theorem execCtcRx_setupKept (v : Byte) (he : execCtcRx v s = .next t) : SetupKept s t := by
  unfold execCtcRx at he
  split at he
  · obtain ⟨r, hr, hk⟩ := andThen_eq_next.1 he
    cases hk
    have hrestart : SetupKept s (restartTimer s) := .of_eq rfl
    exact hrestart.trans (enqueue_setupKept hr)
  · cases he; exact .of_eq rfl

theorem timerTicks_setupKept (k : Nat) (s : State) : SetupKept s (timerTicks k s) := by
  rw [timerTicks_frame]
  exact .of_eq rfl

/-- The start of the session sets `RUN` and `RXEN` and leaves `INIT`. -/
theorem initSession_sets (he : initSession s = .next t) : t.run = true ∧ t.rxen = true ∧ t.session = .receive := by
  obtain ⟨a, b, -, -, rfl⟩ := initSession_eq_next.1 he
  exact ⟨rfl, rfl, rfl⟩

theorem scanStep_setupKept (he : scanStep s = .next t) : SetupKept s t := by
  rcases scanStep_eq_next.1 he with ⟨-, rfl⟩ | ⟨-, -, v, -, ⟨-, -, rfl⟩ | ⟨-, -, rfl⟩ | ⟨-, -, rfl⟩⟩ <;> exact .of_eq rfl

theorem checkStep_setupKept (he : checkStep s = .next t) : SetupKept s t := by
  rcases checkStep_eq_next.1 he with ⟨-, rfl⟩ | ⟨-, f, -, ⟨-, rfl⟩ | ⟨-, rfl⟩⟩ <;> exact .of_eq rfl

theorem matchStep_setupKept (he : matchStep s = .next t) : SetupKept s t := by
  obtain ⟨-, first, -, ⟨-, rfl⟩ | ⟨-, f, -, rfl⟩⟩ := matchStep_eq_next.1 he <;> exact .of_eq rfl

/-- `SSM.POLL` starts the session only in `INIT`, where the thresholds may still be written. -/
theorem pollStep_setupKept (he : pollStep s = .next t) : SetupKept s t := by
  rcases pollStep_eq_next.1 he with ⟨hs, hi⟩ | ⟨-, rfl⟩ | ⟨-, -, rfl⟩ | ⟨-, -, rfl⟩
  · obtain ⟨hr, hx, -⟩ := initSession_sets hi
    exact ⟨fun _ => hr, fun _ => hx, fun h => absurd hs h, fun h => absurd hs h⟩
  · exact .of_eq rfl
  · exact .of_eq rfl
  · exact ⟨id, id, fun _ => by simp, fun _ => ⟨rfl, rfl⟩⟩

theorem microStep_setupKept (he : microStep s = .next t) : SetupKept s t := by
  unfold microStep at he
  split at he
  · exact pollStep_setupKept he
  · exact scanStep_setupKept he
  · cases he; exact .of_eq rfl
  · exact checkStep_setupKept he
  · exact matchStep_setupKept he
  · cases he

theorem respondStep_setupKept (started : Bool) (s : State) : SetupKept s (respondStep started s) := by
  cases started with
  | false => exact .of_eq rfl
  | true => exact ⟨id, id, fun _ => by simp [respondStep], fun _ => ⟨rfl, rfl⟩⟩

theorem execFaPoll_setupKept (he : execFaPoll s = .next t) : SetupKept s t := by
  obtain ⟨u, v, hu, hv, rfl⟩ := execFaPoll_eq_next.1 he
  have hbegin : SetupKept s (beginPass s) := .of_eq rfl
  have hsu : SetupKept s u := (scanLoop_induct (fun _ _ h _ hk => h.trans (scanStep_setupKept hk)) hbegin hu).1
  have hsd : SetupKept s (decideStep u) := hsu.trans (.of_eq rfl)
  obtain ⟨-, hv⟩ | ⟨-, rfl⟩ := hv
  · exact (hsd.trans (checkStep_setupKept hv)).trans (.of_eq rfl)
  · exact hsd.trans (.of_eq rfl)

theorem exec_setupKept (hreset : i ≠ .sysReset) (hctc : i ≠ .ctcInit) (hssm : i ≠ .ssmInit) (he : exec i s = .next t) :
    SetupKept s t := by
  cases i with
  | qPeek | qFree | qCount | qIter | ctcSilnow | crcReset | crcByte b | crcBlock | crcVerify =>
    obtain ⟨c, r, rfl⟩ := exec_of_observing (by simp [Instr.kind]) he
    exact .of_eq rfl
  | faScan | faDecide | faCheck | ssmPoll | ssmMatch | ssmRespond started =>
    obtain hm | ⟨b, -, rfl⟩ := exec_of_microStep rfl he
    · exact microStep_setupKept hm
    · exact respondStep_setupKept b s
  | qInit | ctcRestart | faBegin | faClear | ssmTxdone => cases he; exact .of_eq rfl
  | qEnq item =>
    obtain ⟨r, hr, hk⟩ := andThen_eq_next.1 he
    cases hk
    exact (enqueue_setupKept hr).trans (.of_eq rfl)
  | qDeq =>
    obtain ⟨r, hr, hk⟩ := andThen_eq_next.1 he
    cases hk
    exact (dequeue_setupKept hr).trans (.of_eq rfl)
  | ctcTick k =>
    obtain ⟨-, rfl⟩ := execCtcTick_eq_next.1 he
    exact timerTicks_setupKept k.toNat s
  | ctcRx v => exact execCtcRx_setupKept v he
  | faPoll => exact execFaPoll_setupKept he
  | ssmRun => exact runPass_induct (P := SetupKept s) (fun _ _ h hk => h.trans (microStep_setupKept hk)) (.of_eq rfl) he
  | sysReset => exact absurd rfl hreset
  | ctcInit => exact absurd rfl hctc
  | ssmInit => exact absurd rfl hssm

/-- Settles O25: `CTC.INIT` and `SSM.INIT` set `RUN` and leave or set `RXEN`; the other operations keep what is set up. -/
theorem setupWrittenOnlyByInitialisation : Obligations.SetupWrittenOnlyByInitialisation := by
  intro i s t he hreset
  by_cases hctc : i = .ctcInit
  · subst hctc
    obtain ⟨a, b, -, -, rfl⟩ := startTimer_eq_next.1 he
    exact ⟨fun _ => rfl, id, fun h => absurd rfl h⟩
  · by_cases hssm : i = .ssmInit
    · subst hssm
      obtain ⟨hr, hx, -⟩ := initSession_sets he
      exact ⟨fun _ => hr, fun _ => hx, fun _ h => absurd rfl h⟩
    · have h := exec_setupKept hreset hctc hssm he
      exact ⟨h.run, h.rxen, fun _ _ => h.thresholds⟩

end Sys2Proof.Machine
end

section
/-!
PROOFS. Memory and the step (R68, R70, R75): what a step does with the next event, a change of configuration or a word, and the
operations that only read.
-/

namespace Sys2Proof.Machine

variable {i : Instr} {s t : State} {rest : List Input} {timing : Timing} {slaveAddr : Byte}

/-! ## The event a step takes -/

/-- A change of the configuration inputs is an event of its own (R75; log 15). -/
theorem step_of_configure (hl : configLegal s.cfg = true) (hin : s.inputs = .configure timing slaveAddr :: rest) :
    step s = reconfigure timing slaveAddr { s with inputs := rest } := by
  simp [step, hl, hin]

/-- A word that decodes is its operation, performed under (A2) of R191. -/
theorem step_of_word {w : OpWord} (hl : configLegal s.cfg = true) (hin : s.inputs = .word w :: rest)
    (hd : decode w = .ok i) : step s = perform i { s with inputs := rest } := by
  simp [step, hl, hin, hd]

/-! ## A change of configuration -/

theorem inTransaction_iff : inTransaction s = true ↔ s.phase ≠ .idle ∨ s.session = .sendWait := decide_eq_true_iff

theorem reconfigure_of_changed (hin : inTransaction s = true) (ha : slaveAddr ≠ s.cfg.slaveAddr) :
    reconfigure timing slaveAddr s = .refused .configChangedInTransaction := if_pos ⟨ha, hin⟩

theorem reconfigure_of_illegal (hkeep : inTransaction s = true → slaveAddr = s.cfg.slaveAddr)
    (hc : configLegal { s.cfg with timing := timing, slaveAddr := slaveAddr } = false) :
    reconfigure timing slaveAddr s = .refused .illegalConfiguration := by
  have hstable : ¬(slaveAddr ≠ s.cfg.slaveAddr ∧ inTransaction s = true) := fun ⟨hne, hin⟩ => hne (hkeep hin)
  simp only [reconfigure, if_neg hstable, hc, Bool.false_eq_true, if_false]

theorem reconfigure_of_legal (hkeep : inTransaction s = true → slaveAddr = s.cfg.slaveAddr)
    (hc : configLegal { s.cfg with timing := timing, slaveAddr := slaveAddr } = true) :
    reconfigure timing slaveAddr s =
      .next { s with cfg := { s.cfg with timing := timing, slaveAddr := slaveAddr } } :=
  reconfigure_eq_next.2 ⟨fun hne => Bool.eq_false_iff.2 fun hin => hne (hkeep hin), hc, rfl⟩

/-- Settles O8: the step is the change itself, and an event that changes nothing is a legal change that keeps `SLAVE_ADDR`. -/
theorem configurationChange : Obligations.ConfigurationChange := by
  intro s timing slaveAddr rest hl hin c inside
  rw [step_of_configure hl hin]
  have hinside : inTransaction { s with inputs := rest } = true ↔ inside := inTransaction_iff
  refine ⟨fun h ha => reconfigure_of_changed (hinside.2 h) ha,
    fun hkeep hc => reconfigure_of_legal (hkeep ∘ hinside.1) hc,
    fun hkeep hc => reconfigure_of_illegal (hkeep ∘ hinside.1) hc, fun hsame => ?_⟩
  have haddr : slaveAddr = s.cfg.slaveAddr := congrArg Config.slaveAddr hsame
  have hlegal : configLegal c = true := hsame ▸ hl
  calc reconfigure timing slaveAddr { s with inputs := rest }
      = .next { s with inputs := rest, cfg := c } := reconfigure_of_legal (fun _ => haddr) hlegal
    _ = .next { s with inputs := rest } := by rw [hsame]

/-! ## A word that decodes -/

/-- The environment keeps (A2) with every word that is not the poll agent's own at DISPATCH. -/
theorem breaksA2_eq_false
    (h : s.phase = .dispatch →
      i ∉ [Instr.qInit, .qDeq, .qPeek, .ctcInit, .ctcSilnow, .faBegin, .faClear, .faPoll, .crcVerify, .ssmInit]) :
    breaksA2 i s = false := by
  rw [breaksA2, Bool.and_eq_false_imp, decide_eq_true_iff]
  exact fun hp => Bool.eq_false_iff.2 fun hi => h hp (pollAgentOnly_iff.1 hi)

/-- Settles O5: the word's operation is performed, and with (A2) kept that is `exec` with the record of the environment. -/
theorem stepRunsTheDecodedOperation : Obligations.StepRunsTheDecodedOperation := by
  intro s w rest i hl hin hd hA2
  rw [step_of_word hl hin hd]
  exact perform_of_kept (breaksA2_eq_false hA2)

/-! ## Reads -/

/-- A read that ends in returning a result leaves the state it began in, but for the result. -/
theorem eq_of_andThen_returnResult {α : Type} {o : Answer α} {r : α → OpResult}
    (he : andThen o (fun a => .next (returnResult (r a) s)) = .next t) : t = { s with result := t.result } := by
  obtain ⟨_, -, hk⟩ := andThen_eq_next.1 he
  cases hk
  rfl

/-- `CRC.VERIFY` goes on only over two bytes or more (R183). -/
theorem execCrcVerify_eq_next :
    execCrcVerify s = .next t ↔
      2 ≤ s.pos ∧ andThen (candidate s) (fun f => .next (returnResult (.bit (crcGood f)) s)) = .next t := by
  unfold execCrcVerify
  split
  · rename_i hshort
    exact ⟨nofun, fun ⟨hlong, _⟩ => absurd hshort (Nat.not_lt.2 hlong)⟩
  · rename_i hlong
    exact (and_iff_right (Nat.not_lt.1 hlong)).symm

/-- Settles O57: three of the reads only return a result, the other four read the arrays first. -/
theorem readsHaveNoSideEffect : Obligations.ReadsHaveNoSideEffect := by
  intro i s t hi he
  cases i with
  | qFree | qCount | ctcSilnow => cases he; rfl
  | qPeek | qIter | crcBlock => exact eq_of_andThen_returnResult he
  | crcVerify =>
    obtain ⟨-, hread⟩ := execCrcVerify_eq_next.1 he
    exact eq_of_andThen_returnResult hread
  | _ => simp at hi

end Sys2Proof.Machine
end

section
/-!
PROOFS. The encoding (R100 to R104): the decoder and the encoder are inverse to each other on the well-formed operations, and
every reserved or illegal word is refused.
-/

namespace Sys2Proof.Machine

variable {i : Instr} {op : BitVec 8} {arg : BitVec 16} {w : OpWord}

/-! ## The operation map of R102, read both ways -/

/-- Each operand form reads back the argument the encoder writes for it (R101). -/
theorem decodeFields_opNumber_argOf (hwf : i.wellFormed = true) : decodeFields (opNumber i) (argOf i) = .ok i := by
  cases i with
  | qEnq item => exact slotOperand_setWidth .qEnq item
  | ctcTick k => exact tickOperand_of_ne .ctcTick (bne_iff_ne.1 hwf)
  | ctcRx v => exact byteOperand_setWidth .ctcRx v
  | crcByte b => exact byteOperand_setWidth .crcByte b
  | ssmRespond started => exact bitOperand_ofBool .ssmRespond started
  | _ => exact noOperand_zero _

/-- A row of the map that reads an operation determines both fields of its word, and reads no `CTC.TICK` with `k = 0`. -/
theorem fields_of_decodeFields (h : decodeFields op arg = .ok i) :
    opNumber i = op ∧ argOf i = arg ∧ i.wellFormed = true := by
  unfold decodeFields at h
  split at h
  case h_3 hop => -- `Q.ENQ`
    obtain ⟨item, rfl, rfl⟩ := slotOperand_eq_ok h
    exact ⟨BitVec.eq_of_toNat_eq hop.symm, rfl, rfl⟩
  case h_10 hop => -- `CTC.TICK`
    obtain ⟨rfl, hk⟩ := tickOperand_eq_ok h
    exact ⟨BitVec.eq_of_toNat_eq hop.symm, rfl, bne_iff_ne.2 hk⟩
  case h_11 hop | h_21 hop => -- `CTC.RX` and `CRC.BYTE`
    obtain ⟨v, rfl, rfl⟩ := byteOperand_eq_ok h
    exact ⟨BitVec.eq_of_toNat_eq hop.symm, rfl, rfl⟩
  case h_27 hop => -- `SSM.RESPOND`
    obtain ⟨started, rfl, rfl⟩ := bitOperand_eq_ok h
    exact ⟨BitVec.eq_of_toNat_eq hop.symm, rfl, rfl⟩
  case h_30 => -- no row
    cases h
  all_goals -- the rows that take no operand
    rename_i hop
    obtain ⟨rfl, rfl⟩ := noOperand_eq_ok h
    exact ⟨BitVec.eq_of_toNat_eq hop.symm, rfl, rfl⟩

theorem decode_encode (hwf : i.wellFormed = true) : decode (encode i) = .ok i := by
  rw [decode, encode, opField_packWord, argField_packWord, decodeFields_opNumber_argOf hwf]

/-- The decoder reads exactly the words the encoder writes for the well-formed operations. -/
theorem decode_eq_ok : decode w = .ok i ↔ encode i = w ∧ i.wellFormed = true := by
  refine ⟨fun h => ?_, fun ⟨henc, hwf⟩ => henc ▸ decode_encode hwf⟩
  obtain ⟨hop, harg, hwf⟩ := fields_of_decodeFields h
  exact ⟨by rw [encode, hop, harg, packWord_fields], hwf⟩

/-- Settles O1: the fields of the encoder's word are those the operation map reads back. -/
theorem decodeOfEncode : Obligations.DecodeOfEncode := fun _ => decode_encode

/-- Settles O2: the row that read the operation determines the word. -/
theorem encodeOfDecode : Obligations.EncodeOfDecode := fun _ _ => decode_eq_ok.1

/-- Settles O4: each word is the encoder's word of its operation. -/
theorem wordsOfTheSpecDecode : Obligations.WordsOfTheSpecDecode :=
  ⟨decode_encode (i := .sysReset) rfl, decode_encode (i := .qEnq 0x3CC) rfl, decode_encode (i := .ctcTick 35) rfl,
    decode_encode (i := .ctcRx 0x84) rfl, decode_encode (i := .faScan) rfl, decode_encode (i := .faCheck) rfl,
    decode_encode (i := .crcByte 0xFF) rfl, decode_encode (i := .ssmRespond true) rfl, decode_encode (i := .ssmTxdone) rfl⟩

/-! ## The words of R104 -/

/-- The fields of a reserved or illegal word (R104): no row for the `op`, an `arg` the row's operand form does not admit. -/
abbrev ReservedFields (op arg : Nat) : Prop :=
  op ∉ [0x00, 0x10, 0x11, 0x12, 0x13, 0x14, 0x15, 0x16, 0x20, 0x21, 0x22, 0x23, 0x24, 0x30, 0x31, 0x32, 0x33, 0x34,
      0x35, 0x40, 0x41, 0x42, 0x43, 0x50, 0x51, 0x52, 0x53, 0x54, 0x55] ∨
    (op = 0x11 ∧ 2 ^ 10 ≤ arg) ∨ (op = 0x21 ∧ arg = 0) ∨ ((op = 0x22 ∨ op = 0x41) ∧ 2 ^ 8 ≤ arg) ∨
    (op = 0x53 ∧ 2 ≤ arg) ∨ (op ∉ [0x11, 0x21, 0x22, 0x41, 0x53] ∧ arg ≠ 0)

theorem opNumber_eq_encode_div (i : Instr) : (opNumber i).toNat = (encode i).toNat / 65536 := by
  rw [← opField_toNat, encode, opField_packWord]

theorem argOf_eq_encode_mod (i : Instr) : (argOf i).toNat = (encode i).toNat % 65536 := by
  rw [← argField_toNat, encode, argField_packWord]

theorem toNat_setWidth_lt {m n : Nat} (h : m ≤ n) (v : BitVec m) : (v.setWidth n).toNat < 2 ^ m :=
  (BitVec.toNat_setWidth_of_le h).trans_lt v.isLt

/-- The encoder writes no word of R104 for a well-formed operation. -/
theorem not_reservedFields (hwf : i.wellFormed = true) : ¬ReservedFields (opNumber i).toNat (argOf i).toNat := by
  cases i with
  | qEnq item => simpa [ReservedFields, opNumber, argOf] using toNat_setWidth_lt (n := 16) (by decide) item
  | ctcTick k =>
    have hk : k ≠ 0 := bne_iff_ne.1 hwf
    simpa [ReservedFields, opNumber, argOf, BitVec.toNat_eq] using hk
  | ctcRx v => simpa [ReservedFields, opNumber, argOf] using toNat_setWidth_lt (n := 16) (by decide) v
  | crcByte b => simpa [ReservedFields, opNumber, argOf] using toNat_setWidth_lt (n := 16) (by decide) b
  | ssmRespond started => cases started <;> decide
  | _ => decide

/-- A word the decoder does not read is refused by the step that takes it. -/
theorem step_of_undecoded {s : State} {rest : List Input} {why : DecodeError} (hl : configLegal s.cfg = true)
    (hin : s.inputs = .word w :: rest) (hd : decode w = .error why) : step s = .refused (.illegalWord why) := by
  simp [step, hl, hin, hd]

/-- Settles O3: a word that decodes is the encoder's, which has no fields of R104; every other word is refused by name. -/
theorem reservedWordsAreRefused : Obligations.ReservedWordsAreRefused := by
  intro s w rest hl hin op arg (hres : ReservedFields op arg)
  cases hd : decode w with
  | ok i =>
    obtain ⟨rfl, hwf⟩ := decode_eq_ok.1 hd
    have hop : op = (opNumber i).toNat := (opNumber_eq_encode_div i).symm
    have harg : arg = (argOf i).toNat := (argOf_eq_encode_mod i).symm
    exact absurd (hop ▸ harg ▸ hres) (not_reservedFields hwf)
  | error why => exact ⟨why, step_of_undecoded hl hin hd⟩

/-! ## The order of the micro-steps -/

/-- Settles O44: each micro-step is its body under the condition on `PHASE`. -/
theorem microStepMustAgreeWithPhase : Obligations.MicroStepMustAgreeWithPhase := fun _ =>
  ⟨requirePhase_of_ne, requirePhase_of_ne, requirePhase_of_ne, requirePhase_of_ne, requirePhase_of_ne,
    fun _ => requirePhase_of_ne⟩

end Sys2Proof.Machine
end

section
/-!
PROOFS. A built response (R91 to R93, R205): its trailer is good and its views give back what it was built from.
-/

namespace Sys2Proof.Machine

variable {capacity : Nat} {slaveAddr : Byte} {pdu : List Byte}

theorem buildFrame_of_le (h : 1 + pdu.length + 2 ≤ capacity) :
    buildFrame capacity slaveAddr pdu = some (slaveAddr :: pdu ++ trailerBytes (crcOf (slaveAddr :: pdu))) := if_pos h

theorem buildFrame_of_lt (h : capacity < 1 + pdu.length + 2) : buildFrame capacity slaveAddr pdu = none :=
  if_neg (Nat.not_le.2 h)

@[simp] theorem trailerBytes_length (c : CrcWord) : (trailerBytes c).length = 2 := rfl

/-- The trailer covers all that stands before it (R183). -/
@[simp] theorem aduCovered_append_trailer (m : List Byte) (c : CrcWord) : aduCovered (m ++ trailerBytes c) = m := by
  simp [aduCovered]

/-- Bytes with their own CRC as trailer are a good frame (R184). -/
@[simp] theorem crcGood_append_trailer (m : List Byte) : crcGood (m ++ trailerBytes (crcOf m)) = true := by
  rw [trailerBytes, crcGood_append, packBytes_trailer, decide_eq_true_iff]

/-- Settles O38: the built frame is the address, the PDU and the trailer of the two. -/
theorem builtFramePassesTheCheck : Obligations.BuiltFramePassesTheCheck := by
  refine fun capacity slaveAddr pdu => ⟨fun hfits => ⟨_, buildFrame_of_le hfits, ?_, ?_, ?_, ?_⟩, buildFrame_of_lt⟩
  · simp; omega
  · exact crcGood_append_trailer (slaveAddr :: pdu)
  · rfl
  · rw [aduPdu, aduCovered_append_trailer, List.drop_one, List.tail_cons]

end Sys2Proof.Machine
end

section
/-!
PROOFS. The ring queue (R120 to R128): what each of its operations does to the state and to the list of the stored elements, and
that the poll agent writes nothing the producer owns (R251).
-/

namespace Sys2Proof.Machine

variable {s t : State} {i : Instr} {item v : Slot} {l : List Slot} {fuel n k j : Nat}

/-! ## The ring -/

/-- R126 in closed form. -/
theorem ringNext_iterate (h : j < n) : (ringNext n)^[k] j = (j + k) % n := by
  induction k generalizing j with
  | zero => exact (Nat.mod_eq_of_lt h).symm
  | succ k ih => rw [Function.iterate_succ_apply, ih (ringNext_lt h), ringNext_add_mod k h]

/-- Settles O16: `N` steps from `i` lead to `(i + N) mod N`. -/
theorem ringNextReturns : Obligations.RingNextReturns := fun n i hi => by
  rw [ringNext_iterate hi, Nat.add_mod_right, Nat.mod_eq_of_lt hi]

/-- Settles O9: both indices are set and nothing else is written. -/
theorem qInitEmptiesTheQueue : Obligations.QInitEmptiesTheQueue := ⟨by decide, fun _ => rfl⟩

/-! ## The operations on the state -/

theorem encode_qEnq_toNat (item : Slot) : (encode (.qEnq item)).toNat = 0x110000 + item.toNat := by
  rw [encode_toNat, argOf, BitVec.toNat_setWidth_of_le (by decide)]
  simp [opNumber]

/-- A full queue drops the item (R121). -/
theorem exec_qEnq_full (h : ringNext s.cfg.n s.head = s.tail) :
    exec (.qEnq item) s = .next { s with result := .bit false, drops := s.drops ++ [.qFull item] } := by
  rw [exec, execQEnq, enqueue_full h]
  rfl

/-- A queue with room stores the item at `HEAD` (R121). -/
theorem exec_qEnq_room (h : ringNext s.cfg.n s.head ≠ s.tail) (hh : s.head < s.cfg.n) :
    exec (.qEnq item) s =
      .next { s with
        slot := memWrite s.slot s.head item, head := ringNext s.cfg.n s.head, result := .bit true } := by
  rw [exec, execQEnq, enqueue_room h hh]
  rfl

theorem exec_qDeq_empty (h : s.head = s.tail) : exec .qDeq s = .next { s with result := .item none } := by
  rw [exec, execQDeq, dequeue_empty h]
  rfl

/-- The front element is taken (R122). -/
theorem exec_qDeq_front (h : s.head ≠ s.tail) (ht : s.tail < s.cfg.n) (hv : memRead s.slot s.tail = some v) :
    exec .qDeq s = .next { s with tail := ringNext s.cfg.n s.tail, result := .item (some v) } := by
  rw [exec, execQDeq, dequeue_eq_next.2 (.inr ⟨h, ht, v, hv, rfl⟩)]
  rfl

theorem exec_qPeek_empty (h : s.head = s.tail) : exec .qPeek s = .next { s with result := .item none } := by
  rw [exec, execQPeek, peek_empty h]
  rfl

/-- The front element is read (R123). -/
theorem exec_qPeek_front (h : s.head ≠ s.tail) (ht : s.tail < s.cfg.n) (hv : memRead s.slot s.tail = some v) :
    exec .qPeek s = .next { s with result := .item (some v) } := by
  rw [exec, execQPeek, peek_eq_next.2 (.inr ⟨h, ht, v, hv, rfl⟩)]
  rfl

/-- `Q.COUNT` as R16 and R125 say it. -/
theorem queueCount_eq_mod (hh : s.head < s.cfg.n) (ht : s.tail < s.cfg.n) :
    queueCount s = (s.head + s.cfg.n - s.tail) % s.cfg.n := ringDist_eq_mod hh ht

/-- Settles O10: the item is dropped or written at `HEAD`, and a write leaves every other slot alone. -/
theorem qEnqStoresOrDrops : Obligations.QEnqStoresOrDrops := fun _ item hh =>
  ⟨encode_qEnq_toNat item, exec_qEnq_full, fun hroom =>
    ⟨_, exec_qEnq_room hroom hh, rfl, memRead_memWrite_self _ _ _, fun _ ha => memRead_memWrite_ne _ _ ha⟩⟩

/-- Settles O11: an empty queue stays, else the slot at `TAIL` is taken. -/
theorem qDeqTakesTheOldest : Obligations.QDeqTakesTheOldest :=
  ⟨by decide, fun _ => ⟨exec_qDeq_empty, fun _ => exec_qDeq_front⟩⟩

/-- Settles O12: an empty queue has no front, else it is the slot at `TAIL`. -/
theorem qPeekIsNonDestructive : Obligations.QPeekIsNonDestructive :=
  ⟨by decide, fun _ => ⟨exec_qPeek_empty, fun _ => exec_qPeek_front⟩⟩

/-- Settles O13: the number of stored elements is the distance of the indices, which is below `N`. -/
theorem qCountAndQFree : Obligations.QCountAndQFree := by
  refine ⟨by decide, by decide, fun s hh ht => ?_⟩
  rw [← queueCount_eq_mod hh ht]
  have hlt := queueCount_lt hh ht
  exact ⟨rfl, rfl, by omega⟩

/-! ## The operations on the stored elements -/

/-- The `k`-th stored element lies `k` slots after `TAIL`. -/
theorem Represents.getElem? (h : Represents s l) (ht : s.tail < s.cfg.n) (hk : k < l.length) :
    memRead s.slot ((s.tail + k) % s.cfg.n) = l[k]? := by
  have hidx : (storedIndices s)[k]? = some ((s.tail + k) % s.cfg.n) := ringIndices_getElem? ht k (h.length_eq ▸ hk)
  have hkth : ((storedIndices s).map (memRead s.slot))[k]? = (l.map some)[k]? := congrArg (·[k]?) h
  rw [List.getElem?_map, List.getElem?_map, hidx, List.getElem?_eq_getElem hk] at hkth
  rw [List.getElem?_eq_getElem hk]
  exact Option.some.inj hkth

theorem exec_qIter (hs : Wf s) (h : Represents s l) : exec .qIter s = .next { s with result := .items l } := by
  rw [exec, execQIter, walkQueue_represents hs.headRange hs.tailRange h]
  rfl

/-- An accepted item is stored last. -/
theorem exec_qEnq_represents_room (hs : Wf s) (h : Represents s l) (item : Slot) (hroom : l.length < s.cfg.n - 1) :
    ∃ t, exec (.qEnq item) s = .next t ∧ t.result = .bit true ∧ Represents t (l ++ [item]) := by
  have hne : ringNext s.cfg.n s.head ≠ s.tail := fun hfull =>
    hroom.ne ((h.full_iff hs.headRange hs.tailRange).1 hfull)
  exact ⟨_, exec_qEnq_room hne hs.headRange, rfl,
    (h.enqueued hs.headRange hs.tailRange hne).congr rfl rfl rfl rfl⟩

/-- A refused item leaves what is stored. -/
theorem exec_qEnq_represents_full (hs : Wf s) (h : Represents s l) (item : Slot) (hfull : l.length = s.cfg.n - 1) :
    ∃ t, exec (.qEnq item) s = .next t ∧ t.result = .bit false ∧ Represents t l :=
  ⟨_, exec_qEnq_full ((h.full_iff hs.headRange hs.tailRange).2 hfull), rfl, h.congr rfl rfl rfl rfl⟩

theorem exec_qDeq_represents (hs : Wf s) (h : Represents s l) :
    ∃ t, exec .qDeq s = .next t ∧ t.result = .item l.head? ∧ Represents t l.tail := by
  cases l with
  | nil =>
    have hempty := (Represents.nil_iff hs.tailRange).1 h
    exact ⟨_, exec_qDeq_empty hempty, rfl, h.congr rfl rfl rfl rfl⟩
  | cons v l =>
    obtain ⟨hne, hv, htail⟩ := (Represents.cons_iff hs.headRange hs.tailRange).1 h
    exact ⟨_, exec_qDeq_front hne hs.tailRange hv, rfl, htail.congr rfl rfl rfl rfl⟩

theorem exec_qPeek_represents (hs : Wf s) (h : Represents s l) :
    ∃ t, exec .qPeek s = .next t ∧ t.result = .item l.head? ∧ Represents t l := by
  cases l with
  | nil =>
    have hempty := (Represents.nil_iff hs.tailRange).1 h
    exact ⟨_, exec_qPeek_empty hempty, rfl, h.congr rfl rfl rfl rfl⟩
  | cons v l =>
    obtain ⟨hne, hv, -⟩ := (Represents.cons_iff hs.headRange hs.tailRange).1 h
    exact ⟨_, exec_qPeek_front hne hs.tailRange hv, rfl, h.congr rfl rfl rfl rfl⟩

/-- Settles O14: the walk gives the list the queue holds, whose `k`-th element lies `k` slots after `TAIL`. -/
theorem qIterListsTheStored : Obligations.QIterListsTheStored := by
  refine ⟨by decide, fun s hs => ?_⟩
  obtain ⟨vs, hvs⟩ := hs.represents
  exact ⟨vs, exec_qIter hs hvs, hvs.length_eq.trans (queueCount_eq_mod hs.headRange hs.tailRange),
    fun _ hk => hvs.getElem? hs.tailRange hk⟩

/-- Settles O15: one simulation lemma per operation. -/
theorem queueRefinesBoundedFifo : Obligations.QueueRefinesBoundedFifo := fun _ _ hs h =>
  ⟨h.length_le hs.headRange hs.tailRange, exec_qEnq_represents_room hs h, exec_qEnq_represents_full hs h,
    exec_qDeq_represents hs h, exec_qPeek_represents hs h, ⟨_, exec_qIter hs h, rfl, h.congr rfl rfl rfl rfl⟩⟩

/-! ## Enqueues between a peek and a dequeue -/

/-- An enqueue, accepted or dropped, only adds behind what is stored. -/
theorem exec_qEnq_prefix (hs : Wf s) (h : Represents s l) (item : Slot) :
    ∃ t l', exec (.qEnq item) s = .next t ∧ Wf t ∧ Represents t l' ∧ l <+: l' := by
  obtain hroom | hfull := (h.length_le hs.headRange hs.tailRange).lt_or_eq
  · obtain ⟨t, ht, -, hl⟩ := exec_qEnq_represents_room hs h item hroom
    exact ⟨t, _, ht, exec_wf hs ht, hl, List.prefix_append _ _⟩
  · obtain ⟨t, ht, -, hl⟩ := exec_qEnq_represents_full hs h item hfull
    exact ⟨t, l, ht, exec_wf hs ht, hl, List.prefix_rfl⟩

theorem execSeq_qEnq_prefix (items : List Slot) (hs : Wf s) (h : Represents s l) :
    ∃ t l', execSeq (items.map .qEnq) s = .next t ∧ Wf t ∧ Represents t l' ∧ l <+: l' := by
  induction items generalizing s l with
  | nil => exact ⟨s, l, rfl, hs, h, List.prefix_rfl⟩
  | cons item items ih =>
    obtain ⟨u, l₁, hu, hwu, hlu, hpre⟩ := exec_qEnq_prefix hs h item
    obtain ⟨t, l₂, ht, hwt, hlt, hpre'⟩ := ih hwu hlu
    exact ⟨t, l₂, andThen_eq_next.2 ⟨u, hu, ht⟩, hwt, hlt, hpre.trans hpre'⟩

/-- The list a non-empty queue holds begins with the slot at `TAIL`. -/
theorem Wf.represents_front (hs : Wf s) (hne : s.head ≠ s.tail) (hv : memRead s.slot s.tail = some v) :
    ∃ l, Represents s (v :: l) :=
  have ⟨l, hl⟩ := (hs.consumed hne).represents
  ⟨l, (Represents.cons_iff hs.headRange hs.tailRange).2 ⟨hne, hv, hl⟩⟩

/-- Settles O17: the front element is stored before the enqueues, which add only behind it. -/
theorem peekedElementIsDequeued : Obligations.PeekedElementIsDequeued := by
  intro s items v hs hne hv
  obtain ⟨l, hl⟩ := hs.represents_front hne hv
  obtain ⟨t, _, ht, hwt, hlt, rest, rfl⟩ := execSeq_qEnq_prefix items hs hl
  obtain ⟨u, hu, hres, -⟩ := exec_qDeq_represents hwt hlt
  exact ⟨t, u, ht, hu, hres⟩

/-! ## What the producer owns -/

/-- What the interrupts and the initialisation write (R251): `SLOT`, `HEAD`, the timer, `RUN` and `RXEN`. -/
def producerOwned (s : State) : Memory 10 × Nat × Nat × Nat × Nat × Bool × Bool × Bool × Bool :=
  (s.slot, s.head, s.t15, s.t35, s.cnt, s.gap, s.sil, s.run, s.rxen)

theorem scanStep_producerOwned (he : scanStep s = .next t) : producerOwned t = producerOwned s := by
  rcases scanStep_eq_next.1 he with ⟨-, rfl⟩ | ⟨-, -, v, -, ⟨-, -, rfl⟩ | ⟨-, -, rfl⟩ | ⟨-, -, rfl⟩⟩ <;> rfl

theorem checkStep_producerOwned (he : checkStep s = .next t) : producerOwned t = producerOwned s := by
  rcases checkStep_eq_next.1 he with ⟨-, rfl⟩ | ⟨-, f, -, ⟨-, rfl⟩ | ⟨-, rfl⟩⟩ <;> rfl

theorem matchStep_producerOwned (he : matchStep s = .next t) : producerOwned t = producerOwned s := by
  obtain ⟨-, first, -, ⟨-, rfl⟩ | ⟨-, f, -, rfl⟩⟩ := matchStep_eq_next.1 he <;> rfl

/-- `SSM.POLL` starts the timer only in `INIT`. -/
theorem pollStep_producerOwned (hs : s.session ≠ .init) (he : pollStep s = .next t) :
    producerOwned t = producerOwned s := by
  rcases pollStep_eq_next.1 he with ⟨hinit, -⟩ | ⟨-, rfl⟩ | ⟨-, -, rfl⟩ | ⟨-, -, rfl⟩
  · exact absurd hinit hs
  · rfl
  · rfl
  · rfl

theorem microStep_producerOwned (hs : s.session ≠ .init) (he : microStep s = .next t) :
    producerOwned t = producerOwned s := by
  unfold microStep at he
  split at he
  · exact pollStep_producerOwned hs he
  · exact scanStep_producerOwned he
  · cases he; rfl
  · exact checkStep_producerOwned he
  · exact matchStep_producerOwned he
  · cases he

theorem respondStep_producerOwned (started : Bool) (s : State) :
    producerOwned (respondStep started s) = producerOwned s := by
  cases started <;> rfl

/-- Outside `INIT` a pass keeps what the producer owns, since no micro-step enters `INIT`. -/
theorem runPass_producerOwned (hs : s.session ≠ .init) (he : runPass fuel s = .next t) :
    producerOwned t = producerOwned s :=
  (runPass_induct (P := fun u => u.session ≠ .init ∧ producerOwned u = producerOwned s)
    (fun _ _ ⟨hu, howned⟩ hk => ⟨(microStep_setupKept hk).session hu, (microStep_producerOwned hu hk).trans howned⟩)
    ⟨hs, rfl⟩ he).2

theorem execFaPoll_producerOwned (he : execFaPoll s = .next t) : producerOwned t = producerOwned s := by
  obtain ⟨u, v, hu, hv, rfl⟩ := execFaPoll_eq_next.1 he
  have hbegin : producerOwned (beginPass s) = producerOwned s := rfl
  have hscan : producerOwned u = producerOwned s :=
    (scanLoop_induct (P := fun u => producerOwned u = producerOwned s)
      (fun _ _ h _ hk => (scanStep_producerOwned hk).trans h) hbegin hu).1
  obtain ⟨-, hv⟩ | ⟨-, rfl⟩ := hv
  · exact (checkStep_producerOwned hv).trans hscan
  · exact hscan

theorem execQDeq_producerOwned (he : execQDeq s = .next t) : producerOwned t = producerOwned s := by
  obtain ⟨r, hr, hk⟩ := andThen_eq_next.1 he
  cases hk
  obtain ⟨-, rfl⟩ | ⟨-, -, v, -, rfl⟩ := dequeue_eq_next.1 hr <;> rfl

/-- The operations of the poll agent keep what the producer owns, its micro-steps and `SSM.RUN` outside `INIT`. -/
theorem exec_producerOwned (hi : i.kind = .microStep ∨ i = .ssmRun ∨ i = .faPoll ∨ i = .qDeq ∨ i = .qPeek)
    (hs : s.session ≠ .init ∨ i = .faPoll ∨ i = .qDeq ∨ i = .qPeek) (he : exec i s = .next t) :
    producerOwned t = producerOwned s := by
  obtain hmicro | rfl | rfl | rfl | rfl := hi
  · have hs' : s.session ≠ .init := hs.resolve_right (by rintro (rfl | rfl | rfl) <;> cases hmicro)
    obtain hm | ⟨started, -, rfl⟩ := exec_of_microStep hmicro he
    · exact microStep_producerOwned hs' hm
    · exact respondStep_producerOwned started s
  · exact runPass_producerOwned (by simpa using hs) he
  · exact execFaPoll_producerOwned he
  · exact execQDeq_producerOwned he
  · obtain ⟨c, r, rfl⟩ := exec_of_observing (by simp) he
    rfl

/-- Settles O56: the registers and the slots the producer owns are kept together. -/
theorem pollAgentLeavesTheProducerAlone : Obligations.PollAgentLeavesTheProducerAlone := by
  intro i s t hi he hs
  have howned := exec_producerOwned hi hs he
  simp only [producerOwned, Prod.mk.injEq] at howned
  obtain ⟨hslot, hhead, h15, h35, hcnt, hgap, hsil, hrun, hrxen⟩ := howned
  exact ⟨hhead, h15, h35, hcnt, hgap, hsil, hrun, hrxen, fun _ => by rw [hslot]⟩

end Sys2Proof.Machine
end

section
/-!
PROOFS. The timing classifier (R141 to R148): starting, ticking and restarting the timer, the tagging of received bytes,
which operations may clear a flag, and that the poll agent reads no `gap_elapsed` bit.
-/

namespace Sys2Proof.Machine

variable {s t : State} {i : Instr} {v : Byte} {a b : Nat}

/-! ## Starting the timer (R141) -/

/-- The `require` line of R141 decides what `CTC.INIT` does with the thresholds of its configuration. -/
theorem exec_ctcInit_of_thresholds (h : thresholds s.cfg.timing = some (a, b)) :
    (0 < a ∧ a < b ∧ b ≤ 2 ^ s.cfg.wT - 1 →
        exec .ctcInit s = .next { s with t15 := a, t35 := b, run := true, cnt := 0, gap := false, sil := false }) ∧
      (¬(0 < a ∧ a < b ∧ b ≤ 2 ^ s.cfg.wT - 1) → exec .ctcInit s = .refused .illegalConfiguration) :=
  ⟨fun hfit => startTimer_eq_next.2 ⟨a, b, h, thresholdsFit_iff.2 hfit, rfl⟩, startTimer_refused h⟩

theorem exec_ctcInit_of_thresholds_eq_none (h : thresholds s.cfg.timing = none) :
    exec .ctcInit s = .refused .illegalConfiguration := by
  rw [exec, execCtcInit, startTimer, h]

/-- Settles O18: serial parameters derive the least tick counts, given thresholds are taken, and a parameter of 0 leaves
none. -/
theorem ctcInitDerivesThresholds : Obligations.CtcInitDerivesThresholds := by
  refine ⟨by decide, fun s baud d p b f t15 t35 ht hbaud hd hb hf => ?_, fun s t15 t35 ht => ?_,
    fun s baud d p b f ht hzero => ?_⟩
  · rw [← frameBits_eq_ite]
    intro bits h15 h35
    apply exec_ctcInit_of_thresholds
    rw [ht, thresholds_serial_of_isLeast hbaud hd hb hf h15 h35]
  · apply exec_ctcInit_of_thresholds
    rw [ht, thresholds]
  · apply exec_ctcInit_of_thresholds_eq_none
    rw [ht, thresholds_serial_eq_none p (by tauto)]

/-! ## Ticks and restarts (R142, R143, R145) -/

theorem encode_ctcTick_toNat (k : BitVec 16) : (encode (.ctcTick k)).toNat = 0x210000 + k.toNat := by
  rw [encode_toNat, argOf]
  simp [opNumber]

theorem exec_ctcTick {k : BitVec 16} (hk : k ≠ 0) : exec (.ctcTick k) s = .next (timerTicks k.toNat s) := if_neg hk

/-- One tick of a running timer whose count has room in its width. -/
theorem timerTick_running (hr : s.run = true) (hw : s.cnt + 1 < 2 ^ s.cfg.wT) :
    timerTick s = { s with
      cnt := if s.cnt + 1 = s.t35 then 0 else s.cnt + 1
      gap := if s.cnt + 1 = s.t15 then true else s.gap
      sil := if s.cnt + 1 = s.t35 then true else s.sil } := by
  have hsticky (flag : Bool) (c : Nat) : (flag || decide (s.cnt + 1 = c)) = if s.cnt + 1 = c then true else flag := by
    by_cases hc : s.cnt + 1 = c <;> simp [hc]
  simp only [timerTick, hr, if_true, Nat.mod_eq_of_lt hw, hsticky]

/-- Settles O19: a tick count that does not wrap is the sum of its parts. -/
theorem ctcTickCountsAndFlags : Obligations.CtcTickCountsAndFlags := by
  refine ⟨encode_ctcTick_toNat, fun s hr hw => ?_, fun s k hk hr => ?_, fun s a b ha hb hab => ?_⟩
  · rw [exec_ctcTick (by decide), ← timerTick_running hr hw]
    rfl
  · rw [exec_ctcTick hk, timerTicks_stopped _ hr]
  · have hsum : (a + b).toNat = a.toNat + b.toNat := BitVec.toNat_add_of_lt hab
    have hne : a + b ≠ 0 := fun h0 => ha (BitVec.eq_of_toNat_eq (by
      rw [h0] at hsum
      simp at hsum ⊢
      omega))
    rw [exec_ctcTick hne, exec_ctcTick ha, andThen_next, exec_ctcTick hb, hsum, timerTicks_add]

/-- Settles O20: a restart is elapsed time 0, and ticks add up. -/
theorem elapsedTimeLaw : Obligations.ElapsedTimeLaw :=
  ⟨fun s h0 h15 => ⟨restartTimer s, rfl, elapsed_restart h0 (h0.trans h15)⟩,
    fun s _ k hr h0 h15 hw he hk =>
      ⟨_, exec_ctcTick hk, elapsed_ticks k.toNat hr h0 h15 hw he, timerTicks_frame k.toNat s⟩⟩

/-- Settles O23: both are the definition. -/
theorem ctcRestartAndSilnow : Obligations.CtcRestartAndSilnow :=
  ⟨by decide, by decide, fun _ => ⟨rfl, rfl⟩⟩

/-! ## A received byte (R144, R147) -/

theorem encode_ctcRx_toNat (v : Byte) : (encode (.ctcRx v)).toNat = 0x220000 + v.toNat := by
  rw [encode_toNat, argOf, BitVec.toNat_setWidth_of_le (by decide)]
  simp [opNumber]

theorem exec_ctcRx_disabled (h : s.rxen = false) : exec (.ctcRx v) s = .next s := by
  rw [exec, execCtcRx, h]
  rfl

/-- The item carries the flags before the restart. -/
theorem exec_ctcRx_enabled (h : s.rxen = true) :
    exec (.ctcRx v) s = andThen (enqueue (packSlot s.sil s.gap v) (restartTimer s)) fun r => .next r.1 := if_pos h

/-- A full queue drops the tagged byte; the timer is restarted all the same. -/
theorem exec_ctcRx_full (hx : s.rxen = true) (h : ringNext s.cfg.n s.head = s.tail) :
    exec (.ctcRx v) s = .next { s with
      cnt := 0, gap := false, sil := false, drops := s.drops ++ [.qFull (packSlot s.sil s.gap v)] } := by
  rw [exec_ctcRx_enabled hx, enqueue_full (s := restartTimer s) h]
  rfl

/-- A queue with room stores the tagged byte at `HEAD`. -/
theorem exec_ctcRx_room (hx : s.rxen = true) (h : ringNext s.cfg.n s.head ≠ s.tail) (hh : s.head < s.cfg.n) :
    exec (.ctcRx v) s = .next { s with
      cnt := 0, gap := false, sil := false
      slot := memWrite s.slot s.head (packSlot s.sil s.gap v), head := ringNext s.cfg.n s.head } := by
  rw [exec_ctcRx_enabled hx, enqueue_room (s := restartTimer s) h hh]
  rfl

/-- Settles O21: the tagged byte is the item with that number. -/
theorem ctcRxTagsAndRestarts : Obligations.CtcRxTagsAndRestarts := by
  refine fun s v => ⟨encode_ctcRx_toNat v, exec_ctcRx_disabled, fun item hitem hx hh => ?_⟩
  obtain rfl : item = packSlot s.sil s.gap v := BitVec.eq_of_toNat_eq (hitem.trans (packSlot_toNat _ _ _).symm)
  exact ⟨exec_ctcRx_full hx, fun hroom =>
    ⟨_, exec_ctcRx_room hx hroom hh, rfl, memRead_memWrite_self _ _ _, fun _ ha => memRead_memWrite_ne _ _ ha⟩⟩

/-- After a received byte, stored or dropped, no time has elapsed; the thresholds, `RUN`, `RXEN` and the
configuration stay. -/
theorem exec_ctcRx_elapsed (hx : s.rxen = true) (hh : s.head < s.cfg.n) (h0 : 0 < s.t15) (h15 : s.t15 < s.t35) :
    ∃ t, exec (.ctcRx v) s = .next t ∧ Elapsed t 0 ∧
      t.t15 = s.t15 ∧ t.t35 = s.t35 ∧ t.run = s.run ∧ t.rxen = s.rxen ∧ t.cfg = s.cfg := by
  have hrestart := elapsed_restart h0 (h0.trans h15)
  by_cases h : ringNext s.cfg.n s.head = s.tail
  · exact ⟨_, exec_ctcRx_full hx h, hrestart, rfl, rfl, rfl, rfl, rfl⟩
  · exact ⟨_, exec_ctcRx_room hx h hh, hrestart, rfl, rfl, rfl, rfl, rfl⟩

/-- A received byte is stored or dropped with the flags before it. -/
theorem exec_ctcRx_tagged (hx : s.rxen = true) (hh : s.head < s.cfg.n) :
    ∃ t, exec (.ctcRx v) s = .next t ∧
      (ringNext s.cfg.n s.head ≠ s.tail → memRead t.slot s.head = some (packSlot s.sil s.gap v)) ∧
      (ringNext s.cfg.n s.head = s.tail → t.drops = s.drops ++ [.qFull (packSlot s.sil s.gap v)]) := by
  by_cases h : ringNext s.cfg.n s.head = s.tail
  · exact ⟨_, exec_ctcRx_full hx h, fun hroom => absurd h hroom, fun _ => rfl⟩
  · exact ⟨_, exec_ctcRx_room hx h hh, fun _ => memRead_memWrite_self _ _ _, fun hfull => absurd hfull h⟩

/-- Successive `CTC.TICK` operations are the sum of their ticks. -/
theorem execSeq_ctcTick {ticks : List (BitVec 16)} (h : ∀ k ∈ ticks, k ≠ 0) :
    execSeq (ticks.map .ctcTick) s = .next (timerTicks (ticks.map BitVec.toNat).sum s) := by
  induction ticks generalizing s with
  | nil => rfl
  | cons k ticks ih =>
    obtain ⟨hk, hticks⟩ := List.forall_mem_cons.1 h
    rw [List.map_cons, execSeq, exec_ctcTick hk, andThen_next, ih hticks, List.map_cons, List.sum_cons, timerTicks_add]

/-- Settles O22: the first byte restarts the timer, so at the second the flags are those of `d` elapsed ticks. -/
theorem classificationLaw : Obligations.ClassificationLaw := by
  intro s v1 v2 ticks hs hx hr h0 h15 hticks d
  obtain ⟨u, hu, hstart, hu15, hu35, hur, hux, huc⟩ := exec_ctcRx_elapsed (v := v1) hx hs.headRange h0 h15
  have hwu : Wf u := exec_wf hs hu
  obtain ⟨-, hwidth, -⟩ := hwu.timerWidths
  have hframe := timerTicks_frame d u
  have ht15 : (timerTicks d u).t15 = s.t15 := (congrArg State.t15 hframe).trans hu15
  have ht35 : (timerTicks d u).t35 = s.t35 := (congrArg State.t35 hframe).trans hu35
  have htx : (timerTicks d u).rxen = true := (congrArg State.rxen hframe).trans (hux.trans hx)
  obtain ⟨-, hgap, hsil⟩ : Elapsed (timerTicks d u) (0 + d) :=
    elapsed_ticks d (hur.trans hr) (hu15 ▸ h0) (hu15 ▸ hu35 ▸ h15) hwidth hstart
  rw [Nat.zero_add, ht15] at hgap
  rw [Nat.zero_add, ht35] at hsil
  have htn : (timerTicks d u).cfg.n = s.cfg.n := congrArg Config.n ((congrArg State.cfg hframe).trans huc)
  obtain ⟨w, hw, hstored, hdropped⟩ := exec_ctcRx_tagged (v := v2) htx (timerTicks_wf d hwu).headRange
  exact ⟨timerTicks d u, w, packSlot (timerTicks d u).sil (timerTicks d u).gap v2,
    andThen_eq_next.2 ⟨u, hu, execSeq_ctcTick hticks⟩, hw, by rw [slotGap_packSlot, hgap],
    by rw [slotSil_packSlot, hsil], slotValue_packSlot _ _ _, htn ▸ hstored, htn ▸ hdropped⟩

/-! ## What may clear a flag (R145, R270) -/

/-- From `s` to `t` neither timer flag is cleared. -/
structure FlagsKept (s t : State) : Prop where
  gap : s.gap = true → t.gap = true
  sil : s.sil = true → t.sil = true

theorem FlagsKept.of_eq (h : (t.gap, t.sil) = (s.gap, s.sil)) : FlagsKept s t :=
  have ⟨hg, hs⟩ := Prod.mk.inj h
  ⟨hg ▸ id, hs ▸ id⟩

/-- What keeps the producer's registers keeps the two flags among them. -/
theorem FlagsKept.of_producerOwned (h : producerOwned t = producerOwned s) : FlagsKept s t := by
  simp only [producerOwned, Prod.mk.injEq] at h
  obtain ⟨-, -, -, -, -, hg, hs, -, -⟩ := h
  exact ⟨hg ▸ id, hs ▸ id⟩

/-- No micro-step but `SSM.POLL` needs `STATE` to keep the flags, since it never starts the timer. -/
theorem exec_flagsKept_of_microStep (hi : i.kind = .microStep) (hp : i ≠ .ssmPoll) (he : exec i s = .next t) :
    FlagsKept s t := by
  apply FlagsKept.of_producerOwned
  cases i with
  | faScan => exact scanStep_producerOwned (requirePhase_eq_next.1 he).2
  | faDecide => obtain ⟨-, hk⟩ := requirePhase_eq_next.1 he; cases hk; rfl
  | faCheck => exact checkStep_producerOwned (requirePhase_eq_next.1 he).2
  | ssmMatch => exact matchStep_producerOwned (requirePhase_eq_next.1 he).2
  | ssmRespond started =>
    obtain ⟨-, hk⟩ := requirePhase_eq_next.1 he
    cases hk
    exact respondStep_producerOwned started s
  | ssmPoll => exact absurd rfl hp
  | _ => cases hi

/-- The operations that can restart the timer or reset it. -/
def MayClearFlags (i : Instr) (s : State) : Prop :=
  i = .ctcRestart ∨ i = .ctcInit ∨ (∃ v, i = .ctcRx v) ∨ i = .ssmInit ∨ i = .sysReset ∨
    ((i = .ssmPoll ∨ i = .ssmRun) ∧ s.session = .init)

theorem exec_flagsKept (hi : ¬MayClearFlags i s) (he : exec i s = .next t) : FlagsKept s t := by
  cases i with
  | qPeek | qFree | qCount | qIter | ctcSilnow | crcReset | crcByte b | crcBlock | crcVerify =>
    obtain ⟨c, r, rfl⟩ := exec_of_observing (by simp [Instr.kind]) he
    exact .of_eq rfl
  | faScan | faDecide | faCheck | ssmMatch | ssmRespond started =>
    exact exec_flagsKept_of_microStep rfl (by simp) he
  | ssmPoll | ssmRun =>
    have hs : s.session ≠ .init := fun hs => hi (by simp [MayClearFlags, hs])
    exact .of_producerOwned (exec_producerOwned (by simp [Instr.kind]) (.inl hs) he)
  | qInit | faBegin | faClear | ssmTxdone => cases he; exact .of_eq rfl
  | qEnq item =>
    obtain ⟨r, hr, hk⟩ := andThen_eq_next.1 he
    cases hk
    obtain ⟨-, rfl⟩ | ⟨-, -, rfl⟩ := enqueue_cases hr <;> exact .of_eq rfl
  | qDeq => exact .of_producerOwned (execQDeq_producerOwned he)
  | ctcTick k =>
    obtain ⟨-, rfl⟩ := execCtcTick_eq_next.1 he
    obtain ⟨hg, hs⟩ := timerTicks_sticky (s := s) k.toNat
    exact ⟨hg, hs⟩
  | faPoll => exact .of_producerOwned (execFaPoll_producerOwned he)
  | ctcRestart | ctcInit | ctcRx v | ssmInit | sysReset => exact absurd (by simp [MayClearFlags]) hi

/-- Settles O24: every other operation keeps both flags. -/
theorem flagsClearedOnlyByRestart : Obligations.FlagsClearedOnlyByRestart := by
  intro i s t he hclear
  by_contra hi
  have hkept : FlagsKept s t := exec_flagsKept hi he
  obtain ⟨hg, hg'⟩ | ⟨hs, hs'⟩ := hclear
  · rw [hkept.gap hg] at hg'
    cases hg'
  · rw [hkept.sil hs] at hs'
    cases hs'

/-! ## The `gap_elapsed` bits (R148) -/

/-- A slot value with its `gap_elapsed` bit cleared. -/
def eraseGap (v : Slot) : Slot := v &&& 0x2FF

@[simp] theorem slotSil_eraseGap (v : Slot) : slotSil (eraseGap v) = slotSil v := by
  simp [slotSil, eraseGap]

@[simp] theorem slotValue_eraseGap (v : Slot) : slotValue (eraseGap v) = slotValue v := by
  have hmask : (0x2FF : Slot).extractLsb' 0 8 = BitVec.allOnes 8 := by decide
  rw [slotValue, eraseGap, BitVec.extractLsb'_and, hmask, BitVec.and_allOnes]
  rfl

@[simp] theorem eraseGaps_cfg (s : State) : (eraseGaps s).cfg = s.cfg := rfl
@[simp] theorem eraseGaps_phase (s : State) : (eraseGaps s).phase = s.phase := rfl
@[simp] theorem eraseGaps_session (s : State) : (eraseGaps s).session = s.session := rfl

@[simp] theorem memRead_eraseGaps (s : State) (a : Nat) :
    memRead (eraseGaps s).slot a = (memRead s.slot a).map eraseGap := by
  show memRead (s.slot.map fun e => (e.1, eraseGap e.2)) a = _
  induction s.slot with
  | nil => rfl
  | cons e m ih =>
    obtain ⟨b, v⟩ := e
    by_cases h : a = b <;> simp [memRead, h, ih]

/-- A transition that does the same whatever the `gap_elapsed` bits of the slots are. -/
def IgnoresGaps (f : State → Answer State) : Prop := ∀ s, f (eraseGaps s) = onNext eraseGaps (f s)

theorem onNext_andThen {α : Type} (o : Answer α) (k : α → Answer State) :
    onNext eraseGaps (andThen o k) = andThen o fun x => onNext eraseGaps (k x) := andThen_assoc _ _ _

section
variable {f g : State → Answer State} {u : State → State}

/-- An update that reads no slot. -/
theorem IgnoresGaps.next (h : ∀ s, u (eraseGaps s) = eraseGaps (u s)) : IgnoresGaps fun s => .next (u s) :=
  fun s => congrArg _ (h s)

theorem IgnoresGaps.comp (hf : IgnoresGaps f) (h : ∀ s, u (eraseGaps s) = eraseGaps (u s)) :
    IgnoresGaps fun s => f (u s) := fun s => (congrArg f (h s)).trans (hf (u s))

theorem IgnoresGaps.seq (hf : IgnoresGaps f) (hg : IgnoresGaps g) : IgnoresGaps fun s => andThen (f s) g := fun s =>
  calc andThen (f (eraseGaps s)) g
    _ = andThen (onNext eraseGaps (f s)) g := by rw [hf s]
    _ = andThen (f s) fun t => g (eraseGaps t) := andThen_assoc _ _ _
    _ = andThen (f s) fun t => onNext eraseGaps (g t) := congrArg _ (funext hg)
    _ = onNext eraseGaps (andThen (f s) g) := (onNext_andThen _ _).symm

theorem IgnoresGaps.ite {p : State → Prop} [∀ s, Decidable (p s)] (hp : ∀ s, p (eraseGaps s) ↔ p s)
    (hf : IgnoresGaps f) (hg : IgnoresGaps g) : IgnoresGaps fun s => if p s then f s else g s := fun s => by
  beta_reduce
  by_cases h : p s
  · rw [if_pos h, if_pos ((hp s).2 h)]
    exact hf s
  · rw [if_neg h, if_neg (mt (hp s).1 h)]
    exact hg s

/-- A read of registers or of the buffer, and what is done with its value. -/
theorem IgnoresGaps.read {α : Type} {r : State → Answer α} {k : α → State → Answer State}
    (hr : ∀ s, r (eraseGaps s) = r s) (hk : ∀ x, IgnoresGaps (k x)) :
    IgnoresGaps fun s => andThen (r s) fun x => k x s := fun s => by
  beta_reduce
  rw [hr s, onNext_andThen]
  exact congrArg _ (funext fun x => hk x s)

end

/-! ## The reads of a pass -/

theorem slotRead_eraseGaps (s : State) (j : Nat) :
    slotRead (eraseGaps s) j = andThen (slotRead s j) fun v => .next (eraseGap v) := by
  unfold slotRead
  show (if j < s.cfg.n then _ else _) = _
  by_cases hj : j < s.cfg.n
  · rw [if_pos hj, if_pos hj, memRead_eraseGaps]
    cases memRead s.slot j <;> rfl
  · rw [if_neg hj, if_neg hj]
    rfl

theorem dequeue_eraseGaps (s : State) :
    dequeue (eraseGaps s) = andThen (dequeue s) fun r => .next (eraseGaps r.1, r.2.map eraseGap) := by
  unfold dequeue
  show (if s.head = s.tail then _ else andThen (slotRead (eraseGaps s) s.tail) _) = _
  by_cases h : s.head = s.tail
  · rw [if_pos h, if_pos h]
    rfl
  · rw [if_neg h, if_neg h, slotRead_eraseGaps, andThen_assoc, andThen_assoc]
    rfl

/-- What a peek gives is what a dequeue would return (R123). -/
theorem peek_eq_dequeue (s : State) : peek s = andThen (dequeue s) fun r => .next r.2 := by
  unfold peek dequeue
  by_cases h : s.head = s.tail
  · rw [if_pos h, if_pos h]
    rfl
  · rw [if_neg h, if_neg h, andThen_assoc]
    rfl

theorem peek_eraseGaps (s : State) : peek (eraseGaps s) = andThen (peek s) fun o => .next (o.map eraseGap) := by
  rw [peek_eq_dequeue, peek_eq_dequeue, dequeue_eraseGaps, andThen_assoc, andThen_assoc]
  rfl

theorem bufRange_eraseGaps (s : State) (j k : Nat) : bufRange (eraseGaps s) j k = bufRange s j k := by
  induction k generalizing j with
  | zero => rfl
  | succ k ih => simp only [bufRange, ih]; rfl

theorem candidate_eraseGaps (s : State) : candidate (eraseGaps s) = candidate s := bufRange_eraseGaps s 0 s.pos

/-! ## The steps of a pass -/

theorem appendByte_ignoresGaps (v : Byte) : IgnoresGaps (appendByte v) := by
  have hwrite : IgnoresGaps fun s => bufWrite s s.pos v := .ite (fun _ => .rfl) (.next fun _ => rfl) fun _ => rfl
  exact .ite (fun _ => .rfl) (hwrite.seq (.next fun _ => rfl)) (.next fun _ => rfl)

/-- `FA.SCAN` reads the front's value and its `silence_elapsed` bit. -/
theorem scanStep_ignoresGaps : IgnoresGaps scanStep := fun s => by
  unfold scanStep
  rw [peek_eraseGaps, onNext_andThen, andThen_assoc]
  refine congrArg _ (funext fun front => ?_)
  cases front with
  | none => rfl
  | some f =>
    simp only [andThen_next, Option.map_some, slotSil_eraseGap]
    show (if slotSil f = true ∧ s.pos ≠ 0 then _ else _) = _
    by_cases h : slotSil f = true ∧ s.pos ≠ 0
    · rw [if_pos h, if_pos h]
      rfl
    · rw [if_neg h, if_neg h, dequeue_eraseGaps, onNext_andThen, andThen_assoc]
      refine congrArg _ (funext fun r => ?_)
      rw [andThen_next, slotValue_eraseGap]
      exact appendByte_ignoresGaps _ r.1

theorem decideStep_ignoresGaps : IgnoresGaps fun s => .next (decideStep s) := .next fun _ => rfl

theorem checkStep_ignoresGaps : IgnoresGaps checkStep :=
  .ite (fun _ => .rfl) (.next fun _ => rfl)
    (.read candidate_eraseGaps fun _ => .ite (fun _ => .rfl) (.next fun _ => rfl) (.next fun _ => rfl))

theorem matchStep_ignoresGaps : IgnoresGaps matchStep :=
  .read (fun _ => rfl) fun _ =>
    .ite (fun _ => .rfl) (.next fun _ => rfl) (.read candidate_eraseGaps fun _ => .next fun _ => rfl)

theorem startTimer_ignoresGaps : IgnoresGaps startTimer := fun s => by
  unfold startTimer
  rw [eraseGaps_cfg]
  cases thresholds s.cfg.timing with
  | none => rfl
  | some p =>
    dsimp only
    split <;> rfl

theorem initSession_ignoresGaps : IgnoresGaps initSession :=
  (startTimer_ignoresGaps.comp (u := fun s => { clearCandidate (resetQueue s) with txBusy := false }) fun _ => rfl).seq
    (.next fun _ => rfl)

theorem pollStep_ignoresGaps : IgnoresGaps pollStep := fun s => by
  cases hs : s.session with
  | init => rw [pollStep_init ((eraseGaps_session s).trans hs), pollStep_init hs, initSession_ignoresGaps s]
  | receive =>
    rw [pollStep_receive ((eraseGaps_session s).trans hs), pollStep_receive hs]
    rfl
  | sendWait =>
    cases hb : s.txBusy with
    | true =>
      rw [pollStep_busy ((eraseGaps_session s).trans hs) hb, pollStep_busy hs hb]
      rfl
    | false =>
      rw [pollStep_sent ((eraseGaps_session s).trans hs) hb, pollStep_sent hs hb]
      rfl

theorem microStep_ignoresGaps : IgnoresGaps microStep := fun s => by
  unfold microStep
  rw [eraseGaps_phase]
  cases s.phase with
  | idle => exact pollStep_ignoresGaps s
  | scan => exact scanStep_ignoresGaps s
  | decision => exact decideStep_ignoresGaps s
  | check => exact checkStep_ignoresGaps s
  | addrMatch => exact matchStep_ignoresGaps s
  | dispatch => rfl

theorem scanLoop_ignoresGaps (fuel : Nat) : IgnoresGaps (scanLoop fuel) := by
  induction fuel with
  | zero => exact .ite (fun _ => .rfl) (fun _ => rfl) (.next fun _ => rfl)
  | succ fuel ih => exact .ite (fun _ => .rfl) (scanStep_ignoresGaps.seq ih) (.next fun _ => rfl)

theorem runPass_ignoresGaps (fuel : Nat) : IgnoresGaps (runPass fuel) := by
  induction fuel with
  | zero => exact fun _ => rfl
  | succ fuel ih => exact microStep_ignoresGaps.seq (.ite (fun _ => .rfl) (.next fun _ => rfl) ih)

/-- The scan loop, `FA.DECIDE`, and `FA.CHECK` of a complete candidate (R166). -/
theorem execFaPoll_ignoresGaps : IgnoresGaps execFaPoll := by
  have hscan : IgnoresGaps fun s => scanLoop s.cfg.n (beginPass s) :=
    fun s => scanLoop_ignoresGaps s.cfg.n (beginPass s)
  have hcheck : IgnoresGaps fun s =>
      if (decideStep s).phase = .check then checkStep (decideStep s) else .next (decideStep s) :=
    .ite (fun _ => .rfl) (checkStep_ignoresGaps.comp fun _ => rfl) decideStep_ignoresGaps
  exact hscan.seq (hcheck.seq (.next fun _ => rfl))

/-- The check of `PHASE` reads no slot (R103). -/
theorem requirePhase_ignoresGaps (p : Phase) {f : State → Answer State} (hf : IgnoresGaps f) :
    IgnoresGaps fun s => requirePhase p s (f s) := .ite (fun _ => .rfl) hf fun _ => rfl

/-- Settles O32: each micro-step ignores the bits, and the composites are sequences of micro-steps. -/
theorem gapBitsDoNotMatter : Obligations.GapBitsDoNotMatter := by
  rintro i s (hi | rfl | rfl)
  · cases i with
    | ssmPoll => exact requirePhase_ignoresGaps .idle pollStep_ignoresGaps s
    | faScan => exact requirePhase_ignoresGaps .scan scanStep_ignoresGaps s
    | faDecide => exact requirePhase_ignoresGaps .decision decideStep_ignoresGaps s
    | faCheck => exact requirePhase_ignoresGaps .check checkStep_ignoresGaps s
    | ssmMatch => exact requirePhase_ignoresGaps .addrMatch matchStep_ignoresGaps s
    | ssmRespond started =>
      exact requirePhase_ignoresGaps .dispatch (.next fun _ => by cases started <;> rfl) s
    | _ => cases hi
  · exact execFaPoll_ignoresGaps s
  · exact runPass_ignoresGaps (s.cfg.n + 4) s

end Sys2Proof.Machine
end

section
/-!
PROOFS. The frame-assembler (R160 to R169): its four micro-steps one by one, the pass as a sequence of them, and the
frame a pass reports.
-/

namespace Sys2Proof.Machine

variable {s t u : State} {v : Slot} {l rest body : List Slot} {f : List Byte} {fuel : Nat}

/-! ## FA.BEGIN, FA.CLEAR and FA.SCAN -/

/-- Settles O26: both operations answer their body. -/
theorem faBeginAndFaClear : Obligations.FaBeginAndFaClear := ⟨by decide, by decide, fun _ => ⟨rfl, rfl⟩⟩

theorem exec_faScan (hp : s.phase = .scan) : exec .faScan s = scanStep s := requirePhase_of_eq hp

theorem scanStep_empty (he : s.head = s.tail) :
    scanStep s = .next { s with emptied := true, phase := .decision } := scanStep_eq_next.2 (.inl ⟨he, rfl⟩)

/-- A front byte with `sil` after a non-empty candidate stays queued. -/
theorem scanStep_stopped (hne : s.head ≠ s.tail) (ht : s.tail < s.cfg.n) (hv : memRead s.slot s.tail = some v)
    (hsil : slotSil v = true) (hp : s.pos ≠ 0) : scanStep s = .next { s with stopSil := true, phase := .decision } :=
  scanStep_eq_next.2 (.inr ⟨hne, ht, v, hv, .inl ⟨hsil, hp, rfl⟩⟩)

/-- R161's condition to go on is the negation of its condition to stop. -/
theorem not_stopped (hgo : slotSil v = false ∨ s.pos = 0) : ¬(slotSil v = true ∧ s.pos ≠ 0) :=
  fun ⟨hsil, hp⟩ => hgo.elim (by simp [hsil]) hp

theorem scanStep_appended (hne : s.head ≠ s.tail) (ht : s.tail < s.cfg.n) (hv : memRead s.slot s.tail = some v)
    (hgo : slotSil v = false ∨ s.pos = 0) (hroom : s.pos < s.cfg.aduMax) :
    scanStep s = .next { s with
      tail := ringNext s.cfg.n s.tail, buf := memWrite s.buf s.pos (slotValue v), pos := s.pos + 1 } :=
  scanStep_eq_next.2 (.inr ⟨hne, ht, v, hv, .inr (.inl ⟨not_stopped hgo, hroom, rfl⟩)⟩)

theorem scanStep_discarded (hne : s.head ≠ s.tail) (ht : s.tail < s.cfg.n) (hv : memRead s.slot s.tail = some v)
    (hgo : slotSil v = false ∨ s.pos = 0) (hfull : ¬s.pos < s.cfg.aduMax) :
    scanStep s = .next { s with
      tail := ringNext s.cfg.n s.tail, drops := s.drops ++ [.bufOvf (slotValue v)] } :=
  scanStep_eq_next.2 (.inr ⟨hne, ht, v, hv, .inr (.inr ⟨not_stopped hgo, hfull, rfl⟩)⟩)

/-- Settles O27: one lemma per way of the scan, and an append writes at `BUF[POS]` alone. -/
theorem faScanIteration : Obligations.FaScanIteration := by
  refine ⟨by decide, fun s hp => ?_⟩
  rw [exec_faScan hp]
  exact ⟨scanStep_empty, fun v hne ht hv =>
    ⟨scanStep_stopped hne ht hv,
      fun hgo hroom => ⟨_, scanStep_appended hne ht hv hgo hroom, rfl, memRead_memWrite_self _ _ _,
        fun _ ha => memRead_memWrite_ne _ _ ha⟩,
      scanStep_discarded hne ht hv⟩⟩

/-! ## FA.DECIDE and FA.CHECK -/

theorem exec_faDecide (hp : s.phase = .decision) : exec .faDecide s = .next (decideStep s) := requirePhase_of_eq hp

theorem decideStep_complete (hc : frameComplete s = true) : decideStep s = { s with phase := .check } := by
  rw [decideStep, if_pos hc]

theorem decideStep_incomplete (hc : frameComplete s = false) : decideStep s = { s with phase := .idle } := by
  rw [decideStep, hc, if_neg Bool.false_ne_true]

/-- Settles O28: the condition is `complete` of R162. -/
theorem faDecideCompletion : Obligations.FaDecideCompletion := by
  refine ⟨by decide, fun s hp => ?_⟩
  rw [exec_faDecide hp, ← frameComplete_iff, Bool.not_eq_true]
  exact ⟨fun hc => congrArg _ (decideStep_complete hc), fun hc => congrArg _ (decideStep_incomplete hc)⟩

theorem exec_faCheck (hp : s.phase = .check) : exec .faCheck s = checkStep s := requirePhase_of_eq hp

theorem checkStep_short (hp : s.pos < 2) :
    checkStep s = .next { s with pos := 0, phase := .idle, drops := s.drops ++ [.short s.pos] } :=
  checkStep_eq_next.2 (.inl ⟨hp, rfl⟩)

/-- A good candidate has at least its two CRC bytes. -/
theorem checkStep_good (hf : candidate s = .next f) (hg : crcGood f = true) :
    checkStep s = .next { s with phase := .addrMatch } := by
  have hlong : 2 ≤ f.length := by
    by_contra hlt
    rw [crcGood_short (by omega)] at hg
    cases hg
  obtain ⟨hlen, -, -⟩ := candidate_eq_next.1 hf
  exact checkStep_eq_next.2 (.inr ⟨hlen ▸ hlong, f, hf, .inl ⟨hg, rfl⟩⟩)

theorem checkStep_bad (hp : 2 ≤ s.pos) (hf : candidate s = .next f) (hg : crcGood f = false) :
    checkStep s = .next { s with pos := 0, phase := .idle, drops := s.drops ++ [.crc s.pos] } :=
  checkStep_eq_next.2 (.inr ⟨hp, f, hf, .inr ⟨hg, rfl⟩⟩)

/-- `FA.CHECK` of a candidate that is not good, short or with a bad CRC, empties the buffer. -/
theorem checkStep_clears (hf : candidate s = .next f) (hg : crcGood f = false) :
    ∃ e, checkStep s = .next { s with pos := 0, phase := .idle, drops := s.drops ++ [e] } := by
  obtain hp | hp := Nat.lt_or_ge s.pos 2
  · exact ⟨_, checkStep_short hp⟩
  · exact ⟨_, checkStep_bad hp hf hg⟩

/-- The check of R183, over the payload and the two trailing bytes, with the CRC as a fold of R181. -/
theorem crcGood_append_iff (m : List Byte) (lo hi : Byte) :
    crcGood (m ++ [lo, hi]) = true ↔ m.foldl crcUpdate 0xFFFF = hi ++ lo := by
  rw [crcGood_append, decide_eq_true_iff, crcOf, crcOver_eq_foldl]
  rfl

/-- Settles O29: short, good and bad, the candidate being the buffered bytes. -/
theorem faCheckOutcome : Obligations.FaCheckOutcome := by
  refine ⟨by decide, fun s f hp hroom hlen hbuf => ?_⟩
  rw [exec_faCheck hp]
  have hf : candidate s = .next f := candidate_eq_next.2 ⟨hlen, hroom, fun i hi => hbuf i (hlen.symm ▸ hi)⟩
  refine ⟨checkStep_short, fun m lo hi hm => ?_⟩
  subst hm
  rw [← crcGood_append_iff, ne_eq, ← crcGood_append_iff, Bool.not_eq_true]
  have hlong : 2 ≤ s.pos := by rw [← hlen, List.length_append]; exact Nat.le_add_left _ _
  exact ⟨checkStep_good hf, checkStep_bad hlong hf⟩

/-! ## FA.POLL as a sequence of micro-steps (R166) -/

theorem execSeq_append (is js : List Instr) : execSeq (is ++ js) s = andThen (execSeq is s) (execSeq js) := by
  induction is generalizing s with
  | nil => rfl
  | cons i is ih =>
    rw [List.cons_append, execSeq, execSeq, andThen_assoc]
    exact congrArg _ (funext fun _ => ih)

theorem scanLoop_succ (hp : s.phase = .scan) : scanLoop (fuel + 1) s = andThen (scanStep s) (scanLoop fuel) := if_pos hp

theorem scanLoop_of_ne (hp : s.phase ≠ .scan) : scanLoop fuel s = .next s := by
  cases fuel <;> exact if_neg hp

/-- The scan loop performs some number of `FA.SCAN` operations. -/
theorem execSeq_of_scanLoop (he : scanLoop fuel s = .next t) :
    ∃ k, execSeq (List.replicate k .faScan) s = .next t := by
  refine (scanLoop_induct (P := fun u => ∃ k, execSeq (List.replicate k .faScan) s = .next u) ?_ ⟨0, rfl⟩ he).1
  rintro u v ⟨k, hk⟩ hp hv
  refine ⟨k + 1, ?_⟩
  rw [List.replicate_succ', execSeq_append, hk, andThen_next]
  exact andThen_eq_next.2 ⟨v, (exec_faScan hp).trans hv, rfl⟩

/-- A pass whose candidate is complete ends with `FA.CHECK`. -/
theorem exec_faPoll_complete (hu : scanLoop s.cfg.n (beginPass s) = .next u) (hc : frameComplete u = true)
    (ht : checkStep (decideStep u) = .next t) :
    exec .faPoll s = .next { t with result := .pass (decide (t.phase = .addrMatch)) } :=
  execFaPoll_eq_next.2 ⟨u, t, hu, .inl ⟨by rw [decideStep_complete hc], ht⟩, rfl⟩

/-- A pass whose candidate is incomplete ends with `FA.DECIDE`. -/
theorem exec_faPoll_incomplete (hu : scanLoop s.cfg.n (beginPass s) = .next u) (hc : frameComplete u = false) :
    exec .faPoll s =
      .next { decideStep u with result := .pass (decide ((decideStep u).phase = .addrMatch)) } :=
  execFaPoll_eq_next.2 ⟨u, _, hu, .inr ⟨by rw [decideStep_incomplete hc]; exact nofun, rfl⟩, rfl⟩

/-- Settles O30: `FA.BEGIN`, the scans, `FA.DECIDE`, and `FA.CHECK` of a complete candidate. -/
theorem faPollIsItsParts : Obligations.FaPollIsItsParts := by
  refine ⟨by decide, fun s hs => ?_⟩
  obtain ⟨u, hu, hdec, hwu⟩ :=
    scanLoop_total s.cfg.n (beginPass_wf hs) (queueCount_lt hs.headRange hs.tailRange) rfl
  obtain ⟨k, hk⟩ := execSeq_of_scanLoop hu
  have hseq (is : List Instr) :
      execSeq (.faBegin :: (List.replicate k .faScan ++ .faDecide :: is)) s = execSeq is (decideStep u) := by
    change execSeq (_ ++ _) (beginPass s) = _
    rw [execSeq_append, hk, andThen_next, execSeq, exec_faDecide hdec, andThen_next]
  cases hc : frameComplete u with
  | true =>
    obtain ⟨t, ht, hend⟩ := checkStep_total (decideStep_wf hwu)
    have hcheck : (decideStep u).phase = .check := by rw [decideStep_complete hc]
    refine ⟨List.replicate k .faScan ++ [.faDecide, .faCheck], t, ?_, ?_, exec_faPoll_complete hu hc ht, hend⟩
    · rw [hseq, execSeq, exec_faCheck hcheck, ht]
      rfl
    · simp +contextual [List.mem_replicate, or_imp]
  | false =>
    refine ⟨List.replicate k .faScan ++ [.faDecide], decideStep u, hseq [], ?_,
      exec_faPoll_incomplete hu hc, .inr ?_⟩
    · simp +contextual [List.mem_replicate, or_imp]
    · rw [decideStep_incomplete hc]

/-! ## The frame of a pass (R168, R169) -/

/-- The scan loop has buffered the bytes `f` and `l` is still queued. -/
structure Scanning (s : State) (f : List Byte) (l : List Slot) : Prop where
  wf : Wf s
  phase : s.phase = .scan
  buffered : candidate s = .next f
  queued : Represents s l

/-- A frame ends where `rest` is all that is queued: by live silence, or by a byte that carries it. -/
def FrameEnds (s : State) (rest : List Slot) : Prop :=
  (rest = [] ∧ s.sil = true) ∨ ∃ v l, rest = v :: l ∧ slotSil v = true

theorem candidate_next_congr (h : candidate s = .next f) (hc : t.cfg.aduMax = s.cfg.aduMax) (hb : t.buf = s.buf)
    (hp : t.pos = s.pos) : candidate t = .next f := (candidate_congr hc hb hp).trans h

theorem candidate_appended (h : candidate s = .next f) (hroom : s.pos < s.cfg.aduMax) (b : Byte) :
    candidate { s with buf := memWrite s.buf s.pos b, pos := s.pos + 1 } = .next (f ++ [b]) := by
  obtain ⟨hlen, -, hread⟩ := candidate_eq_next.1 h
  refine candidate_eq_next.2 ⟨by simp [hlen], hroom, fun j hj => ?_⟩
  change memRead (memWrite s.buf s.pos b) j = _
  rw [memRead_memWrite]
  split
  · next hjp => simp [hjp, ← hlen]
  · next hjp =>
    have hlt : j < s.pos := by have : j < s.pos + 1 := hj; omega
    rw [hread j hlt, List.getElem?_append_left (hlen.symm ▸ hlt)]

theorem Scanning.length_eq (h : Scanning s f l) : f.length = s.pos := (candidate_eq_next.1 h.buffered).1

/-- A scan moves a byte of the frame from the queue to the buffer. -/
theorem Scanning.scanStep_taken (h : Scanning s f (v :: l)) (hgo : slotSil v = false ∨ f = [])
    (hroom : f.length < s.cfg.aduMax) :
    ∃ t, scanStep s = .next t ∧ Scanning t (f ++ [slotValue v]) l ∧ t.cfg = s.cfg ∧ t.sil = s.sil := by
  obtain ⟨hne, hv, hl⟩ := (Represents.cons_iff h.wf.headRange h.wf.tailRange).1 h.queued
  rw [← List.length_eq_zero_iff, h.length_eq] at hgo
  rw [h.length_eq] at hroom
  have ht := scanStep_appended hne h.wf.tailRange hv hgo hroom
  exact ⟨_, ht,
    { wf := scanStep_wf h.wf ht
      phase := h.phase
      buffered := candidate_next_congr (candidate_appended h.buffered hroom (slotValue v)) rfl rfl rfl
      queued := hl.congr rfl rfl rfl rfl }, rfl, rfl⟩

/-- The scan at the end of a frame leaves the loop with a complete candidate and consumes nothing. -/
theorem Scanning.scanStep_ended (h : Scanning s f rest) (hf : f ≠ []) (hend : FrameEnds s rest) :
    ∃ t, scanStep s = .next t ∧ t.phase ≠ .scan ∧ frameComplete t = true ∧ candidate t = .next f ∧
      Represents t rest := by
  have hpos : s.pos ≠ 0 := by rwa [← h.length_eq, ne_eq, List.length_eq_zero_iff]
  obtain ⟨rfl, hsil⟩ | ⟨v, l, rfl, hsil⟩ := hend
  · have hempty := (Represents.nil_iff h.wf.tailRange).1 h.queued
    exact ⟨_, scanStep_empty hempty, nofun, frameComplete_iff.2 ⟨.inr ⟨rfl, hsil⟩, hpos⟩,
      candidate_next_congr h.buffered rfl rfl rfl, h.queued.congr rfl rfl rfl rfl⟩
  · obtain ⟨hne, hv, -⟩ := (Represents.cons_iff h.wf.headRange h.wf.tailRange).1 h.queued
    exact ⟨_, scanStep_stopped hne h.wf.tailRange hv hsil hpos, nofun, frameComplete_iff.2 ⟨.inl rfl, hpos⟩,
      candidate_next_congr h.buffered rfl rfl rfl, h.queued.congr rfl rfl rfl rfl⟩

/-- Of the state only the live `SIL` matters to where a frame ends. -/
theorem FrameEnds.congr (h : FrameEnds s rest) (hsil : t.sil = s.sil) : FrameEnds t rest := by
  unfold FrameEnds
  rwa [hsil]

/-- Once a candidate is begun, the loop buffers the bytes without `sil` up to the frame's end. -/
theorem Scanning.scanLoop_collects (h : Scanning s f (body ++ rest)) (hf : f ≠ [])
    (hbody : ∀ v ∈ body, slotSil v = false) (hend : FrameEnds s rest)
    (hroom : f.length + body.length ≤ s.cfg.aduMax) (hfuel : body.length < fuel) :
    ∃ t, scanLoop fuel s = .next t ∧ frameComplete t = true ∧ candidate t = .next (f ++ body.map slotValue) ∧
      Represents t rest := by
  induction body generalizing s f fuel with
  | nil =>
    obtain ⟨fuel, rfl⟩ := Nat.exists_eq_add_one_of_ne_zero (Nat.ne_of_gt hfuel)
    obtain ⟨t, ht, hp, hc, hcand, hq⟩ := h.scanStep_ended hf hend
    refine ⟨t, ?_, hc, by simpa using hcand, hq⟩
    rw [scanLoop_succ h.phase, ht, andThen_next, scanLoop_of_ne hp]
  | cons v body ih =>
    obtain ⟨fuel, rfl⟩ := Nat.exists_eq_add_one_of_ne_zero (Nat.ne_zero_of_lt hfuel)
    obtain ⟨hv, hbody⟩ := List.forall_mem_cons.1 hbody
    rw [List.length_cons] at hroom hfuel
    obtain ⟨u, hu, hscan, hcfg, hsil⟩ := h.scanStep_taken (.inl hv) (by omega)
    obtain ⟨t, ht, hc, hcand, hq⟩ := ih hscan (by simp) hbody (hend.congr hsil)
      (by rw [hcfg, List.length_append, List.length_singleton]; omega) (Nat.lt_of_succ_lt_succ hfuel)
    refine ⟨t, ?_, hc, by simpa using hcand, hq⟩
    rw [scanLoop_succ h.phase, hu, andThen_next, ht]

/-- The first byte of a frame is taken whatever its `sil`, and the others follow (R168). -/
theorem scanLoop_beginPass_collects (hs : Wf s) (hpos : s.pos = 0) (hq : Represents s (v :: (body ++ rest)))
    (hbody : ∀ w ∈ body, slotSil w = false) (hend : FrameEnds s rest) (hroom : body.length + 1 ≤ s.cfg.aduMax) :
    ∃ u, scanLoop s.cfg.n (beginPass s) = .next u ∧ frameComplete u = true ∧
      candidate u = .next ((v :: body).map slotValue) ∧ Represents u rest := by
  have hlen := hq.length_le hs.headRange hs.tailRange
  rw [List.length_cons, List.length_append] at hlen
  have hstart : Scanning (beginPass s) [] (v :: (body ++ rest)) :=
    { wf := beginPass_wf hs
      phase := rfl
      buffered := candidate_eq_next.2 ⟨hpos.symm, hs.posRange, fun j hj => absurd (hpos ▸ hj) (Nat.not_lt_zero j)⟩
      queued := hq.congr rfl rfl rfl rfl }
  obtain ⟨n, hn⟩ := Nat.exists_eq_add_one_of_ne_zero (show s.cfg.n ≠ 0 by omega)
  obtain ⟨t, ht, hscan, hcfg, hsil⟩ := hstart.scanStep_taken (.inr rfl) (Nat.lt_of_lt_of_le (Nat.succ_pos _) hroom)
  obtain ⟨u, hu, hc, hcand, hrest⟩ := hscan.scanLoop_collects (by simp) hbody (hend.congr hsil)
    (by rw [hcfg]; simpa [beginPass, Nat.add_comm] using hroom) (show body.length < n by omega)
  refine ⟨u, ?_, hc, hcand, hrest⟩
  rw [hn, scanLoop_succ rfl, ht, andThen_next, hu]

/-- Settles O31: the scan loop collects the frame, which is complete, and `FA.CHECK` judges it. -/
theorem passReportsExactlyTheFrame : Obligations.PassReportsExactlyTheFrame := by
  intro s first body rest hs hpos hq hbody hend hroom frame
  obtain ⟨u, hu, hc, hcand, hrest⟩ := scanLoop_beginPass_collects hs hpos hq hbody hend hroom
  have hcand' : candidate (decideStep u) = .next frame := candidate_next_congr hcand rfl rfl rfl
  obtain ⟨hlen, -, hread⟩ := candidate_eq_next.1 hcand
  refine ⟨fun hg => ?_, fun hg => ?_⟩
  · exact ⟨_, exec_faPoll_complete hu hc (checkStep_good hcand' hg), rfl, rfl, hlen.symm,
      fun i hi => hread i (hlen ▸ hi), hrest.congr rfl rfl rfl rfl⟩
  · obtain ⟨e, he⟩ := checkStep_clears hcand' hg
    exact ⟨_, exec_faPoll_complete hu hc he, rfl, rfl, rfl, hrest.congr rfl rfl rfl rfl⟩

end Sys2Proof.Machine
end

section
/-!
PROOFS. The CRC (R180 to R185): what the four operations answer, the linearity of a byte's update, and what a good frame is,
from which a changed byte is always seen.
-/

namespace Sys2Proof.Machine

variable {s : State} {c : CrcWord} {l f : List Byte} {b lo hi : Byte} {k : Nat}

/-! ## CRC.RESET and CRC.BYTE (R180, R181) -/

theorem encode_crcByte_toNat (b : Byte) : (encode (.crcByte b)).toNat = 0x410000 + b.toNat := by
  rw [encode_toNat, argOf, BitVec.toNat_setWidth_of_le (by decide)]
  simp [opNumber]

/-- The bit shifted out is the parity of the accumulator. -/
theorem crcShift_eq_ite (c : CrcWord) : crcShift c = if c.toNat % 2 = 1 then (c >>> 1) ^^^ 0xA001 else c >>> 1 := by
  simp only [crcShift, BitVec.getLsbD, Nat.testBit_zero, decide_eq_true_eq]

theorem crcShifts_eq_iterate (k : Nat) (c : CrcWord) : crcShifts k c = crcShift^[k] c := by
  induction k generalizing c with
  | zero => rfl
  | succ k ih => exact ih (crcShift c)

/-- Settles O33: a byte's update is eight shifts, each by the parity of what is shifted. -/
theorem crcResetAndCrcByte : Obligations.CrcResetAndCrcByte := by
  refine ⟨by decide, encode_crcByte_toNat, fun _ => rfl, fun s b => ?_⟩
  have hupdate := crcShifts_eq_iterate 8 (s.crcAcc ^^^ b.zeroExtend 16)
  rw [funext crcShift_eq_ite] at hupdate
  intro shift c
  change Host.Outcome.next { s with crcAcc := crcUpdate s.crcAcc b, result := .crc (crcUpdate s.crcAcc b) } = _
  rw [show crcUpdate s.crcAcc b = c from hupdate]

/-! ## CRC.BLOCK and CRC.VERIFY on the candidate (R182, R183) -/

theorem crcOf_eq_foldl (d : List Byte) : crcOf d = d.foldl crcUpdate 0xFFFF := crcOver_eq_foldl _ _

theorem exec_crcBlock (hf : candidate s = .next f) : exec .crcBlock s = .next { s with result := .crc (crcOf f) } := by
  rw [exec, execCrcBlock, hf]
  rfl

theorem exec_crcVerify (hp : 2 ≤ s.pos) (hf : candidate s = .next f) :
    exec .crcVerify s = .next { s with result := .bit (crcGood f) } := by
  rw [exec, execCrcVerify, if_neg (Nat.not_lt.2 hp), hf]
  rfl

theorem exec_crcVerify_short (hp : s.pos < 2) : exec .crcVerify s = .refused .shortOperand := if_pos hp

/-- Settles O34: both operations read the candidate, which is the buffered bytes. -/
theorem crcBlockAndCrcVerify : Obligations.CrcBlockAndCrcVerify := by
  refine ⟨by decide, by decide, fun s f hroom hlen hbuf => ?_⟩
  have hf : candidate s = .next f := candidate_eq_next.2 ⟨hlen, hroom, fun i hi => hbuf i (hlen.symm ▸ hi)⟩
  refine ⟨?_, fun m lo hi hm => ?_, fun hshort => exec_crcVerify_short (hlen ▸ hshort)⟩
  · rw [exec_crcBlock hf, crcOf_eq_foldl]
  · subst hm
    have hlong : 2 ≤ s.pos := by rw [← hlen, List.length_append]; exact Nat.le_add_left _ _
    rw [exec_crcVerify hlong hf, crcGood_append, crcOf_eq_foldl]
    rfl

/-! ## Linearity (R185) -/

/-- Settles O36: the exclusive-ors of accumulators and bytes change places, and the shifts are linear. -/
theorem crcByteIsLinear : Obligations.CrcByteIsLinear := by
  intro c1 c2 b1 b2
  have hinput : (c1 ^^^ c2) ^^^ (b1 ^^^ b2).setWidth 16 = (c1 ^^^ b1.setWidth 16) ^^^ (c2 ^^^ b2.setWidth 16) := by
    rw [BitVec.setWidth_xor]
    ac_rfl
  rw [crcUpdate, hinput, crcShifts_xor]
  rfl

/-! ## A good frame has the CRC 0 (R183 corner case c) -/

/-- Two bytes, the low one first, enter the accumulator as one u16. -/
theorem crcOver_trailer (c : CrcWord) (lo hi : Byte) : crcOver c [lo, hi] = crcShifts 16 (c ^^^ packBytes hi lo) := by
  calc crcOver c [lo, hi]
      = crcShifts 8 (crcShifts 8 (c ^^^ lo.setWidth 16) ^^^ crcShifts 8 (packBytes hi 0)) := by
        rw [crcShifts_high]
        rfl
    _ = crcShifts 16 ((c ^^^ lo.setWidth 16) ^^^ packBytes hi 0) := by
        rw [← crcShifts_xor, ← crcShifts_add]
    _ = crcShifts 16 (c ^^^ packBytes hi lo) := by
        rw [packBytes_eq_xor hi lo, BitVec.xor_assoc, BitVec.xor_comm (packBytes hi 0)]

theorem crcOver_trailer_eq_zero_iff : crcOver c [lo, hi] = 0 ↔ c = packBytes hi lo := by
  rw [crcOver_trailer, ← BitVec.xor_eq_zero_iff (x := c)]
  exact ⟨crcShifts_eq_zero 16, fun h0 => by rw [h0]; exact crcShifts_zero 16⟩

/-- Settles O37: the trailer takes the payload's CRC to 0 exactly if it is that CRC. -/
theorem crcGoodIffZero : Obligations.CrcGoodIffZero := by
  intro f hlong
  obtain ⟨m, lo, hi, rfl⟩ := exists_trailer hlong
  rw [crcGood_append, decide_eq_true_iff, ← crcOver_trailer_eq_zero_iff, crcOf, crcOf, crcOver_append]

/-! ## A changed byte is seen (R184) -/

/-- A write into a block that keeps its CRC has written the byte that stood there. -/
theorem getElem?_eq_of_crcOver_set (hk : k < l.length) (h : crcOver c (l.set k b) = crcOver c l) : l[k]? = some b := by
  induction l generalizing c k with
  | nil => exact absurd hk (Nat.not_lt_zero k)
  | cons a l ih =>
    cases k with
    | zero => exact congrArg some (crcUpdate_injective_right (crcOver_injective l h)).symm
    | succ k => exact ih (Nat.lt_of_succ_lt_succ hk) h

/-- Settles O35: the built frame has the CRC 0, and a frame with one byte of it changed has another. -/
theorem crcRoundTripAndMutation : Obligations.CrcRoundTripAndMutation := by
  intro m frame
  have hgood : crcGood frame = true := crcGood_append_trailer m
  have hlong : 2 ≤ frame.length := by rw [List.length_append]; exact Nat.le_add_left _ _
  refine ⟨hgood, fun k b hk hne => Bool.eq_false_iff.2 fun hset => hne ?_⟩
  have hzero : crcOf frame = 0 := (crcGoodIffZero _ hlong).1 hgood
  have hsetZero : crcOf (frame.set k b) = 0 := (crcGoodIffZero _ (by rwa [List.length_set])).1 hset
  exact getElem?_eq_of_crcOver_set hk (hsetZero.trans hzero.symm)

end Sys2Proof.Machine
end

section
/-!
PROOFS. The responder interface (R191, R225, R228, R270): the model's own record of what the transport owes, which no operation
writes, and `TX_BUSY`, which only an answer that starts a transmission sets (log 25).
-/

namespace Sys2Proof.Machine

variable {s t : State} {i : Instr} {v : Byte}

/-! ## What the operations do with the record and with `TX_BUSY` -/

/-- From `s` to `t` the record of the environment is kept and `TX_BUSY` is not set. -/
structure TransportKept (s t : State) : Prop where
  owed : t.owed = s.owed
  answered : t.answered = s.answered
  txBusy : t.txBusy = true → s.txBusy = true

theorem TransportKept.trans {u : State} (h : TransportKept s t) (h' : TransportKept t u) : TransportKept s u where
  owed := h'.owed.trans h.owed
  answered := h'.answered.trans h.answered
  txBusy := h.txBusy ∘ h'.txBusy

theorem enqueue_transportKept {item : Slot} {r : State × Bool} (he : enqueue item s = .next r) : TransportKept s r.1 := by
  obtain ⟨-, rfl⟩ | ⟨-, -, rfl⟩ := enqueue_cases he <;> exact ⟨rfl, rfl, id⟩

theorem execQEnq_transportKept {item : Slot} (he : execQEnq item s = .next t) : TransportKept s t := by
  obtain ⟨r, hr, hk⟩ := andThen_eq_next.1 he
  cases hk
  exact (enqueue_transportKept hr).trans ⟨rfl, rfl, id⟩

theorem execQDeq_transportKept (he : execQDeq s = .next t) : TransportKept s t := by
  obtain ⟨r, hr, hk⟩ := andThen_eq_next.1 he
  cases hk
  obtain ⟨-, rfl⟩ | ⟨-, -, _, -, rfl⟩ := dequeue_eq_next.1 hr <;> exact ⟨rfl, rfl, id⟩

theorem execCtcRx_transportKept (he : execCtcRx v s = .next t) : TransportKept s t := by
  unfold execCtcRx at he
  split at he
  · obtain ⟨r, hr, hk⟩ := andThen_eq_next.1 he
    cases hk
    have hrestart : TransportKept s (restartTimer s) := ⟨rfl, rfl, id⟩
    exact hrestart.trans (enqueue_transportKept hr)
  · cases he; exact ⟨rfl, rfl, id⟩

theorem timerTicks_transportKept (k : Nat) (s : State) : TransportKept s (timerTicks k s) := by
  rw [timerTicks_frame]
  exact ⟨rfl, rfl, id⟩

theorem scanStep_transportKept (he : scanStep s = .next t) : TransportKept s t := by
  obtain ⟨-, rfl⟩ | ⟨-, -, _, -, ⟨-, -, rfl⟩ | ⟨-, -, rfl⟩ | ⟨-, -, rfl⟩⟩ := scanStep_eq_next.1 he <;>
    exact ⟨rfl, rfl, id⟩

theorem checkStep_transportKept (he : checkStep s = .next t) : TransportKept s t := by
  obtain ⟨-, rfl⟩ | ⟨-, _, -, ⟨-, rfl⟩ | ⟨-, rfl⟩⟩ := checkStep_eq_next.1 he <;> exact ⟨rfl, rfl, id⟩

theorem matchStep_transportKept (he : matchStep s = .next t) : TransportKept s t := by
  obtain ⟨-, _, -, ⟨-, rfl⟩ | ⟨-, _, -, rfl⟩⟩ := matchStep_eq_next.1 he <;> exact ⟨rfl, rfl, id⟩

/-- `SSM.INIT` clears `TX_BUSY` and forgives no interrupt owed. -/
theorem initSession_transportKept (he : initSession s = .next t) : TransportKept s t := by
  obtain ⟨a, b, -, -, rfl⟩ := initSession_eq_next.1 he
  exact ⟨rfl, rfl, nofun⟩

theorem pollStep_transportKept (he : pollStep s = .next t) : TransportKept s t := by
  obtain ⟨-, hi⟩ | ⟨-, rfl⟩ | ⟨-, -, rfl⟩ | ⟨-, -, rfl⟩ := pollStep_eq_next.1 he
  · exact initSession_transportKept hi
  · exact ⟨rfl, rfl, id⟩
  · exact ⟨rfl, rfl, id⟩
  · exact ⟨rfl, rfl, id⟩

theorem microStep_transportKept (he : microStep s = .next t) : TransportKept s t := by
  unfold microStep at he
  split at he
  · exact pollStep_transportKept he
  · exact scanStep_transportKept he
  · cases he; exact ⟨rfl, rfl, id⟩
  · exact checkStep_transportKept he
  · exact matchStep_transportKept he
  · cases he

theorem execSsmRun_transportKept (he : execSsmRun s = .next t) : TransportKept s t :=
  runPass_induct (P := TransportKept s) (fun _ _ h hk => h.trans (microStep_transportKept hk)) ⟨rfl, rfl, id⟩ he

theorem execFaPoll_transportKept (he : execFaPoll s = .next t) : TransportKept s t := by
  obtain ⟨u, w, hu, hw, rfl⟩ := execFaPoll_eq_next.1 he
  have hbegin : TransportKept s (beginPass s) := ⟨rfl, rfl, id⟩
  have hscan : TransportKept s u :=
    (scanLoop_induct (fun _ _ h _ hk => h.trans (scanStep_transportKept hk)) hbegin hu).1
  have hdecide : TransportKept s (decideStep u) := hscan.trans ⟨rfl, rfl, id⟩
  obtain ⟨-, hw⟩ | ⟨-, rfl⟩ := hw
  · exact (hdecide.trans (checkStep_transportKept hw)).trans ⟨rfl, rfl, id⟩
  · exact hdecide.trans ⟨rfl, rfl, id⟩

/-- Every operation but the answer that starts a transmission keeps the record and does not set `TX_BUSY`. -/
theorem exec_transportKept (hi : i ≠ .ssmRespond true) (he : exec i s = .next t) : TransportKept s t := by
  cases i with
  | qPeek | qFree | qCount | qIter | ctcSilnow | crcReset | crcByte b | crcBlock | crcVerify =>
    obtain ⟨c, r, rfl⟩ := exec_of_observing (by simp [Instr.kind]) he
    exact ⟨rfl, rfl, id⟩
  | ssmPoll => exact pollStep_transportKept (requirePhase_eq_next.1 he).2
  | faScan => exact scanStep_transportKept (requirePhase_eq_next.1 he).2
  | faDecide =>
    obtain ⟨-, hk⟩ := requirePhase_eq_next.1 he
    cases hk
    exact ⟨rfl, rfl, id⟩
  | faCheck => exact checkStep_transportKept (requirePhase_eq_next.1 he).2
  | ssmMatch => exact matchStep_transportKept (requirePhase_eq_next.1 he).2
  | ssmRespond started =>
    cases started with
    | true => exact absurd rfl hi
    | false =>
      obtain ⟨-, hk⟩ := requirePhase_eq_next.1 he
      cases hk
      exact ⟨rfl, rfl, id⟩
  | qInit | ctcRestart | faBegin | faClear => cases he; exact ⟨rfl, rfl, id⟩
  | sysReset | ssmTxdone => cases he; exact ⟨rfl, rfl, nofun⟩
  | qEnq item => exact execQEnq_transportKept he
  | qDeq => exact execQDeq_transportKept he
  | ctcInit =>
    obtain ⟨a, b, -, -, rfl⟩ := startTimer_eq_next.1 he
    exact ⟨rfl, rfl, id⟩
  | ctcTick k =>
    obtain ⟨-, rfl⟩ := execCtcTick_eq_next.1 he
    exact timerTicks_transportKept k.toNat s
  | ctcRx v => exact execCtcRx_transportKept he
  | faPoll => exact execFaPoll_transportKept he
  | ssmInit => exact initSession_transportKept he
  | ssmRun => exact execSsmRun_transportKept he

/-- No operation itself writes the record of the environment: the answer that starts a transmission leaves it too. -/
theorem exec_record (he : exec i s = .next t) : t.owed = s.owed ∧ t.answered = s.answered := by
  by_cases hi : i = .ssmRespond true
  · subst hi
    obtain ⟨-, hk⟩ := requirePhase_eq_next.1 he
    cases hk
    exact ⟨rfl, rfl⟩
  · have h : TransportKept s t := exec_transportKept hi he
    exact ⟨h.owed, h.answered⟩

/-! ## `TX_BUSY` and the interrupts owed -/

/-- `TX_BUSY` is set only while a transmit-complete interrupt is owed. -/
def BusyOwed (s : State) : Prop := s.txBusy = true → 0 < s.owed

/-- The count rises where `TX_BUSY` may be set, and falls only where it is cleared. -/
theorem perform_busyOwed (h : BusyOwed s) (he : perform i s = .next t) : BusyOwed t := by
  obtain ⟨-, u, hu, rfl⟩ := perform_eq_next.1 he
  intro (hbusy : u.txBusy = true)
  show 0 < owedAfter i u.owed
  by_cases hstart : i = .ssmRespond true
  · subst hstart
    exact Nat.succ_pos u.owed
  · by_cases hdone : i = .ssmTxdone
    · subst hdone
      cases hu
      cases hbusy
    · have hkept : TransportKept s u := exec_transportKept hstart hu
      rw [owedAfter_other hstart hdone, hkept.owed]
      exact h (hkept.txBusy hbusy)

/-- A change of the configuration inputs touches neither. -/
theorem step_busyOwed (h : BusyOwed s) (he : step s = .next t) : BusyOwed t := by
  obtain ⟨-, ⟨-, rfl⟩ | ⟨timing, addr, rest, -, hr⟩ | ⟨w, rest, i, -, -, hp⟩⟩ := step_eq_next.1 he
  · exact h
  · obtain ⟨-, -, rfl⟩ := reconfigure_eq_next.1 hr
    exact h
  · exact perform_busyOwed (s := { s with inputs := rest }) h hp

/-- With nothing owed, as in a breach of (A3), no transmission is under way. -/
theorem BusyOwed.txBusy_of_breaksA3 (h : BusyOwed s) (hbreak : breaksA3 i s = true) : s.txBusy = false := by
  obtain ⟨-, -, hnone⟩ := of_decide_eq_true hbreak
  by_contra hbusy
  exact (h (Bool.eq_true_of_not_eq_false hbusy)).ne' hnone

/-- Settles O60: what each operation keeps gives the first clause, and with the counting of `perform` the step's. -/
theorem busyMeansInterruptOwed : Obligations.BusyMeansInterruptOwed :=
  ⟨fun _ _ _ => exec_record, fun _ _ => step_busyOwed, fun _ => BusyOwed.txBusy_of_breaksA3⟩

end Sys2Proof.Machine
end

section
/-!
PROOFS. The session state machine (R220 to R230): what each of its operations does, every transition of `STATE` and `PHASE`, the
pass as a sequence of micro-steps, and the core's promise about dispatch requests.
-/

namespace Sys2Proof.Machine

variable {s t u : State} {i : Instr} {f : List Byte} {first : Byte} {fuel : Nat}

/-! ## SSM.INIT (R221) -/

/-- R221 in its order: the queue, the candidate and `TX_BUSY` cleared, then `CTC.INIT`, then `RXEN` and `STATE`. -/
theorem exec_ssmInit (s : State) :
    exec .ssmInit s = andThen (exec .ctcInit { s with head := 0, tail := 0, pos := 0, txBusy := false }) fun t =>
      .next { t with rxen := true, session := .receive } := rfl

/-- `CTC.INIT` looks at the configuration alone, so the registers `SSM.INIT` cleared before do not change its refusal. -/
theorem exec_ssmInit_refused {r : Refusal} (hctc : ∀ u : State, u.cfg = s.cfg → exec .ctcInit u = .refused r) :
    exec .ssmInit s = .refused r := by
  rw [exec_ssmInit, hctc, andThen_refused]
  rfl

/-- Settles O39: the session starts exactly where `CTC.INIT` takes the thresholds. -/
theorem ssmInitStartsTheSession : Obligations.SsmInitStartsTheSession := by
  refine ⟨by decide, fun s => ⟨fun t15 t35 ht hfit => ?_, fun t15 t35 ht hfit => ?_, fun hnone => ?_⟩⟩
  · exact initSession_eq_next.2 ⟨t15, t35, ht, thresholdsFit_iff.2 hfit, rfl⟩
  · exact exec_ssmInit_refused fun _ hu => (exec_ctcInit_of_thresholds (hu ▸ ht)).2 (hu ▸ hfit)
  · exact exec_ssmInit_refused fun _ hu => exec_ctcInit_of_thresholds_eq_none (hu ▸ hnone)

/-- A legal configuration starts the session. -/
theorem initSession_total (h : configLegal s.cfg = true) : ∃ t, initSession s = .next t := by
  obtain ⟨-, -, t15, t35, ht, hfit⟩ := configLegal_iff.1 h
  exact ⟨_, initSession_eq_next.2 ⟨t15, t35, ht, thresholdsFit_iff.2 hfit, rfl⟩⟩

/-! ## SSM.POLL (R222) -/

theorem exec_ssmPoll (hp : s.phase = .idle) : exec .ssmPoll s = pollStep s := requirePhase_of_eq hp

theorem pollStep_init_total (hs : s.session = .init) (h : configLegal s.cfg = true) :
    ∃ t, pollStep s = .next t ∧ t.session = .receive := by
  obtain ⟨t, ht⟩ := initSession_total h
  obtain ⟨-, -, hreceive⟩ := initSession_sets ht
  exact ⟨t, (pollStep_init hs).trans ht, hreceive⟩

/-- Settles O40: one lemma per `STATE`. -/
theorem ssmPollByState : Obligations.SsmPollByState := by
  refine ⟨by decide, fun s hp => ?_⟩
  rw [exec_ssmPoll hp]
  exact ⟨pollStep_init, pollStep_init_total, pollStep_receive, pollStep_busy, pollStep_sent⟩

/-! ## SSM.MATCH (R224) -/

theorem exec_ssmMatch (hp : s.phase = .addrMatch) : exec .ssmMatch s = matchStep s := requirePhase_of_eq hp

theorem candidate_of_buffered (hroom : s.pos ≤ s.cfg.aduMax) (hlen : f.length = s.pos) (hbuf : Buffered s f) :
    candidate s = .next f :=
  candidate_eq_next.2 ⟨hlen, hroom, fun j hj => hbuf j (hlen ▸ hj)⟩

theorem matchStep_other (hf : candidate s = .next (first :: f)) (ha : first ≠ s.cfg.slaveAddr) :
    matchStep s = .next { s with pos := 0, phase := .idle, drops := s.drops ++ [.addr first] } := by
  obtain ⟨hlen, hroom, hread⟩ := candidate_eq_next.1 hf
  have hpos : 0 < s.pos := hlen ▸ Nat.succ_pos _
  exact matchStep_eq_next.2 ⟨hpos.trans_le hroom, first, hread 0 hpos, .inl ⟨ha, rfl⟩⟩

theorem matchStep_mine (hf : candidate s = .next (first :: f)) (ha : first = s.cfg.slaveAddr) :
    matchStep s = .next { s with phase := .dispatch, outputs := s.outputs ++ [.dispatchRequest (first :: f)] } := by
  obtain ⟨hlen, hroom, hread⟩ := candidate_eq_next.1 hf
  have hpos : 0 < s.pos := hlen ▸ Nat.succ_pos _
  exact matchStep_eq_next.2 ⟨hpos.trans_le hroom, first, hread 0 hpos, .inr ⟨ha, _, hf, rfl⟩⟩

/-- Settles O41: the buffered bytes are the candidate, and `BUF[0]` its first. -/
theorem ssmMatchFiltersAddresses : Obligations.SsmMatchFiltersAddresses := by
  refine ⟨by decide, fun s first f hp hroom hlen hbuf => ?_⟩
  rw [exec_ssmMatch hp]
  have hf : candidate s = .next (first :: f) := candidate_of_buffered hroom hlen hbuf
  exact ⟨matchStep_other hf, matchStep_mine hf⟩

/-! ## SSM.RESPOND and SSM.TXDONE (R225, R228) -/

theorem encode_ssmRespond_toNat (started : Bool) : (encode (.ssmRespond started)).toNat = 0x530000 + started.toNat := by
  cases started <;> decide

theorem exec_ssmRespond (hp : s.phase = .dispatch) (started : Bool) :
    exec (.ssmRespond started) s = .next (respondStep started s) := requirePhase_of_eq hp

/-- Settles O42: both answers at DISPATCH, and the interrupt anywhere. -/
theorem ssmRespondAndSsmTxdone : Obligations.SsmRespondAndSsmTxdone :=
  ⟨encode_ssmRespond_toNat, by decide, fun _ hp => ⟨exec_ssmRespond hp true, exec_ssmRespond hp false⟩, fun _ => rfl⟩

/-! ## The transitions of STATE and PHASE (R226) -/

/-- The condition on which a scan leaves the loop (R161). -/
def ScanStops (s : State) : Prop :=
  s.head = s.tail ∨ ∃ v, memRead s.slot s.tail = some v ∧ slotSil v = true ∧ s.pos ≠ 0

/-- The condition on which a candidate passes the check (R163). -/
def CandidateGood (s : State) : Prop := 2 ≤ s.pos ∧ ∃ f, candidate s = .next f ∧ crcGood f = true

/-- A non-empty queue stops the scan only by its front element. -/
theorem scanStops_iff_of_front {v : Slot} (hne : s.head ≠ s.tail) (hv : memRead s.slot s.tail = some v) :
    ScanStops s ↔ slotSil v = true ∧ s.pos ≠ 0 := by
  simp [ScanStops, hne, hv]

theorem scanStep_transition (he : scanStep s = .next t) :
    t.session = s.session ∧ (¬ScanStops s ∧ t.phase = s.phase ∨ ScanStops s ∧ t.phase = .decision) := by
  obtain ⟨hempty, rfl⟩ | ⟨hne, -, v, hv, ⟨hsil, hp, rfl⟩ | ⟨hgo, -, rfl⟩ | ⟨hgo, -, rfl⟩⟩ := scanStep_eq_next.1 he
  · exact ⟨rfl, .inr ⟨.inl hempty, rfl⟩⟩
  · exact ⟨rfl, .inr ⟨(scanStops_iff_of_front hne hv).2 ⟨hsil, hp⟩, rfl⟩⟩
  · exact ⟨rfl, .inl ⟨mt (scanStops_iff_of_front hne hv).1 hgo, rfl⟩⟩
  · exact ⟨rfl, .inl ⟨mt (scanStops_iff_of_front hne hv).1 hgo, rfl⟩⟩

theorem checkStep_transition (he : checkStep s = .next t) :
    t.session = s.session ∧ (¬CandidateGood s ∧ t.phase = .idle ∨ CandidateGood s ∧ t.phase = .addrMatch) := by
  obtain ⟨hshort, rfl⟩ | ⟨hlong, f, hf, ⟨hg, rfl⟩ | ⟨hbad, rfl⟩⟩ := checkStep_eq_next.1 he
  · exact ⟨rfl, .inl ⟨fun ⟨hlong, _⟩ => absurd hshort (Nat.not_lt.2 hlong), rfl⟩⟩
  · exact ⟨rfl, .inr ⟨⟨hlong, f, hf, hg⟩, rfl⟩⟩
  · exact ⟨rfl, .inl ⟨fun ⟨_, _, hf', hg⟩ => by simp_all, rfl⟩⟩

theorem matchStep_transition (he : matchStep s = .next t) :
    t.session = s.session ∧
      (memRead s.buf 0 ≠ some s.cfg.slaveAddr ∧ t.phase = .idle ∨
        memRead s.buf 0 = some s.cfg.slaveAddr ∧ t.phase = .dispatch) := by
  obtain ⟨-, first, hfirst, ⟨hother, rfl⟩ | ⟨rfl, _, -, rfl⟩⟩ := matchStep_eq_next.1 he
  · exact ⟨rfl, .inl ⟨by simpa [hfirst] using hother, rfl⟩⟩
  · exact ⟨rfl, .inr ⟨hfirst, rfl⟩⟩

/-- Reset aside, the events that are no step of the poll agent leave its registers and the outputs alone. -/
theorem exec_pollAgentKept (hk : i.kind = .external ∨ i.kind = .query ∨ i.kind = .pure) (hreset : i ≠ .sysReset)
    (he : exec i s = .next t) : t.session = s.session ∧ t.phase = s.phase ∧ t.outputs = s.outputs := by
  cases i with
  | qFree | qCount | qIter | crcReset | crcByte b | crcBlock | crcVerify =>
    obtain ⟨c, r, rfl⟩ := exec_of_observing (by simp [Instr.kind]) he
    exact ⟨rfl, rfl, rfl⟩
  | ctcTick k =>
    obtain ⟨-, rfl⟩ := execCtcTick_eq_next.1 he
    rw [timerTicks_frame]
    exact ⟨rfl, rfl, rfl⟩
  | ctcRx v =>
    cases hx : s.rxen with
    | false =>
      rw [exec_ctcRx_disabled hx] at he
      cases he
      exact ⟨rfl, rfl, rfl⟩
    | true =>
      rw [exec_ctcRx_enabled hx] at he
      obtain ⟨r, hr, hk⟩ := andThen_eq_next.1 he
      cases hk
      obtain ⟨-, rfl⟩ | ⟨-, -, rfl⟩ := enqueue_cases hr <;> exact ⟨rfl, rfl, rfl⟩
  | ssmTxdone => cases he; exact ⟨rfl, rfl, rfl⟩
  | sysReset => exact absurd rfl hreset
  | _ => simp [Instr.kind] at hk

/-- The columns of R102 a step of the environment may be of, beside the poll agent's. -/
theorem kind_cases (hinternal : i.kind ≠ .internal) (hcomposite : i.kind ≠ .composite) :
    i.kind = .microStep ∨ i.kind = .external ∨ i.kind = .query ∨ i.kind = .pure := by
  cases hk : i.kind <;> simp_all

/-- Settles O45: each micro-step moves along the rows of its own, in `RECEIVE` but for `SSM.POLL`. -/
theorem transitionTable : Obligations.TransitionTable := by
  intro i s t h hinternal hcomposite he go stops complete good mine
  obtain hmicro | hother := kind_cases hinternal hcomposite
  · have hreceive {p : Phase} (hp : s.phase = p) (hne : p ≠ .idle) : s.session = .receive := h.receive_of_phase hp hne
    cases i with
    | ssmPoll =>
      obtain ⟨hp, hk⟩ := requirePhase_eq_next.1 he
      obtain ⟨hs, hi⟩ | ⟨hs, rfl⟩ | ⟨hs, hb, rfl⟩ | ⟨hs, hb, rfl⟩ := pollStep_eq_next.1 hk
      · obtain ⟨_, _, -, -, rfl⟩ := initSession_eq_next.1 hi
        simp [go, hs, hp]
      · simp [go, hs, hp]
      · simp [go, hs, hp, hb]
      · simp [go, hs, hp, hb]
    | faScan =>
      obtain ⟨hp, hk⟩ := requirePhase_eq_next.1 he
      have hs := hreceive hp (by simp)
      obtain ⟨hsession, ⟨(hgo : ¬stops), hphase⟩ | ⟨(hstop : stops), hphase⟩⟩ := scanStep_transition hk
      · simp [go, hs, hp, hsession, hphase, hgo]
      · simp [go, hs, hp, hsession, hphase, hstop]
    | faDecide =>
      obtain ⟨hp, hk⟩ := requirePhase_eq_next.1 he
      have hs := hreceive hp (by simp)
      cases hk
      have hiff : frameComplete s = true ↔ complete := frameComplete_iff
      by_cases hc : complete
      · simp [go, hs, hp, hc, decideStep_complete (hiff.2 hc)]
      · simp [go, hs, hp, hc, decideStep_incomplete (Bool.eq_false_iff.2 (mt hiff.1 hc))]
    | faCheck =>
      obtain ⟨hp, hk⟩ := requirePhase_eq_next.1 he
      have hs := hreceive hp (by simp)
      obtain ⟨hsession, ⟨(hbad : ¬good), hphase⟩ | ⟨(hgood : good), hphase⟩⟩ := checkStep_transition hk
      · simp [go, hs, hp, hsession, hphase, hbad]
      · simp [go, hs, hp, hsession, hphase, hgood]
    | ssmMatch =>
      obtain ⟨hp, hk⟩ := requirePhase_eq_next.1 he
      have hs := hreceive hp (by simp)
      obtain ⟨hsession, ⟨(hother : ¬mine), hphase⟩ | ⟨(hmine : mine), hphase⟩⟩ := matchStep_transition hk
      · simp [go, hs, hp, hsession, hphase, hother]
      · simp [go, hs, hp, hsession, hphase, hmine]
    | ssmRespond started =>
      obtain ⟨hp, hk⟩ := requirePhase_eq_next.1 he
      have hs := hreceive hp (by simp)
      cases hk
      cases started with
      | true => simp [go, hs, hp, respondStep_true]
      | false => simp [go, hs, hp, respondStep_false]
    | _ => cases hmicro
  · by_cases hreset : i = .sysReset
    · subst hreset
      cases he
      exact .inl ⟨rfl, rfl, rfl⟩
    · obtain ⟨hsession, hphase, -⟩ := exec_pollAgentKept hother hreset he
      have hnot : i.kind ≠ .microStep := fun hk => by simp [hk] at hother
      exact .inr (.inl ⟨hreset, hnot, hsession, hphase⟩)

/-! ## SSM.RUN as a sequence of micro-steps (R229) -/

/-- A pass is over: `PHASE` is IDLE or DISPATCH. -/
def PassOver (s : State) : Prop := s.phase = .idle ∨ s.phase = .dispatch

/-- The micro-steps left of a pass, at most: `SSM.POLL`, the scans, `FA.DECIDE`, `FA.CHECK` and `SSM.MATCH`. -/
def passRank (s : State) : Nat :=
  match s.phase with
  | .idle => queueCount s + 5
  | .scan => queueCount s + 4
  | .decision => 3
  | .check => 2
  | .addrMatch => 1
  | .dispatch => 0

theorem microStep_dispatch (hp : s.phase = .dispatch) : microStep s = .refused .answerMissing := by rw [microStep, hp]

/-- The micro-steps by `PHASE` (R103); at DISPATCH there is none without an answer. -/
theorem microStep_eq_next_of_phase : microStep s = .next t ↔
    (s.phase = .idle ∧ pollStep s = .next t) ∨ (s.phase = .scan ∧ scanStep s = .next t) ∨
      (s.phase = .decision ∧ t = decideStep s) ∨ (s.phase = .check ∧ checkStep s = .next t) ∨
      (s.phase = .addrMatch ∧ matchStep s = .next t) := by
  unfold microStep
  cases s.phase <;> simp [eq_comm]

/-- The micro-step `PHASE` selects is the operation of one of its words. -/
theorem exists_exec_of_microStep (he : microStep s = .next t) : ∃ i, i.kind = .microStep ∧ exec i s = .next t := by
  obtain ⟨hp, hk⟩ | ⟨hp, hk⟩ | ⟨hp, rfl⟩ | ⟨hp, hk⟩ | ⟨hp, hk⟩ := microStep_eq_next_of_phase.1 he
  · exact ⟨.ssmPoll, rfl, (exec_ssmPoll hp).trans hk⟩
  · exact ⟨.faScan, rfl, (exec_faScan hp).trans hk⟩
  · exact ⟨.faDecide, rfl, exec_faDecide hp⟩
  · exact ⟨.faCheck, rfl, (exec_faCheck hp).trans hk⟩
  · exact ⟨.ssmMatch, rfl, (exec_ssmMatch hp).trans hk⟩

/-- `SSM.POLL` opens a pass or is all of it. -/
theorem pollStep_progress (h : Wf s) (hp : s.phase = .idle) :
    ∃ t, pollStep s = .next t ∧ (PassOver t ∨ passRank t < passRank s) := by
  cases hs : s.session with
  | init =>
    obtain ⟨t, ht⟩ := initSession_total h.legal
    obtain ⟨_, _, -, -, rfl⟩ := initSession_eq_next.1 ht
    exact ⟨_, (pollStep_init hs).trans ht, .inl (.inl hp)⟩
  | receive =>
    refine ⟨_, pollStep_receive hs, .inr ?_⟩
    simp [passRank, hp, queueCount]
  | sendWait =>
    cases hb : s.txBusy with
    | true => exact ⟨_, pollStep_busy hs hb, .inl (.inl hp)⟩
    | false => exact ⟨_, pollStep_sent hs hb, .inl (.inl hp)⟩

/-- A micro-step goes on, and ends the pass or comes nearer to its end. -/
theorem microStep_progress (h : Inv s) (hp : s.phase ≠ .dispatch) :
    ∃ t, microStep s = .next t ∧ (PassOver t ∨ passRank t < passRank s) := by
  simp only [microStep_eq_next_of_phase]
  cases hphase : s.phase with
  | idle => simpa using pollStep_progress h.wf hphase
  | scan =>
    obtain ⟨t, ht, hnext | ⟨hnext, hcount⟩⟩ := scanStep_progress h.wf hphase
    · exact ⟨t, by simpa using ht, .inr (by simp [passRank, hphase, hnext])⟩
    · exact ⟨t, by simpa using ht, .inr (by simpa [passRank, hphase, hnext] using hcount)⟩
  | decision =>
    refine ⟨decideStep s, by simp, ?_⟩
    cases hc : frameComplete s with
    | true => exact .inr (by simp [passRank, hphase, decideStep_complete hc])
    | false => exact .inl (.inl (by rw [decideStep_incomplete hc]))
  | check =>
    obtain ⟨t, ht, hnext | hnext⟩ := checkStep_total h.wf
    · exact ⟨t, by simpa using ht, .inr (by simp [passRank, hphase, hnext])⟩
    · exact ⟨t, by simpa using ht, .inl (.inl hnext)⟩
  | addrMatch =>
    obtain ⟨hlong, -⟩ := h.frameGood (.inl hphase)
    obtain ⟨t, ht, hnext⟩ := matchStep_total h.wf (by omega)
    exact ⟨t, by simpa using ht, .inl hnext.symm⟩
  | dispatch => exact absurd hphase hp

/-- What a pass is (R229): one micro-step that ends it, or one after which a pass goes on. -/
theorem runPass_succ_eq_next : runPass (fuel + 1) s = .next t ↔
    ∃ u, microStep s = .next u ∧ (PassOver u ∧ t = u ∨ ¬PassOver u ∧ runPass fuel u = .next t) := by
  rw [runPass, andThen_eq_next]
  refine exists_congr fun u => and_congr_right fun _ => ?_
  unfold PassOver
  split
  · next hover => simp [hover, eq_comm (a := t)]
  · next hover => simp [hover]

/-- A pass ends within its rank. -/
theorem runPass_total (h : Inv s) (hp : s.phase ≠ .dispatch) (hfuel : passRank s ≤ fuel) :
    ∃ t, runPass fuel s = .next t := by
  induction fuel generalizing s with
  | zero => cases hphase : s.phase <;> simp_all [passRank]
  | succ fuel ih =>
    simp only [runPass_succ_eq_next]
    obtain ⟨u, hu, hend⟩ := microStep_progress h hp
    by_cases hover : PassOver u
    · exact ⟨u, u, hu, .inl ⟨hover, rfl⟩⟩
    · have hrank : passRank u < passRank s := hend.resolve_left hover
      obtain ⟨t, ht⟩ := ih (microStep_inv h hu) (fun hd => hover (.inr hd)) (by omega)
      exact ⟨t, u, hu, .inr ⟨hover, ht⟩⟩

/-- `N + 4` micro-steps suffice, since fewer than `N` elements are stored. -/
theorem passRank_le (h : Wf s) : passRank s ≤ s.cfg.n + 4 := by
  have hcount := queueCount_lt h.headRange h.tailRange
  unfold passRank
  split <;> omega

/-- The operations `is` run as one pass: micro-steps, at least one, that end at the first state at IDLE or DISPATCH. -/
def IsPass (is : List Instr) (s t : State) : Prop :=
  execSeq is s = .next t ∧ is ≠ [] ∧ (∀ i ∈ is, i.kind = .microStep) ∧ PassOver t ∧
    ∀ k u, 0 < k → k < is.length → execSeq (is.take k) s = .next u → ¬PassOver u

theorem IsPass.single (hk : i.kind = .microStep) (he : exec i s = .next t) (hover : PassOver t) : IsPass [i] s t :=
  ⟨by rw [execSeq, he]; rfl, List.cons_ne_nil _ _, by simpa using hk, hover,
    fun _ _ hpos hlt => absurd hlt (Nat.not_lt.2 hpos)⟩

/-- A pass goes on after a micro-step that did not end it. -/
theorem IsPass.cons {is : List Instr} (hk : i.kind = .microStep) (he : exec i s = .next u) (hover : ¬PassOver u)
    (h : IsPass is u t) : IsPass (i :: is) s t := by
  obtain ⟨hseq, -, hmicro, hend, hfirst⟩ := h
  have hstep (js : List Instr) : execSeq (i :: js) s = execSeq js u := by rw [execSeq, he, andThen_next]
  refine ⟨(hstep is).trans hseq, List.cons_ne_nil _ _, List.forall_mem_cons.2 ⟨hk, hmicro⟩, hend,
    fun k v hpos hlt hv => ?_⟩
  obtain ⟨k, rfl⟩ := Nat.exists_eq_add_one_of_ne_zero hpos.ne'
  rw [List.take_succ_cons, hstep] at hv
  obtain rfl | hk := Nat.eq_zero_or_pos k
  · cases hv
    exact hover
  · exact hfirst k v hk (Nat.lt_of_succ_lt_succ hlt) hv

theorem exists_isPass_of_runPass (he : runPass fuel s = .next t) : ∃ is, IsPass is s t := by
  induction fuel generalizing s with
  | zero => cases he
  | succ fuel ih =>
    obtain ⟨u, hu, hrest⟩ := runPass_succ_eq_next.1 he
    obtain ⟨i, hk, hi⟩ := exists_exec_of_microStep hu
    obtain ⟨hover, rfl⟩ | ⟨hover, hrest⟩ := hrest
    · exact ⟨[i], .single hk hi hover⟩
    · obtain ⟨is, his⟩ := ih hrest
      exact ⟨i :: is, his.cons hk hi hover⟩

/-- Settles O43: the pass ends within `N + 4` micro-steps, and is the sequence of their words. -/
theorem ssmRunIsOnePass : Obligations.SsmRunIsOnePass := by
  refine ⟨by decide, fun s h => ⟨fun hp => ?_, fun hp => ?_⟩⟩
  · obtain ⟨t, ht⟩ := runPass_total h hp (passRank_le h.wf)
    obtain ⟨is, hseq, hne, hmicro, hover, hfirst⟩ := exists_isPass_of_runPass ht
    exact ⟨is, t, ht, hseq, hne, hmicro, hover, fun k u hpos hlt hu => not_or.1 (hfirst k u hpos hlt hu)⟩
  · rw [exec, execSsmRun, runPass, microStep_dispatch hp, andThen_refused]

/-! ## Dispatch requests (R190, R230) -/

/-- The dispatch request of `f` keeps S1 to S3 of R230 in the state `s`. -/
def RequestAllowed (s : State) (f : List Byte) : Prop :=
  s.session = .receive ∧ s.txBusy = false ∧ 2 ≤ f.length ∧ crcGood f = true ∧ f.head? = some s.cfg.slaveAddr

/-- From `s` to `t` outputs are only appended, and each dispatch request among them is allowed in `s`. -/
def OutputsAllowed (s t : State) : Prop :=
  ∃ new, t.outputs = s.outputs ++ new ∧ ∀ f, Output.dispatchRequest f ∈ new → RequestAllowed s f

theorem OutputsAllowed.of_eq (h : t.outputs = s.outputs) : OutputsAllowed s t :=
  ⟨[], by rw [h, List.append_nil], nofun⟩

theorem OutputsAllowed.trans (h : OutputsAllowed s u) (h' : OutputsAllowed u t)
    (hback : ∀ f, RequestAllowed u f → RequestAllowed s f) : OutputsAllowed s t := by
  obtain ⟨new, hnew, hallowed⟩ := h
  obtain ⟨new', hnew', hallowed'⟩ := h'
  refine ⟨new ++ new', by rw [hnew', hnew, List.append_assoc], fun f hf => ?_⟩
  obtain hf | hf := List.mem_append.1 hf
  · exact hallowed f hf
  · exact hback f (hallowed' f hf)

theorem scanStep_outputs (he : scanStep s = .next t) : t.outputs = s.outputs := by
  obtain ⟨-, rfl⟩ | ⟨-, -, _, -, ⟨-, -, rfl⟩ | ⟨-, -, rfl⟩ | ⟨-, -, rfl⟩⟩ := scanStep_eq_next.1 he <;> rfl

theorem checkStep_outputs (he : checkStep s = .next t) : t.outputs = s.outputs := by
  obtain ⟨-, rfl⟩ | ⟨-, _, -, ⟨-, rfl⟩ | ⟨-, rfl⟩⟩ := checkStep_eq_next.1 he <;> rfl

/-- `SSM.POLL` may command `clear_output_buffer`, and requests no dispatch. -/
theorem pollStep_outputsAllowed (he : pollStep s = .next t) : OutputsAllowed s t := by
  obtain ⟨-, hi⟩ | ⟨-, rfl⟩ | ⟨-, -, rfl⟩ | ⟨-, -, rfl⟩ := pollStep_eq_next.1 he
  · obtain ⟨_, _, -, -, rfl⟩ := initSession_eq_next.1 hi
    exact .of_eq rfl
  · exact .of_eq rfl
  · exact .of_eq rfl
  · exact ⟨[.clearOutputBuffer], rfl, by simp⟩

/-- The frame at MATCH passed its check, and `SSM.MATCH` requests it only where its first byte is `SLAVE_ADDR`. -/
theorem matchStep_outputsAllowed (h : Inv s) (hp : s.phase = .addrMatch) (he : matchStep s = .next t) :
    OutputsAllowed s t := by
  obtain ⟨-, first, hfirst, ⟨-, rfl⟩ | ⟨hmine, f, hf, rfl⟩⟩ := matchStep_eq_next.1 he
  · exact .of_eq rfl
  · obtain ⟨hlong, g, hg, hgood⟩ := h.frameGood (.inl hp)
    obtain rfl : f = g := Host.Outcome.next.inj (hf.symm.trans hg)
    obtain ⟨hlen, -, hread⟩ := candidate_eq_next.1 hf
    have hs : s.session = .receive := h.receive_of_phase hp (by simp)
    have hhead : f.head? = some s.cfg.slaveAddr := by
      rw [List.head?_eq_getElem?, ← hread 0 (by omega), hfirst, hmine]
    refine ⟨[.dispatchRequest f], rfl, fun g hg => ?_⟩
    obtain rfl : g = f := by simpa using hg
    exact ⟨hs, h.tx_of_receive hs, hlen ▸ hlong, hgood, hhead⟩

theorem microStep_outputsAllowed (h : Inv s) (he : microStep s = .next t) : OutputsAllowed s t := by
  obtain ⟨-, hk⟩ | ⟨-, hk⟩ | ⟨-, rfl⟩ | ⟨-, hk⟩ | ⟨hp, hk⟩ := microStep_eq_next_of_phase.1 he
  · exact pollStep_outputsAllowed hk
  · exact .of_eq (scanStep_outputs hk)
  · exact .of_eq rfl
  · exact .of_eq (checkStep_outputs hk)
  · exact matchStep_outputsAllowed h hp hk

theorem microStep_cfg (he : microStep s = .next t) : t.cfg = s.cfg := by
  obtain ⟨-, hk⟩ | ⟨-, hk⟩ | ⟨-, rfl⟩ | ⟨-, hk⟩ | ⟨-, hk⟩ := microStep_eq_next_of_phase.1 he
  · obtain ⟨-, hi⟩ | ⟨-, rfl⟩ | ⟨-, -, rfl⟩ | ⟨-, -, rfl⟩ := pollStep_eq_next.1 hk
    · obtain ⟨_, _, -, -, rfl⟩ := initSession_eq_next.1 hi
      rfl
    · rfl
    · rfl
    · rfl
  · obtain ⟨-, rfl⟩ | ⟨-, -, _, -, ⟨-, -, rfl⟩ | ⟨-, -, rfl⟩ | ⟨-, -, rfl⟩⟩ := scanStep_eq_next.1 hk <;> rfl
  · rfl
  · obtain ⟨-, rfl⟩ | ⟨-, _, -, ⟨-, rfl⟩ | ⟨-, rfl⟩⟩ := checkStep_eq_next.1 hk <;> rfl
  · obtain ⟨-, _, -, ⟨-, rfl⟩ | ⟨-, _, -, rfl⟩⟩ := matchStep_eq_next.1 hk <;> rfl

/-- Only in `RECEIVE` does a pass go on after a micro-step. -/
theorem microStep_receive (h : Inv s) (he : microStep s = .next t) (hover : ¬PassOver t) : s.session = .receive := by
  by_cases hp : s.phase = .idle
  · obtain ⟨-, hk⟩ | ⟨hne, -⟩ | ⟨hne, -⟩ | ⟨hne, -⟩ | ⟨hne, -⟩ := microStep_eq_next_of_phase.1 he
    · obtain ⟨-, hi⟩ | ⟨hs, -⟩ | ⟨-, -, rfl⟩ | ⟨-, -, rfl⟩ := pollStep_eq_next.1 hk
      · obtain ⟨_, _, -, -, rfl⟩ := initSession_eq_next.1 hi
        exact absurd (.inl hp) hover
      · exact hs
      · exact absurd (.inl hp) hover
      · exact absurd (.inl hp) hover
    all_goals simp [hp] at hne
  · exact h.passInReceive hp

/-- What a pass requests at its end is allowed at its start: a pass of more than one micro-step runs in `RECEIVE`. -/
theorem runPass_outputsAllowed (h : Inv s) (he : runPass fuel s = .next t) : OutputsAllowed s t := by
  induction fuel generalizing s with
  | zero => cases he
  | succ fuel ih =>
    obtain ⟨u, hu, ⟨-, rfl⟩ | ⟨hover, hrest⟩⟩ := runPass_succ_eq_next.1 he
    · exact microStep_outputsAllowed h hu
    · have hs := microStep_receive h hu hover
      exact (microStep_outputsAllowed h hu).trans (ih (microStep_inv h hu) hrest)
        fun _ ⟨_, _, hlong, hgood, hmine⟩ => ⟨hs, h.tx_of_receive hs, hlong, hgood, microStep_cfg hu ▸ hmine⟩

theorem execFaPoll_outputs (he : execFaPoll s = .next t) : t.outputs = s.outputs := by
  obtain ⟨u, v, hu, hv, rfl⟩ := execFaPoll_eq_next.1 he
  have hscan : u.outputs = s.outputs :=
    (scanLoop_induct (P := fun u => u.outputs = s.outputs) (fun _ _ h _ hk => (scanStep_outputs hk).trans h)
      (s := beginPass s) rfl hu).1
  obtain ⟨-, hv⟩ | ⟨-, rfl⟩ := hv
  · exact (checkStep_outputs hv).trans hscan
  · exact hscan

theorem respondStep_outputs (started : Bool) (s : State) : (respondStep started s).outputs = s.outputs := by
  cases started <;> rfl

/-- Every operation of the environment requests only what R230 allows. -/
theorem exec_outputsAllowed (h : Inv s) (hinternal : i.kind ≠ .internal) (he : exec i s = .next t) :
    OutputsAllowed s t := by
  by_cases hcomposite : i.kind = .composite
  · cases i with
    | faPoll => exact .of_eq (execFaPoll_outputs he)
    | ssmRun => exact runPass_outputsAllowed h he
    | _ => cases hcomposite
  · obtain hmicro | hother := kind_cases hinternal hcomposite
    · obtain hm | ⟨started, -, rfl⟩ := exec_of_microStep hmicro he
      · exact microStep_outputsAllowed h hm
      · exact .of_eq (respondStep_outputs started s)
    · by_cases hreset : i = .sysReset
      · subst hreset
        cases he
        exact .of_eq rfl
      · obtain ⟨-, -, houtputs⟩ := exec_pollAgentKept hother hreset he
        exact .of_eq houtputs

/-- A change of the configuration inputs makes no output, and the events still to come do not matter to what is allowed. -/
theorem step_outputsAllowed (h : Inv s) (hcore : OfTheCore s) (he : step s = .next t) : OutputsAllowed s t := by
  obtain ⟨-, ⟨-, rfl⟩ | ⟨timing, addr, rest, -, hr⟩ | ⟨w, rest, i, hin, hd, hp⟩⟩ := step_eq_next.1 he
  · exact .of_eq rfl
  · obtain ⟨-, -, rfl⟩ := reconfigure_eq_next.1 hr
    exact .of_eq rfl
  · obtain ⟨-, u, hu, rfl⟩ := perform_eq_next.1 hp
    obtain ⟨hinternal, -⟩ := hcore w rest i hin hd
    have hexec : OutputsAllowed { s with inputs := rest } u := exec_outputsAllowed (h.congr rfl) hinternal hu
    exact hexec

/-- Settles O46: what a step appends to the outputs is allowed. -/
theorem dispatchOnlyOwnGoodFrames : Obligations.DispatchOnlyOwnGoodFrames := fun _ _ => step_outputsAllowed

end Sys2Proof.Machine
end

section
/-!
PROOFS. Interrupts, totality and the environment (R246, R248, R191): the two interrupt handlers in either order, the next state
of every operation from a state with the invariants, and what a step does where the environment breaks R191.
-/

namespace Sys2Proof.Machine

variable {s : State} {i : Instr} {w : OpWord} {rest : List Input}

/-! ## The interrupt handlers (R248) -/

/-- A received byte has a next state, and goes the same way whatever `TX_BUSY` is, which it leaves alone. -/
theorem exec_ctcRx_ignores_txBusy (hh : s.head < s.cfg.n) (v : Byte) :
    ∃ t, exec (.ctcRx v) s = .next t ∧ ∀ b, exec (.ctcRx v) { s with txBusy := b } = .next { t with txBusy := b } := by
  by_cases hx : s.rxen = true
  · by_cases hfull : ringNext s.cfg.n s.head = s.tail
    · exact ⟨_, exec_ctcRx_full hx hfull, fun _ => exec_ctcRx_full hx hfull⟩
    · exact ⟨_, exec_ctcRx_room hx hfull hh, fun _ => exec_ctcRx_room hx hfull hh⟩
  · have hoff : s.rxen = false := Bool.eq_false_iff.2 hx
    exact ⟨s, exec_ctcRx_disabled hoff, fun _ => exec_ctcRx_disabled hoff⟩

/-- Settles O47: `SSM.TXDONE` writes `TX_BUSY` alone, which `CTC.RX` neither reads nor writes. -/
theorem interruptsCommute : Obligations.InterruptsCommute := by
  intro s v hh
  obtain ⟨t, ht, hbusy⟩ := exec_ctcRx_ignores_txBusy hh v
  refine ⟨{ t with txBusy := false }, ?_, ?_⟩
  · rw [execSeq, ht]
    rfl
  · exact andThen_eq_next.2 ⟨{ s with txBusy := false }, rfl, andThen_eq_next.2 ⟨_, hbusy false, rfl⟩⟩

/-! ## Totality (R246) -/

/-- The word `PHASE` selects performs the micro-step there; at DISPATCH it carries the responder's answer besides (R103). -/
theorem exec_eq_microStep (hsel : selectedBy i = some s.phase) (hp : s.phase ≠ .dispatch) : exec i s = microStep s := by
  cases i with
  | ssmPoll | faScan | faDecide | faCheck | ssmMatch =>
    have hphase := (Option.some.inj hsel).symm
    rw [microStep, hphase]
    exact requirePhase_of_eq hphase
  | ssmRespond started => exact absurd (Option.some.inj hsel).symm hp
  | _ => cases hsel

/-- The word `PHASE` selects has a next state. -/
theorem exec_selected_total (h : Inv s) (hsel : selectedBy i = some s.phase) : ∃ t, exec i s = .next t := by
  by_cases hp : s.phase = .dispatch
  · cases i with
    | ssmRespond started => exact ⟨_, exec_ssmRespond hp started⟩
    | _ => rw [hp] at hsel; cases hsel
  · obtain ⟨t, ht, -⟩ := microStep_progress h hp
    exact ⟨t, (exec_eq_microStep hsel hp).trans ht⟩

theorem exec_faPoll_total (h : Wf s) : ∃ t, exec .faPoll s = .next t := by
  obtain ⟨-, hparts⟩ := faPollIsItsParts
  obtain ⟨_, t, -, -, ht, -⟩ := hparts s h
  exact ⟨_, ht⟩

/-- Settles O55: the operations that may stop are those that read an array, start the timer, or depend on `PHASE`, `POS` or their
operand; the others are the definition. -/
theorem operationsAreTotal : Obligations.OperationsAreTotal := by
  intro i s h hwf hsel hrun hverify
  obtain ⟨l, hl⟩ := h.wf.represents
  obtain ⟨f, hf⟩ := h.wf.candidate_total
  cases i with
  | ssmPoll | faScan | faDecide | faCheck | ssmMatch | ssmRespond started =>
    exact exec_selected_total h (congrArg some (hsel _ rfl).symm)
  | qEnq item =>
    obtain ⟨t, _, ht, -⟩ := exec_qEnq_prefix h.wf hl item
    exact ⟨t, ht⟩
  | qDeq =>
    obtain ⟨t, ht, -⟩ := exec_qDeq_represents h.wf hl
    exact ⟨t, ht⟩
  | qPeek =>
    obtain ⟨t, ht, -⟩ := exec_qPeek_represents h.wf hl
    exact ⟨t, ht⟩
  | qIter => exact ⟨_, exec_qIter h.wf hl⟩
  | ctcInit => exact startTimer_total h.wf.legal
  | ctcTick k => exact ⟨_, exec_ctcTick (bne_iff_ne.1 hwf)⟩
  | ctcRx v =>
    obtain ⟨t, ht, -⟩ := exec_ctcRx_ignores_txBusy h.wf.headRange v
    exact ⟨t, ht⟩
  | faPoll => exact exec_faPoll_total h.wf
  | crcBlock => exact ⟨_, exec_crcBlock hf⟩
  | crcVerify => exact ⟨_, exec_crcVerify (hverify rfl) hf⟩
  | ssmInit => exact initSession_total h.wf.legal
  | ssmRun => exact runPass_total h (hrun rfl) (passRank_le h.wf)
  | sysReset | qInit | qFree | qCount | ctcSilnow | ctcRestart | faBegin | faClear | crcReset | crcByte b | ssmTxdone =>
    exact ⟨_, rfl⟩

/-! ## An environment that breaks R191 (R246) -/

/-- The poll agent's own words break (A2) at DISPATCH. -/
theorem breaksA2_of_dispatch (hp : s.phase = .dispatch)
    (hi : i ∈ [Instr.qInit, .qDeq, .qPeek, .ctcInit, .ctcSilnow, .faBegin, .faClear, .faPoll, .crcVerify, .ssmInit]) :
    breaksA2 i s = true := by
  rw [breaksA2, pollAgentOnly_iff.2 hi, Bool.and_true, decide_eq_true_iff]
  exact hp

theorem breaksA3_iff : breaksA3 i s = true ↔ i = .ssmTxdone ∧ s.answered = true ∧ s.owed = 0 := decide_eq_true_iff

theorem breaksA3_eq_false (h : i ≠ .ssmTxdone ∨ s.answered = false ∨ 0 < s.owed) : breaksA3 i s = false := by
  refine Bool.eq_false_iff.2 fun hbreak => ?_
  obtain ⟨hi, hans, howed⟩ := breaksA3_iff.1 hbreak
  obtain hne | hans' | hpos := h
  · exact hne hi
  · exact Bool.eq_false_iff.1 hans' hans
  · exact hpos.ne' howed

/-- The admitted step of the word that is next depends on (A3) alone (log 18). -/
theorem admittedStep_of_word (hin : s.inputs = .word w :: rest) (hd : decode w = .ok i) :
    admittedStep s = if breaksA3 i s then .refused .environmentBroken else step s := by
  rw [admittedStep, nextOperation_word hin hd]

/-- Settles O59: the step looks at (A2), the admitted step at (A3) before it. -/
theorem environmentBreach : Obligations.EnvironmentBreach := by
  intro s w rest i hl hin hd
  rw [step_of_word hl hin hd, admittedStep_of_word hin hd, step_of_word hl hin hd]
  refine ⟨fun hp hi => perform_of_breaksA2 (breaksA2_of_dispatch hp hi), ?_, ?_, ?_⟩
  · rintro rfl hbusy
    exact perform_spurious hbusy
  · exact fun hi hans howed => if_pos (breaksA3_iff.2 ⟨hi, hans, howed⟩)
  · exact fun hkept => if_neg (Bool.eq_false_iff.1 (breaksA3_eq_false hkept))

end Sys2Proof.Machine
end

section
/-!
PROOFS. Reset and hazards (R270 to R272, R275, R287): what reset leaves, what the events do before initialisation, the step with
no event left, and that `SEND_WAIT` has no timeout.
-/

namespace Sys2Proof.Machine

variable {s t : State} {i : Instr} {v : Byte} {fuel : Nat}

/-! ## Reset (R270, R271) -/

/-- Settles O49: the registers stand in the definition, and an array without elements has no value at any index. -/
theorem sysResetFromAnyState : Obligations.SysResetFromAnyState := by
  refine ⟨by decide, fun s => ⟨_, rfl, ?_⟩⟩
  simp only [memRead_nil, and_self, implies_true]

/-- Settles O50: the registers stand in the definition, and both arrays are without elements. -/
theorem resetStateHoldsTheSpecValues : Obligations.ResetStateHoldsTheSpecValues := by
  have harrays (a : Nat) : memRead State.reset.slot a = none ∧ memRead State.reset.buf a = none :=
    ⟨memRead_nil a, memRead_nil a⟩
  exact ⟨rfl, rfl, rfl, rfl, rfl, rfl, rfl, rfl, rfl, rfl, rfl, rfl, rfl, harrays⟩

/-! ## Where nothing happens (R272, R275) -/

/-- Settles O7: the step takes no event. -/
theorem noEventKeepsTheState : Obligations.NoEventKeepsTheState := fun _ hl hin =>
  step_eq_next.2 ⟨hl, .inl ⟨hin, rfl⟩⟩

theorem exec_ctcTick_stopped {k : BitVec 16} (hk : k ≠ 0) (hr : s.run = false) : exec (.ctcTick k) s = .next s := by
  rw [exec_ctcTick hk, timerTicks_stopped _ hr]

/-- An interrupt with no transmission under way changes nothing (R228 corner case b). -/
theorem exec_ssmTxdone_idle (hb : s.txBusy = false) : exec .ssmTxdone s = .next s := by
  rw [exec, execSsmTxdone, ← hb]

theorem queueCount_of_eq (h : s.head = s.tail) : queueCount s = 0 := by rw [queueCount, h, ringDist_self]

theorem exec_qCount_empty (h : s.head = s.tail) : exec .qCount s = .next { s with result := .count 0 } := by
  rw [exec, execQCount, queueCount_of_eq h]
  rfl

theorem exec_qFree_empty (h : s.head = s.tail) : exec .qFree s = .next { s with result := .count (s.cfg.n - 1) } := by
  rw [exec, execQFree, queueFree, queueCount_of_eq h]
  rfl

/-- Settles O51: in `INIT` the timer is stopped, reception disabled, nothing transmitted and the queue empty (G7). -/
theorem eventsBeforeInitialisation : Obligations.EventsBeforeInitialisation := by
  intro s h hs
  obtain ⟨hrun, hrxen, hempty, -, -, hbusy⟩ := h.initial hs
  exact ⟨fun k hk => exec_ctcTick_stopped hk hrun, fun v => exec_ctcRx_disabled hrxen, exec_ssmTxdone_idle hbusy,
    exec_qCount_empty hempty, exec_qFree_empty hempty, exec_qIter h.wf ((Represents.nil_iff h.wf.tailRange).2 hempty)⟩

/-! ## SEND_WAIT has no timeout (R287) -/

theorem exec_ctcRx_txBusy (hh : s.head < s.cfg.n) (he : exec (.ctcRx v) s = .next t) : t.txBusy = s.txBusy := by
  obtain ⟨_, -, hany⟩ := exec_ctcRx_ignores_txBusy hh v
  cases he.symm.trans (hany s.txBusy)
  rfl

/-- Reset and the transmit-complete interrupt aside, the events that are no step of the poll agent leave `TX_BUSY` alone. -/
theorem exec_txBusyKept (hk : i.kind = .external ∨ i.kind = .query ∨ i.kind = .pure) (hreset : i ≠ .sysReset)
    (hdone : i ≠ .ssmTxdone) (hh : s.head < s.cfg.n) (he : exec i s = .next t) : t.txBusy = s.txBusy := by
  obtain hext | hobs := hk
  · cases i with
    | ctcTick k =>
      obtain ⟨-, rfl⟩ := execCtcTick_eq_next.1 he
      rw [timerTicks_frame]
    | ctcRx v => exact exec_ctcRx_txBusy hh he
    | sysReset => exact absurd rfl hreset
    | ssmTxdone => exact absurd rfl hdone
    | _ => cases hext
  · obtain ⟨_, _, rfl⟩ := exec_of_observing (hobs.imp_right .inl) he
    rfl

/-- While a transmission is under way the poll agent is in `SEND_WAIT` between two passes (G5, G6). -/
theorem Inv.waiting_of_busy (h : Inv s) (hb : s.txBusy = true) : s.session = .sendWait ∧ s.phase = .idle :=
  have hs := h.busyInWait hb
  ⟨hs, h.waitIsIdle hs⟩

/-- The only micro-step there is `SSM.POLL`, which goes on waiting. -/
theorem microStep_busy (h : Inv s) (hb : s.txBusy = true) : microStep s = .next s := by
  obtain ⟨hs, hp⟩ := h.waiting_of_busy hb
  rw [microStep, hp]
  exact pollStep_busy hs hb

theorem exec_microStep_busy (h : Inv s) (hb : s.txBusy = true) (hk : i.kind = .microStep) (he : exec i s = .next t) :
    t = s := by
  obtain hmicro | ⟨_, hp, -⟩ := exec_of_microStep hk he
  · exact Host.Outcome.next.inj (hmicro.symm.trans (microStep_busy h hb))
  · obtain ⟨-, hidle⟩ := h.waiting_of_busy hb
    cases hp.symm.trans hidle

/-- A pass is over after that one micro-step. -/
theorem runPass_busy (h : Inv s) (hb : s.txBusy = true) : runPass (fuel + 1) s = .next s := by
  obtain ⟨-, hp⟩ := h.waiting_of_busy hb
  exact runPass_succ_eq_next.2 ⟨s, microStep_busy h hb, .inl ⟨.inl hp, rfl⟩⟩

/-- Settles O48: the poll agent's operations leave the state as it is, the other events its registers and `TX_BUSY`. -/
theorem sendWaitHasNoTimeout : Obligations.SendWaitHasNoTimeout := by
  intro i s t h hinternal hreset hdone hpoll he hb
  obtain ⟨hs, hp⟩ := h.waiting_of_busy hb
  by_cases hcomposite : i.kind = .composite
  · cases i with
    | ssmRun =>
      cases he.symm.trans (runPass_busy h hb)
      exact ⟨hb, hs, hp⟩
    | faPoll => exact absurd rfl hpoll
    | _ => cases hcomposite
  · obtain hmicro | hother := kind_cases hinternal hcomposite
    · rw [exec_microStep_busy h hb hmicro he]
      exact ⟨hb, hs, hp⟩
    · obtain ⟨hsession, hphase, -⟩ := exec_pollAgentKept hother hreset he
      exact ⟨(exec_txBusyKept hother hreset hdone h.wf.headRange he).trans hb, hsession.trans hs, hphase.trans hp⟩

end Sys2Proof.Machine
end
